-- ==== Sys2Proof/Word.lean ====
section
/-! DEFINITION. The two word types of the PXU: a register, command or pixel word (00_scope.md R6, XLEN = PIXEL_W = 32)
and a byte of raw source data or one channel value (CHAN_W = 8). -/

namespace Sys2Proof

/-- A general register, a command word, a host register, a packed pixel or a histogram bin (R6: XLEN, PIXEL_W, COUNT_W). -/
abbrev Word := BitVec 32

/-- One byte of SRC, or one channel value 0..255 (R6: CHAN_W). -/
abbrev Byte := BitVec 8

end Sys2Proof
end

