-- ==== Sys2Proof/Config.lean ====
section
/-! DEFINITION. What an implementation of the PXU fixes (00_scope.md R6) and the free values: the values the spec leaves
unspecified (93_implementation_defined.md). A free value is an opaque constant without a body: nothing can evaluate it, so
whatever is proved of it holds for every value. -/

namespace Sys2Proof.Config

/-- WIDE_W, the width of the wide-precision intermediate of the codec (R6, D12). -/
abbrev wideW : Nat := 16

/-- NREG, the number of general registers (R6). -/
abbrev nreg : Nat := 8

/-- NBINS, the bins of one histogram (R6). -/
abbrev nbins : Nat := 256

/-- The largest legal MAX_PIXELS: 2^COUNT_W - 1 (R7). -/
abbrev maxCapacity : Nat := 2 ^ 32 - 1

/-- Which legal capacity this implementation has: open (P1, D10). -/
opaque capacityCode : Word

/-- MAX_PIXELS of the machine after reset: some number from 1 to 2^32 - 1, and every one of them is possible (R6, P1; log 8). -/
def maxPixels : Nat := max 1 (maxCapacity - capacityCode.toNat)

/-- Byte `a` of SRC after reset number `epoch`, until its first write: any value (U2; log 6). -/
opaque srcAtReset (epoch a : Nat) : Byte

/-- Word `k` of PIX after reset number `epoch`, until its first write: any value (U3; log 6). -/
opaque pixAtReset (epoch k : Nat) : Word

/-- Word `k` of DISP after reset number `epoch`, until its first write: any value (U4; log 6). -/
opaque dispAtReset (epoch k : Nat) : Word

/-- General register `i` after the reset input's edge number `epoch`: any value (U1, U10; log 7). -/
opaque regAtReset (epoch i : Nat) : Word

/-- Bin `i` of histogram `c` (0, 1, 2) after the reset input's edge number `epoch`: any value (U5, U10; log 7). -/
opaque binAtReset (epoch c i : Nat) : Word

/-- What the `n`-th read made while BUSY = 1 returns: any value (U6, R241; log 9). -/
opaque busyRead (n : Nat) : Word

/-- REG_BASE, where the platform places the REG space: open (P2, R68; log 13). -/
opaque regBase : Nat

/-- SRC_BASE: open (P2, R68; log 13). -/
opaque srcBase : Nat

/-- DISP_BASE: open (P2, R68; log 13). -/
opaque dispBase : Nat

end Sys2Proof.Config
end

