-- ==== Sys2Proof/Syntax.lean ====
section
/-! DEFINITION. The commands of the PXU as data: one constructor of `Instr` per row of spec/opcode_table.json
(30_encoding.md R84), with the operands of R83. Every term is an encodable command: the operand types hold exactly the values
R81 and R86 allow (a group base is x0 or x4, a channel is R, G or B). What an assembler line may hold beyond that, and which
lines are refused, is in WellFormed.lean. -/

namespace Sys2Proof

/-- A general register number 0..7 (10_state.md R21). -/
abbrev Reg := Fin 8

/-- A histogram channel (R160): the command field ch is 0, 1 or 2; 3 is illegal (R86). -/
inductive Channel where
  | r
  | g
  | b
deriving DecidableEq, Repr

/-- A source layout (R83, D35): lay = 0 is RGB, 3 bytes a pixel; lay = 1 is RGBA, 4 bytes a pixel. -/
inductive Layout where
  | rgb
  | rgba
deriving DecidableEq, Repr

/-- The destination group of a decode (R82, F-DEC): x0..x3 when q = 0, x4..x7 when q = 1. -/
inductive Group where
  | lo
  | hi
deriving DecidableEq, Repr

/-- The names of the commands, in the order of R84. -/
inductive Mnemonic where
  | enc8 | encw | dec8 | decw | todisp | decd
  | load | loadx | getpix | dims | exportDisp
  | gray | inv | thr
  | hbuild | hcount | hlow | hhigh | hcum
deriving DecidableEq, Repr

/-- The formats of R82. -/
inductive Format where
  | enc | dec | un | load | none | imm | gp | d2 | hc | hl | ch
deriving DecidableEq, Repr

/-- The commands of the PXU, with the operand order of R88. -/
inductive Instr where
  | enc8 (rd rs1 rs2 rs3 rs4 : Reg)
  | encw (rd rs1 rs2 rs3 rs4 : Reg)
  | dec8 (q : Group) (rs1 : Reg)
  | decw (q : Group) (rs1 : Reg)
  | todisp (rd rs1 : Reg)
  | decd (q : Group) (rs1 : Reg)
  | load (rs1 rs2 rs3 : Reg) (lay : Layout)
  | loadx
  | getpix (rd rs1 rs2 : Reg)
  | dims (rd rd2 : Reg)
  | exportDisp
  | gray
  | inv
  | thr (imm8 : Byte)
  | hbuild
  | hcount (rd rs1 : Reg) (ch : Channel)
  | hlow (rd rd2 : Reg) (ch : Channel)
  | hhigh (rd rd2 : Reg) (ch : Channel)
  | hcum (ch : Channel)
deriving DecidableEq, Repr

/-- The command's row of the opcode table. -/
def Instr.mnemonic : Instr → Mnemonic
  | .enc8 .. => .enc8
  | .encw .. => .encw
  | .dec8 .. => .dec8
  | .decw .. => .decw
  | .todisp .. => .todisp
  | .decd .. => .decd
  | .load .. => .load
  | .loadx => .loadx
  | .getpix .. => .getpix
  | .dims .. => .dims
  | .exportDisp => .exportDisp
  | .gray => .gray
  | .inv => .inv
  | .thr _ => .thr
  | .hbuild => .hbuild
  | .hcount .. => .hcount
  | .hlow .. => .hlow
  | .hhigh .. => .hhigh
  | .hcum _ => .hcum

end Sys2Proof
end

