-- ==== Sys2Proof/Machine/State.lean ====
section
/-! DEFINITION. The state of the PXU (10_state.md R20), the accesses of its bus (20_memory.md R60), and the state right after
reset (R44). -/

namespace Sys2Proof.Machine

/-- The result codes of STATUS.ERR (60_exceptions.md R200). The codes 10..15 are never produced (V4). -/
inductive ErrCode where
  | ok
  | invalidBufferLength
  | indexOutOfRange
  | decodeFailure
  | noImage
  | noHistogram
  | illegalCommand
  | invalidDimensions
  | capacityExceeded
  | countOverflow
deriving DecidableEq, Repr

/-- One thing per colour channel, R, G and B (R35, R40). -/
structure PerChannel (α : Type) where
  r : α
  g : α
  b : α
deriving DecidableEq, Repr

/-- The 256 bins of one histogram (R40). -/
abbrev Bins := Vector Word 256

/-- The decoder port DEC_CTRL, DEC_LAYOUT, DEC_W, DEC_H, DEC_LEN (R36): its fields; the reserved bits hold nothing (R43). -/
structure DecPort where
  fail   : Bool
  code   : BitVec 24
  layout : Layout
  w      : Word
  h      : Word
  len    : Word
deriving DecidableEq, Repr

/-- The agents of the bus (R15, R60). They have the same rights (R69, R212). -/
inductive Agent where
  | host
  | decoder
  | display
deriving DecidableEq, Repr

/-- The host address spaces (R61). -/
inductive Space where
  | reg
  | src
  | disp
deriving DecidableEq, Repr

/-- The access sizes of R60: 1, 2 or 4 bytes. -/
inductive Size where
  | one
  | two
  | four
deriving DecidableEq, Repr

/-- The direction of an access; a write carries its value, of which an n-byte write uses the low 8*n bits (R62). -/
inductive Direction where
  | read
  | write (v : Word)
deriving DecidableEq, Repr

/-- One bus access (R60): a space, a byte address in it, a size and a direction, and the agent that makes it. -/
structure Access where
  agent : Agent
  space : Space
  addr  : Nat
  size  : Size
  dir   : Direction
deriving DecidableEq, Repr

/-- What the bus answers (R62, R63). -/
inductive Reply where
  /-- A served read's value, zero-extended to 32 bits. -/
  | data (v : Word)
  /-- A write that was not refused; one dropped because BUSY = 1 is answered so too (R207; log 22). -/
  | done
  /-- The bus-error response of R63, and of R230 while reset is asserted. -/
  | busError
deriving DecidableEq, Repr

/-- An access that was made and the answer it got. -/
structure Response where
  access : Access
  reply  : Reply
deriving DecidableEq, Repr

/-- What can happen next at the PXU's boundary (log 1). -/
inductive Event where
  /-- The bus serves an access. -/
  | access (a : Access)
  /-- The engine's turn: the command in flight, if there is one, takes effect (R16, R250). -/
  | engine
  /-- The reset input is asserted (R230). -/
  | assertReset
  /-- The reset input is released (R230). -/
  | releaseReset
deriving DecidableEq, Repr

/-- The state of the PXU and, below the line, the model's own fields. STATUS.BUSY is not stored: it is 1 exactly when a
command is in flight (R25, R27; log 24). -/
structure State where
  /-- x0..x7 (R21). -/
  x : Vector Word 8
  /-- The command in flight: the word written to CMD (R25, R41). -/
  inflight : Option Word
  /-- STATUS.IMG_VALID (R28). -/
  imgValid : Bool
  /-- STATUS.HIST_VALID (R29). -/
  histValid : Bool
  /-- STATUS.EMPTY (R30). -/
  empty : Bool
  /-- STATUS.LOST (R31). -/
  lost : Bool
  /-- STATUS.ERR (R32). -/
  err : ErrCode
  /-- ERRINFO (R33). -/
  errInfo : Word
  /-- IMG_W (R34). -/
  imgW : Word
  /-- IMG_H (R34). -/
  imgH : Word
  /-- HSTAT.CUMCNT_R, _G, _B (R35). -/
  cumCnt : PerChannel (BitVec 2)
  /-- The decoder port (R36). -/
  dec : DecPort
  /-- PIX: the words written so far, by word index (R37; log 6). -/
  pix : List (Nat × Word)
  /-- SRC: the bytes written so far, by address (R38; log 6). -/
  src : List Host.Cell
  /-- DISP: the words written so far, by word index (R39; log 6). -/
  disp : List (Nat × Word)
  /-- HIST (R40). -/
  hist : PerChannel Bins
  /-- Is the reset input asserted (R230)? -/
  inReset : Bool
  /-- MAX_PIXELS of this machine: no step changes it (R6; log 8). -/
  maxPixels : Nat
  /-- What happens next, oldest first (log 1). -/
  events : List Event
  /-- The bus's answers so far, newest first (log 2). -/
  responses : List Response
  /-- How many resets left their fresh unspecified contents (log 7). -/
  epoch : Nat
  /-- How many free read values have been handed out (log 16). -/
  draws : Nat
deriving DecidableEq, Repr

/-- No step of the PXU stops the machine: every command completes (R27), an error is a result code (R203), a bus error is an
answer (R63). So there is no fault, and nothing raises one (log 20). -/
inductive Fault where
deriving DecidableEq, Repr

/-- Why the model gives no meaning. -/
inductive Refusal where
  /-- Raised only by an arm of `exec` whose instruction has no meaning yet; safe. No arm is left so. -/
  | notModelled (mnemonic : String)
deriving DecidableEq, Repr

/-- The outcome of a step. -/
abbrev Result := Host.Outcome State Fault Refusal

/-- A histogram of zeros. -/
def zeroBins : Bins := Vector.replicate 256 0#32

/-- The state after reset of a machine whose MAX_PIXELS is `m` (R44, R230, R232): idle, no image, no histogram, every control
and status register 0, no memory listed. The general registers and HIST, which R44 leaves unspecified, are 0 here: DESIGN
CHOICE (log 4, log 5). -/
def State.resetWith (m : Nat) : State where
  x := Vector.replicate 8 0#32
  inflight := none
  imgValid := false
  histValid := false
  empty := false
  lost := false
  err := .ok
  errInfo := 0#32
  imgW := 0#32
  imgH := 0#32
  cumCnt := ⟨0#2, 0#2, 0#2⟩
  dec := ⟨false, 0#24, .rgb, 0#32, 0#32, 0#32⟩
  pix := []
  src := []
  disp := []
  hist := ⟨zeroBins, zeroBins, zeroBins⟩
  inReset := false
  maxPixels := m
  events := []
  responses := []
  epoch := 0
  draws := 0

/-- The machine right after reset, with whatever legal MAX_PIXELS the implementation has (P1; log 8). -/
def State.reset : State := State.resetWith Config.maxPixels

end Sys2Proof.Machine
end

