-- ==== Sys2Proof/Machine/Ops.lean ====
section
/-! DEFINITION. The named operations over registers, memories and results that the meanings share: reading and writing a
register, a sparse memory in one canonical form, the three ways a command ends (60_exceptions.md R203), and what the reset
input leaves (10_state.md R44). -/

namespace Sys2Proof.Machine

/-! ### One value per channel -/

def PerChannel.get {α : Type} (p : PerChannel α) : Channel → α
  | .r => p.r
  | .g => p.g
  | .b => p.b

def PerChannel.set {α : Type} (p : PerChannel α) (c : Channel) (v : α) : PerChannel α :=
  match c with
  | .r => { p with r := v }
  | .g => { p with g := v }
  | .b => { p with b := v }

/-! ### Bins -/

/-- Bin `i` of a histogram, for i in 0..255 (R40). -/
def Bins.bin (h : Bins) (i : Nat) : Word := h.getD i 0#32

/-- A histogram with bin `i` replaced, for i in 0..255. -/
def Bins.setBin (h : Bins) (i : Nat) (v : Word) : Bins := h.setIfInBounds i v

/-! ### Sparse memory

A memory is a list of (address, value) pairs with strictly rising addresses. An address that is not listed holds no written
value (log 6). -/

/-- The canonical form: addresses strictly rising. -/
abbrev Memory.wf {α : Type} (m : List (Nat × α)) : Prop := m.Pairwise (fun c d => c.1 < d.1)

/-- The value written at an address, if any. -/
def Memory.lookup {α : Type} : List (Nat × α) → Nat → Option α
  | [], _ => none
  | (k, v) :: m, a => if k = a then some v else Memory.lookup m a

/-- The memory with one value written. -/
def Memory.write {α : Type} : List (Nat × α) → Nat → α → List (Nat × α)
  | [], a, v => [(a, v)]
  | (k, u) :: m, a, v =>
    if a < k then (a, v) :: (k, u) :: m
    else if a = k then (a, v) :: m
    else (k, u) :: Memory.write m a v

/-- The memory with the values f 0, ..., f (n - 1) written at the addresses 0, ..., n - 1, and the rest kept. -/
def Memory.fill {α : Type} (m : List (Nat × α)) (n : Nat) (f : Nat → α) : List (Nat × α) :=
  (List.range n).map (fun k => (k, f k)) ++ m.filter (fun c => n ≤ c.1)

/-! ### Reading the state (R10) -/

/-- x[i] (R21). -/
def State.readReg (s : State) (i : Reg) : Word := s.x[i]

/-- SRC byte a: what was written, else a free value (R38, U2; log 6). -/
def State.readSrc (s : State) (a : Nat) : Byte := (Memory.lookup s.src a).getD (Config.srcAtReset s.epoch a)

/-- PIX[k]: what was written, else a free value (R37, U3; log 6). -/
def State.readPix (s : State) (k : Nat) : Word := (Memory.lookup s.pix k).getD (Config.pixAtReset s.epoch k)

/-- DISP[k]: what was written, else a free value (R39, U4; log 6). -/
def State.readDisp (s : State) (k : Nat) : Word := (Memory.lookup s.disp k).getD (Config.dispAtReset s.epoch k)

/-- HIST[c][i] (R40). -/
def State.readBin (s : State) (c : Channel) (i : Nat) : Word := (s.hist.get c).bin i

/-- N = IMG_W * IMG_H, the image's pixels, exact (R120). -/
def State.numPixels (s : State) : Nat := s.imgW.toNat * s.imgH.toNat

/-- STATUS.BUSY: a command is in flight (R27). -/
def State.busy (s : State) : Bool := s.inflight.isSome

/-! ### Writing the state -/

/-- x[i] <- v (R21: no register is hardwired). -/
def State.setReg (s : State) (i : Reg) (v : Word) : State := { s with x := s.x.set i v }

/-- The four registers of a group, written in order (R82, R106). -/
def groupReg : Group → Fin 4 → Reg
  | .lo, j => ⟨j, by omega⟩
  | .hi, j => ⟨4 + j, by omega⟩

def State.setGroup (s : State) (q : Group) (v0 v1 v2 v3 : Word) : State :=
  (((s.setReg (groupReg q 0) v0).setReg (groupReg q 1) v1).setReg (groupReg q 2) v2).setReg (groupReg q 3) v3

/-- PIX[k] <- f k for k < n (R122, R140). -/
def State.fillPix (s : State) (n : Nat) (f : Nat → Word) : State := { s with pix := Memory.fill s.pix n f }

/-- DISP[k] <- f k for k < n (R127). -/
def State.fillDisp (s : State) (n : Nat) (f : Nat → Word) : State := { s with disp := Memory.fill s.disp n f }

/-- SRC byte a <- v (R38). -/
def State.writeSrc (s : State) (a : Nat) (v : Byte) : State := { s with src := Memory.write s.src a v }

/-- IMG_W <- w, IMG_H <- h, IMG_VALID <- 1 (R122). -/
def State.setDims (s : State) (w h : Word) : State := { s with imgW := w, imgH := h, imgValid := true }

/-- STATUS.EMPTY <- b (R30). -/
def State.setEmpty (s : State) (b : Bool) : State := { s with empty := b }

/-- All of HIST replaced, HIST_VALID <- 1 and the three CUMCNT <- 0 (R163). -/
def State.setBuilt (s : State) (h : PerChannel Bins) : State :=
  { s with hist := h, histValid := true, cumCnt := ⟨0#2, 0#2, 0#2⟩ }

/-- Histogram c and CUMCNT_c replaced (R179). -/
def State.setCumulated (s : State) (c : Channel) (h : Bins) (n : BitVec 2) : State :=
  { s with hist := s.hist.set c h, cumCnt := s.cumCnt.set c n }

/-! ### How a command ends (R11, R203)

An error is taken here and nowhere else. There is no trap to enter and none to return from (R205, R206): the code goes to
STATUS.ERR, the value to ERRINFO, and BUSY falls. -/

/-- STATUS.ERR <- code(e), ERRINFO <- info, STATUS.BUSY <- 0. -/
def State.finish (s : State) (e : ErrCode) (info : Word) : State :=
  { s with err := e, errInfo := info, inflight := none }

/-- `complete`: ERR <- OK and ERRINFO <- 0. -/
def State.complete (s : State) : State := s.finish .ok 0#32

/-- `raise e(info)`: on the state the command started in, so nothing else has changed. -/
def State.raise (s : State) (e : ErrCode) (info : Word) : State := s.finish e info

/-- `report e(info)`: on the state the command has written, which is kept (R179). -/
def State.report (s : State) (e : ErrCode) (info : Word) : State := s.finish e info

/-- The preconditions NO_IMAGE and NO_HISTOGRAM (R140, R161): raise the error when the flag is 0, else go on. -/
def State.require (s : State) (valid : Bool) (e : ErrCode) (k : State → State) : State :=
  if valid then k s else s.raise e 0#32

/-- What an illegal word does: ILLEGAL_COMMAND with ERRINFO = the word, and nothing else (R86, R201). -/
def State.illegal (s : State) (w : Word) : State := s.raise .illegalCommand w

/-! ### The reset input -/

/-- Histogram `c` after reset: unspecified, so free (R44, U5; log 7). -/
def freeBins (epoch c : Nat) : Bins := Vector.ofFn (fun i => Config.binAtReset epoch c i)

/-- The state of R44, from any state (R230, R231): the command in flight is abandoned, control and status registers are 0,
registers, memories and bins are unspecified and therefore free, all anew. The model's own fields go on. -/
def State.toReset (s : State) : State :=
  { State.resetWith s.maxPixels with
    x := Vector.ofFn (fun i => Config.regAtReset (s.epoch + 1) i)
    hist := ⟨freeBins (s.epoch + 1) 0, freeBins (s.epoch + 1) 1, freeBins (s.epoch + 1) 2⟩
    events := s.events
    responses := s.responses
    epoch := s.epoch + 1
    draws := s.draws }

/-- Reset is asserted: the command in flight is abandoned at once (R231), and the block stays in reset (R230). -/
def State.assertReset (s : State) : State := { s.toReset with inReset := true }

/-- Reset is released: the state is that of R44 (R230). A release while reset is not asserted is no edge. -/
def State.releaseReset (s : State) : State := if s.inReset then s.toReset else s

end Sys2Proof.Machine
end

