-- ==== Sys2Proof/Machine/Operands.lean ====
section
/-! DEFINITION. The operand forms of the commands: pixel words and their layouts (00_scope.md R12, 40_codec.md R100, R101), the
codec's narrow and wide register reads (R104, R105), the bytes of a source layout (41_image.md R121), and little-endian
assembly of bus values (20_memory.md R65). -/

namespace Sys2Proof.Machine

/-! ### Packed pixels (R12) -/

/-- Four channel values or four bytes, in a named order. -/
structure Quad where
  c0 : Byte
  c1 : Byte
  c2 : Byte
  c3 : Byte
deriving DecidableEq, Repr

/-- pack(r, g, b, a) = {r, g, b, a}, storage order (R100). -/
def pack (r g b a : Byte) : Word := r ++ g ++ b ++ a

/-- unpack(w) = (w[31:24], w[23:16], w[15:8], w[7:0]) = (r, g, b, a). -/
def unpack (w : Word) : Quad :=
  ⟨w.extractLsb' 24 8, w.extractLsb' 16 8, w.extractLsb' 8 8, w.extractLsb' 0 8⟩

/-- disp(w) = {w[7:0], w[31:24], w[23:16], w[15:8]}, the display-order word of the same values (R101). -/
def displayWord (w : Word) : Word :=
  w.extractLsb' 0 8 ++ w.extractLsb' 24 8 ++ w.extractLsb' 16 8 ++ w.extractLsb' 8 8

/-- undisp(d) = (d[31:24], d[23:16], d[15:8], d[7:0]) = (a, r, g, b). -/
def undisplay (d : Word) : Quad :=
  ⟨d.extractLsb' 24 8, d.extractLsb' 16 8, d.extractLsb' 8 8, d.extractLsb' 0 8⟩

/-- The channel of a storage-order word that histogram `c` counts (R160: alpha is never counted). -/
def channelOf (c : Channel) (w : Word) : Byte :=
  match c with
  | .r => (unpack w).c0
  | .g => (unpack w).c1
  | .b => (unpack w).c2

/-! ### Register operands of the codec -/

/-- x[i][7:0], the 8-bit variant's read (R104). -/
def State.narrow (s : State) (i : Reg) : Byte := (s.readReg i).extractLsb' 0 8

/-- x[i][WIDE_W-1:0], the wide variant's read (R105). -/
def State.wide (s : State) (i : Reg) : BitVec Config.wideW := (s.readReg i).extractLsb' 0 Config.wideW

/-- The low 8 bits of a wide value, which are what is packed (R105). -/
def wideLow (v : BitVec Config.wideW) : Byte := v.extractLsb' 0 8

/-- zext_32(c) of a channel value (R106). -/
def widen (c : Byte) : Word := c.zeroExtend 32

/-- zext_32(zext_WIDE_W(c)) (R107). -/
def widenWide (c : Byte) : Word := (c.zeroExtend Config.wideW).zeroExtend 32

/-! ### Raw source pixels (R121) -/

/-- Bytes per pixel of a layout: 3 or 4. -/
def bytesPerPixel : Layout → Nat
  | .rgb => 3
  | .rgba => 4

/-- Pixel k from its source bytes, R first; an RGB pixel gets alpha 255 (R121, D13). -/
def State.pixelFromBytes (s : State) (lay : Layout) (k : Nat) : Word :=
  let base := k * bytesPerPixel lay
  match lay with
  | .rgb => pack (s.readSrc base) (s.readSrc (base + 1)) (s.readSrc (base + 2)) 0xFF#8
  | .rgba => pack (s.readSrc base) (s.readSrc (base + 1)) (s.readSrc (base + 2)) (s.readSrc (base + 3))

/-! ### Bus values (R65) -/

/-- The bytes of an access. -/
def Size.bytes : Size → Nat
  | .one => 1
  | .two => 2
  | .four => 4

/-- Byte j of a word, the byte at the j-th address (little-endian). -/
def byteOf (v : Word) (j : Nat) : Byte := v.extractLsb' (8 * j) 8

/-- The n-byte value whose byte at offset j is f j, zero-extended to 32 bits: the lowest address holds bits [7:0]. -/
def assemble (n : Size) (f : Nat → Byte) : Word :=
  match n with
  | .one => (f 0).zeroExtend 32
  | .two => (f 1 ++ f 0).zeroExtend 32
  | .four => f 3 ++ f 2 ++ f 1 ++ f 0

/-- The low n bytes of a word. -/
def truncateTo (n : Size) (v : Word) : Word := assemble n (byteOf v)

/-- DISP byte a: byte a mod 4 of DISP[a / 4] (R65). -/
def State.dispByte (s : State) (a : Nat) : Byte := byteOf (s.readDisp (a / 4)) (a % 4)

/-- SRC bytes a, a+1, ... <- the low n bytes of v, in address order (R65, R76). -/
def State.writeSrcValue (s : State) (a : Nat) (n : Size) (v : Word) : State :=
  (List.range n.bytes).foldl (fun t j => t.writeSrc (a + j) (byteOf v j)) s

end Sys2Proof.Machine
end

