-- ==== Sys2Proof/Machine/Flags.lean ====
section
/-! DEFINITION. The status and control registers as words (10_state.md R26, R35, R36) and the flag computations: the code of an
error (60_exceptions.md R200), the saturating cumulate counter (R35), and the fields a host write reaches. -/

namespace Sys2Proof.Machine

/-- The 4-bit code of a result (R200). -/
def ErrCode.code : ErrCode → BitVec 4
  | .ok => 0#4
  | .invalidBufferLength => 1#4
  | .indexOutOfRange => 2#4
  | .decodeFailure => 3#4
  | .noImage => 4#4
  | .noHistogram => 5#4
  | .illegalCommand => 6#4
  | .invalidDimensions => 7#4
  | .capacityExceeded => 8#4
  | .countOverflow => 9#4

/-- STATUS: reserved [31:12], ERR [11:8], reserved [7:5], LOST, EMPTY, HIST_VALID, IMG_VALID, BUSY (R26). -/
def State.statusWord (s : State) : Word :=
  0#20 ++ s.err.code ++ 0#3 ++ BitVec.ofBool s.lost ++ BitVec.ofBool s.empty ++ BitVec.ofBool s.histValid ++
    BitVec.ofBool s.imgValid ++ BitVec.ofBool s.busy

/-- What a read of STATUS returns while BUSY = 1, from a free value: BUSY = 1, the other bits free (R26, R241; log 9). -/
def busyStatus (free : Word) : Word := free ||| 1#32

/-- HSTAT: reserved [31:6], CUMCNT_B, CUMCNT_G, CUMCNT_R (R35). -/
def State.hstatWord (s : State) : Word := 0#26 ++ s.cumCnt.b ++ s.cumCnt.g ++ s.cumCnt.r

/-- DEC_CTRL: CODE [31:8], reserved [7:1], FAIL [0] (R36). -/
def DecPort.ctrlWord (d : DecPort) : Word := d.code ++ 0#7 ++ BitVec.ofBool d.fail

/-- DEC_LAYOUT: reserved [31:1], LAYOUT [0] (R36). -/
def DecPort.layoutWord (d : DecPort) : Word :=
  match d.layout with
  | .rgb => 0#32
  | .rgba => 1#32

/-- min(3, n + 1), the saturating count of cumulates (R35, R179). -/
def saturatingSucc (n : BitVec 2) : BitVec 2 := BitVec.ofNat 2 (min 3 (n.toNat + 1))

/-- A host write to DEC_CTRL keeps FAIL and CODE and ignores the reserved bits (R36). -/
def DecPort.setCtrl (d : DecPort) (v : Word) : DecPort :=
  { d with fail := v.getLsbD 0, code := v.extractLsb' 8 24 }

/-- A host write to DEC_LAYOUT keeps bit 0 (R36). -/
def DecPort.setLayout (d : DecPort) (v : Word) : DecPort :=
  { d with layout := if v.getLsbD 0 then .rgba else .rgb }

/-- A host write to STATUS changes only LOST: a 1 in bit 4 clears it (R26, R31). -/
def State.writeStatus (s : State) (v : Word) : State := { s with lost := s.lost && !v.getLsbD 4 }

/-- STATUS.LOST <- 1: a host write was dropped because BUSY = 1 (R31, R207). -/
def State.drop (s : State) : State := { s with lost := true }

end Sys2Proof.Machine
end

