-- ==== Sys2Proof/Machine/Bus.lean ====
section
/-! DEFINITION. The host bus (20_memory.md R60 to R67): which accesses are refused, what a served read returns, what a served
write does, and what happens to an access made while a command is in flight (70_reset_and_hazards.md R241). -/

namespace Sys2Proof.Machine

/-- The registers of the REG space (R24). -/
inductive RegName where
  | cmd
  | status
  | errInfo
  | imgW
  | imgH
  | hstat
  | x (i : Reg)
  | decCtrl
  | decLayout
  | decW
  | decH
  | decLen
deriving DecidableEq, Repr

/-- The register at a byte offset of REG; none at a reserved offset or inside a word (R24). -/
def regAt (off : Nat) : Option RegName :=
  match off with
  | 0x00 => some .cmd
  | 0x04 => some .status
  | 0x08 => some .errInfo
  | 0x0C => some .imgW
  | 0x10 => some .imgH
  | 0x14 => some .hstat
  | 0x20 => some (.x 0)
  | 0x24 => some (.x 1)
  | 0x28 => some (.x 2)
  | 0x2C => some (.x 3)
  | 0x30 => some (.x 4)
  | 0x34 => some (.x 5)
  | 0x38 => some (.x 6)
  | 0x3C => some (.x 7)
  | 0x40 => some .decCtrl
  | 0x44 => some .decLayout
  | 0x48 => some .decW
  | 0x4C => some .decH
  | 0x50 => some .decLen
  | _ => none

/-- The size of a space in bytes, for MAX_PIXELS = m (R61). -/
def Space.bytes (m : Nat) : Space → Nat
  | .reg => 256
  | .src => 4 * m
  | .disp => 4 * m

/-- The platform's physical address of a byte of a space; the bases are open parameters (R68, P2; log 13). -/
def Space.physical (sp : Space) (a : Nat) : Nat :=
  match sp with
  | .reg => Config.regBase + a
  | .src => Config.srcBase + a
  | .disp => Config.dispBase + a

/-- Is the direction a write? -/
def Direction.isWrite : Direction → Bool
  | .read => false
  | .write _ => true

/-- Does the bus refuse the access with the bus-error response? The five cases of R63, in its order. -/
def Access.refused (m : Nat) (a : Access) : Bool :=
  decide (a.space.bytes m < a.addr + a.size.bytes)
    || decide (a.space = .reg ∧ regAt a.addr = none)
    || decide (a.space = .reg ∧ a.size ≠ .four)
    || decide (a.addr % a.size.bytes ≠ 0)
    || (decide (a.space = .disp) && a.dir.isWrite)

/-! ### Reads -/

/-- A read of a register while no command is in flight (R24): CMD reads 0 (R25). -/
def State.readHostReg (s : State) : RegName → Word
  | .cmd => 0#32
  | .status => s.statusWord
  | .errInfo => s.errInfo
  | .imgW => s.imgW
  | .imgH => s.imgH
  | .hstat => s.hstatWord
  | .x i => s.readReg i
  | .decCtrl => s.dec.ctrlWord
  | .decLayout => s.dec.layoutWord
  | .decW => s.dec.w
  | .decH => s.dec.h
  | .decLen => s.dec.len

/-- MemRead(space, a, n) of a served access while no command is in flight (R62, R65). -/
def State.memRead (s : State) (sp : Space) (addr : Nat) (n : Size) : Word :=
  match sp with
  | .reg =>
    match regAt addr with
    | some r => s.readHostReg r
    | none => 0#32
  | .src => assemble n (fun j => s.readSrc (addr + j))
  | .disp => assemble n (fun j => s.dispByte (addr + j))

/-- Is the access one of STATUS, which is served even while BUSY = 1 (R26)? -/
def Access.isStatus (a : Access) : Bool := decide (a.space = .reg ∧ regAt a.addr = some .status)

/-- A read while a command is in flight: STATUS reads BUSY = 1 and is free otherwise, everything else is free (R26, R241; log 9).
It is the free value number `draws`. -/
def State.busyValue (s : State) (a : Access) : Word :=
  let free := Config.busyRead s.draws
  if a.isStatus then busyStatus free else truncateTo a.size free

/-! ### Writes -/

/-- A write of a register while no command is in flight (R24): CMD starts the word (R25); a read-only register keeps its value
(log 10). -/
def State.writeHostReg (s : State) (r : RegName) (v : Word) : State :=
  match r with
  | .cmd => { s with inflight := some v }
  | .status => s.writeStatus v
  | .errInfo => s
  | .imgW => s
  | .imgH => s
  | .hstat => s
  | .x i => s.setReg i v
  | .decCtrl => { s with dec := s.dec.setCtrl v }
  | .decLayout => { s with dec := s.dec.setLayout v }
  | .decW => { s with dec := { s.dec with w := v } }
  | .decH => { s with dec := { s.dec with h := v } }
  | .decLen => { s with dec := { s.dec with len := v } }

/-- MemWrite(space, a, n, v) of a served access while no command is in flight (R62, R65). DISP is never written so (R61). -/
def State.memWrite (s : State) (sp : Space) (addr : Nat) (n : Size) (v : Word) : State :=
  match sp with
  | .reg =>
    match regAt addr with
    | some r => s.writeHostReg r v
    | none => s
  | .src => s.writeSrcValue addr n v
  | .disp => s

/-- A write that is not refused while a command is in flight: STATUS is served, anything else is dropped and sets LOST
(R25, R26, R31, R241, U7; log 11). -/
def State.busyWrite (s : State) (a : Access) (v : Word) : State :=
  if a.isStatus then s.writeStatus v else s.drop

/-! ### Serving an access -/

/-- The answer is recorded. -/
def State.answer (s : State) (a : Access) (r : Reply) : State := { s with responses := ⟨a, r⟩ :: s.responses }

/-- The bus serves one access (R60, R64): refused accesses, and all while reset is asserted, get the bus-error response and
change nothing (R63, R230). -/
def State.serve (s : State) (a : Access) : State :=
  if s.inReset || a.refused s.maxPixels then s.answer a .busError
  else
    match a.dir, s.busy with
    | .read, false => s.answer a (.data (s.memRead a.space a.addr a.size))
    | .read, true => { s with draws := s.draws + 1 }.answer a (.data (s.busyValue a))
    | .write v, false => (s.memWrite a.space a.addr a.size v).answer a .done
    | .write v, true => (s.busyWrite a v).answer a .done

end Sys2Proof.Machine
end

