-- ==== Sys2Proof/Decode.lean ====
section
/-! DEFINITION. The command word: its fields (30_encoding.md R81), the formats' masks (R82), the opcode map (R84), the decoder
(R85, R86), total on every 32-bit word and refusing by name, and the encoder, written from the same tables. -/

namespace Sys2Proof

/-- Why a word is illegal: the three cases of R86. -/
inductive Illegal where
  /-- (a) a reserved opcode. -/
  | reservedOpcode
  /-- (b) a 1 in a should-be-zero bit of the selected format. -/
  | sbzBit
  /-- (c) ch = 3 in HCOUNT, HLOW, HHIGH or HCUM. -/
  | reservedChannel
deriving DecidableEq, Repr

/-! ### The tables -/

/-- The format of each command (R84). -/
def Mnemonic.format : Mnemonic → Format
  | .enc8 | .encw => .enc
  | .dec8 | .decw | .decd => .dec
  | .todisp => .un
  | .load => .load
  | .loadx | .exportDisp | .gray | .inv | .hbuild => .none
  | .thr => .imm
  | .getpix => .gp
  | .dims => .d2
  | .hcount => .hc
  | .hlow | .hhigh => .hl
  | .hcum => .ch

/-- The mask of each format: the opcode together with every SBZ bit (R82). -/
def Format.mask : Format → Word
  | .enc => 0xFC0007FF#32
  | .dec => 0xFD8FFFFF#32
  | .un => 0xFC0FFFFF#32
  | .load => 0xFF803FFE#32
  | .none => 0xFFFFFFFF#32
  | .imm => 0xFFFFFF00#32
  | .gp => 0xFC01FFFF#32
  | .d2 => 0xFC0FFFFF#32
  | .hc => 0xFC0FFCFF#32
  | .hl => 0xFC0FFCFF#32
  | .ch => 0xFFFFFCFF#32

/-- The opcode of each command (R84). -/
def Mnemonic.opcode : Mnemonic → BitVec 6
  | .enc8 => 0x01#6
  | .encw => 0x02#6
  | .dec8 => 0x03#6
  | .decw => 0x04#6
  | .todisp => 0x05#6
  | .decd => 0x06#6
  | .load => 0x08#6
  | .loadx => 0x09#6
  | .getpix => 0x0A#6
  | .dims => 0x0B#6
  | .exportDisp => 0x0C#6
  | .gray => 0x10#6
  | .inv => 0x11#6
  | .thr => 0x12#6
  | .hbuild => 0x18#6
  | .hcount => 0x19#6
  | .hlow => 0x1A#6
  | .hhigh => 0x1B#6
  | .hcum => 0x1C#6

/-- The match word of each command, as R84's table and opcode_table.json write it. -/
def Mnemonic.matchWord : Mnemonic → Word
  | .enc8 => 0x04000000#32
  | .encw => 0x08000000#32
  | .dec8 => 0x0C000000#32
  | .decw => 0x10000000#32
  | .todisp => 0x14000000#32
  | .decd => 0x18000000#32
  | .load => 0x20000000#32
  | .loadx => 0x24000000#32
  | .getpix => 0x28000000#32
  | .dims => 0x2C000000#32
  | .exportDisp => 0x30000000#32
  | .gray => 0x40000000#32
  | .inv => 0x44000000#32
  | .thr => 0x48000000#32
  | .hbuild => 0x60000000#32
  | .hcount => 0x64000000#32
  | .hlow => 0x68000000#32
  | .hhigh => 0x6C000000#32
  | .hcum => 0x70000000#32

/-- Does the command have a channel field, whose value 3 is illegal (R84, R86 (c))? -/
def Mnemonic.hasChannel : Mnemonic → Bool
  | .hcount | .hlow | .hhigh | .hcum => true
  | _ => false

/-- The command an opcode selects; none for the reserved opcodes (R84, R86 (a)). -/
def selectMnemonic (op : BitVec 6) : Option Mnemonic :=
  match op.toNat with
  | 0x01 => some .enc8
  | 0x02 => some .encw
  | 0x03 => some .dec8
  | 0x04 => some .decw
  | 0x05 => some .todisp
  | 0x06 => some .decd
  | 0x08 => some .load
  | 0x09 => some .loadx
  | 0x0A => some .getpix
  | 0x0B => some .dims
  | 0x0C => some .exportDisp
  | 0x10 => some .gray
  | 0x11 => some .inv
  | 0x12 => some .thr
  | 0x18 => some .hbuild
  | 0x19 => some .hcount
  | 0x1A => some .hlow
  | 0x1B => some .hhigh
  | 0x1C => some .hcum
  | _ => none

/-! ### The fields of a word (R81) -/

/-- op = w[31:26]. -/
def fieldOp (w : Word) : BitVec 6 := w.extractLsb' 26 6

/-- rd = w[25:23]. -/
def fieldRd (w : Word) : Reg := (w.extractLsb' 23 3).toFin

/-- rs1 (or rd2) = w[22:20]. -/
def fieldRs1 (w : Word) : Reg := (w.extractLsb' 20 3).toFin

/-- rs2 = w[19:17]. -/
def fieldRs2 (w : Word) : Reg := (w.extractLsb' 17 3).toFin

/-- rs3 = w[16:14]. -/
def fieldRs3 (w : Word) : Reg := (w.extractLsb' 14 3).toFin

/-- rs4 = w[13:11]. -/
def fieldRs4 (w : Word) : Reg := (w.extractLsb' 11 3).toFin

/-- q = w[25] of F-DEC (R82). -/
def fieldGroup (w : Word) : Group := if w.getLsbD 25 then .hi else .lo

/-- lay = w[0] of F-LOAD (R82, R83). -/
def fieldLayout (w : Word) : Layout := if w.getLsbD 0 then .rgba else .rgb

/-- ch = w[9:8]; 3 is reserved (R81, R160). -/
def fieldChannel (w : Word) : Option Channel :=
  match (w.extractLsb' 8 2).toNat with
  | 0 => some .r
  | 1 => some .g
  | 2 => some .b
  | _ => none

/-- imm8 = w[7:0]. -/
def fieldImm8 (w : Word) : Byte := w.extractLsb' 0 8

/-! ### The decoder (R85) -/

/-- A command with a channel operand: ch = 3 is illegal (R86 (c)). -/
def withChannel (w : Word) (mk : Channel → Instr) : Except Illegal Instr :=
  match fieldChannel w with
  | some c => .ok (mk c)
  | none => .error .reservedChannel

/-- The operands of command `m` in word `w` (R83). -/
def operandsOf (m : Mnemonic) (w : Word) : Except Illegal Instr :=
  match m with
  | .enc8 => .ok (.enc8 (fieldRd w) (fieldRs1 w) (fieldRs2 w) (fieldRs3 w) (fieldRs4 w))
  | .encw => .ok (.encw (fieldRd w) (fieldRs1 w) (fieldRs2 w) (fieldRs3 w) (fieldRs4 w))
  | .dec8 => .ok (.dec8 (fieldGroup w) (fieldRs1 w))
  | .decw => .ok (.decw (fieldGroup w) (fieldRs1 w))
  | .todisp => .ok (.todisp (fieldRd w) (fieldRs1 w))
  | .decd => .ok (.decd (fieldGroup w) (fieldRs1 w))
  | .load => .ok (.load (fieldRs1 w) (fieldRs2 w) (fieldRs3 w) (fieldLayout w))
  | .loadx => .ok .loadx
  | .getpix => .ok (.getpix (fieldRd w) (fieldRs1 w) (fieldRs2 w))
  | .dims => .ok (.dims (fieldRd w) (fieldRs1 w))
  | .exportDisp => .ok .exportDisp
  | .gray => .ok .gray
  | .inv => .ok .inv
  | .thr => .ok (.thr (fieldImm8 w))
  | .hbuild => .ok .hbuild
  | .hcount => withChannel w (.hcount (fieldRd w) (fieldRs1 w))
  | .hlow => withChannel w (.hlow (fieldRd w) (fieldRs1 w))
  | .hhigh => withChannel w (.hhigh (fieldRd w) (fieldRs1 w))
  | .hcum => withChannel w .hcum

/-- The decode procedure of R85: every word either selects exactly one command or is illegal, by one of R86's cases. -/
def decode (w : Word) : Except Illegal Instr :=
  match selectMnemonic (fieldOp w) with
  | none => .error .reservedOpcode
  | some m =>
    if w &&& m.format.mask &&& 0x03FFFFFF#32 ≠ 0#32 then .error .sbzBit
    else operandsOf m w

/-! ### The encoder -/

/-- A command word from its nine fields, most significant first (R81); z10 is always 0. -/
def wordOfFields (op : BitVec 6) (rd rs1 rs2 rs3 rs4 : BitVec 3) (ch : BitVec 2) (imm8 : BitVec 8) : Word :=
  op ++ rd ++ rs1 ++ rs2 ++ rs3 ++ rs4 ++ 0#1 ++ ch ++ imm8

/-- The bits of a register number. -/
def Reg.bits (r : Reg) : BitVec 3 := BitVec.ofFin r

/-- The ch field of a channel (R160). -/
def Channel.bits : Channel → BitVec 2
  | .r => 0#2
  | .g => 1#2
  | .b => 2#2

/-- The imm8 field that holds a layout: lay in bit 0 (R83). -/
def Layout.bits : Layout → BitVec 8
  | .rgb => 0#8
  | .rgba => 1#8

/-- The rd field that holds a group: q in its high bit, the two low bits zero (R82). -/
def Group.bits : Group → BitVec 3
  | .lo => 0#3
  | .hi => 4#3

/-- The word of a command (R82, R83, R84). -/
def encode (i : Instr) : Word :=
  let op := i.mnemonic.opcode
  match i with
  | .enc8 rd a b c d => wordOfFields op (Reg.bits rd) (Reg.bits a) (Reg.bits b) (Reg.bits c) (Reg.bits d) 0 0
  | .encw rd a b c d => wordOfFields op (Reg.bits rd) (Reg.bits a) (Reg.bits b) (Reg.bits c) (Reg.bits d) 0 0
  | .dec8 q a => wordOfFields op q.bits (Reg.bits a) 0 0 0 0 0
  | .decw q a => wordOfFields op q.bits (Reg.bits a) 0 0 0 0 0
  | .todisp rd a => wordOfFields op (Reg.bits rd) (Reg.bits a) 0 0 0 0 0
  | .decd q a => wordOfFields op q.bits (Reg.bits a) 0 0 0 0 0
  | .load a b c lay => wordOfFields op 0 (Reg.bits a) (Reg.bits b) (Reg.bits c) 0 0 lay.bits
  | .loadx => wordOfFields op 0 0 0 0 0 0 0
  | .getpix rd a b => wordOfFields op (Reg.bits rd) (Reg.bits a) (Reg.bits b) 0 0 0 0
  | .dims rd rd2 => wordOfFields op (Reg.bits rd) (Reg.bits rd2) 0 0 0 0 0
  | .exportDisp => wordOfFields op 0 0 0 0 0 0 0
  | .gray => wordOfFields op 0 0 0 0 0 0 0
  | .inv => wordOfFields op 0 0 0 0 0 0 0
  | .thr limit => wordOfFields op 0 0 0 0 0 0 limit
  | .hbuild => wordOfFields op 0 0 0 0 0 0 0
  | .hcount rd a c => wordOfFields op (Reg.bits rd) (Reg.bits a) 0 0 0 c.bits 0
  | .hlow rd rd2 c => wordOfFields op (Reg.bits rd) (Reg.bits rd2) 0 0 0 c.bits 0
  | .hhigh rd rd2 c => wordOfFields op (Reg.bits rd) (Reg.bits rd2) 0 0 0 c.bits 0
  | .hcum c => wordOfFields op 0 0 0 0 0 c.bits 0

/-! ### The host's question -/

/-- The command the decoder reads from an instruction whose bits, numbered as spec/opcode_table.json numbers them, are the low
`nbits` bits of `w`. Every command is one 32-bit word (R80): bits above 31 make it no command. -/
def decodeTableWord (nbits w : Nat) : Option Instr :=
  if w % 2 ^ nbits < 2 ^ 32 then (decode (BitVec.ofNat 32 (w % 2 ^ nbits))).toOption else none

end Sys2Proof
end

