-- ==== Sys2Proof/Machine/Codec.lean ====
section
/-! DEFINITION. The packed-pixel codec commands (40_codec.md R104 to R109). Each reads its sources before it writes, needs no
image and no histogram, and completes with OK whatever its inputs (R103). -/

namespace Sys2Proof.Machine

/-- ENC8 (R104): the low 8 bits of each source, packed R, G, B, A. -/
def execEnc8 (rd rs1 rs2 rs3 rs4 : Reg) (s : State) : Result :=
  .next (s.setReg rd (pack (s.narrow rs1) (s.narrow rs2) (s.narrow rs3) (s.narrow rs4))).complete

/-- ENCW (R105): the sources in WIDE_W bits, of which the low 8 are packed. -/
def execEncw (rd rs1 rs2 rs3 rs4 : Reg) (s : State) : Result :=
  .next (s.setReg rd
    (pack (wideLow (s.wide rs1)) (wideLow (s.wide rs2)) (wideLow (s.wide rs3)) (wideLow (s.wide rs4)))).complete

/-- DEC8 (R106): R, G, B, A of a storage-order word into the group. -/
def execDec8 (q : Group) (rs1 : Reg) (s : State) : Result :=
  let p := unpack (s.readReg rs1)
  .next (s.setGroup q (widen p.c0) (widen p.c1) (widen p.c2) (widen p.c3)).complete

/-- DECW (R107): the same through the wide variant. -/
def execDecw (q : Group) (rs1 : Reg) (s : State) : Result :=
  let p := unpack (s.readReg rs1)
  .next (s.setGroup q (widenWide p.c0) (widenWide p.c1) (widenWide p.c2) (widenWide p.c3)).complete

/-- TODISP (R108): storage order to display order. -/
def execTodisp (rd rs1 : Reg) (s : State) : Result :=
  .next (s.setReg rd (displayWord (s.readReg rs1))).complete

/-- DECD (R109): A, R, G, B of a display-order word into the group. -/
def execDecd (q : Group) (rs1 : Reg) (s : State) : Result :=
  let p := undisplay (s.readReg rs1)
  .next (s.setGroup q (widen p.c0) (widen p.c1) (widen p.c2) (widen p.c3)).complete

end Sys2Proof.Machine
end

