-- ==== Sys2Proof/Machine/Histogram.lean ====
section
/-! DEFINITION. The histogram accumulator (43_histogram.md R160 to R181). -/

namespace Sys2Proof.Machine

/-- HIST[c][i] <- HIST[c][i] + 1 (R163). -/
def bumpBin (h : Bins) (i : Byte) : Bins := h.setBin i.toNat (h.bin i.toNat + 1#32)

/-- One pixel counted in the three histograms (R163). -/
def countPixel (h : PerChannel Bins) (w : Word) : PerChannel Bins :=
  ⟨bumpBin h.r (channelOf .r w), bumpBin h.g (channelOf .g w), bumpBin h.b (channelOf .b w)⟩

/-- The histograms of the image, counted from zero, pixel by pixel (R163; R71: any order gives the same). -/
def State.buildHistograms (s : State) : PerChannel Bins :=
  (List.range s.numPixels).foldl (fun h k => countPixel h (s.readPix k)) ⟨zeroBins, zeroBins, zeroBins⟩

/-- scan(c, order) of R171: the count and the index of the first non-zero bin in the order, or (0, 0) and the mark of the
empty result (R176). -/
def scanBins (h : Bins) (order : List Nat) : Word × Word × Bool :=
  match order.find? (fun i => h.bin i ≠ 0#32) with
  | some i => (h.bin i, BitVec.ofNat 32 i, false)
  | none => (0#32, 0#32, true)

/-- 0, 1, ..., 255, the order of HLOW; HHIGH takes it backwards (R171). -/
def upward : List Nat := List.range 256

/-- The common part of HLOW and HHIGH (R174, R175): the count first, the intensity second, so that it stays when both
destinations are the same register (D24); then EMPTY. -/
def State.scanInto (s : State) (rd rd2 : Reg) (c : Channel) (order : List Nat) : State :=
  s.require s.histValid .noHistogram fun s =>
    let found := scanBins (s.hist.get c) order
    (((s.setReg rd found.1).setReg rd2 found.2.1).setEmpty found.2.2).complete

/-- One step of HCUM at bin i (R179): the exact sum of two bins, stored modulo 2^32; the first i whose sum needs more than 32
bits is kept. -/
def cumStep (p : Bins × Option Nat) (i : Nat) : Bins × Option Nat :=
  let t := (p.1.bin i).toNat + (p.1.bin (i - 1)).toNat
  (p.1.setBin i (BitVec.ofNat 32 t), if 2 ^ 32 ≤ t ∧ p.2 = none then some i else p.2)

/-- The steps of HCUM for i = 1, ..., n, in increasing order (R179). -/
def cumulateUpTo (h : Bins) : Nat → Bins × Option Nat
  | 0 => (h, none)
  | n + 1 => cumStep (cumulateUpTo h n) (n + 1)

/-- The whole prefix sum: i = 1, ..., 255. -/
def cumulate (h : Bins) : Bins × Option Nat := cumulateUpTo h 255

/-- HBUILD (R163). -/
def execHbuild (s : State) : Result :=
  .next (s.require s.imgValid .noImage fun s => (s.setBuilt s.buildHistograms).complete)

/-- HCOUNT (R170): an index above 255 is out of range. -/
def execHcount (rd rs1 : Reg) (ch : Channel) (s : State) : Result :=
  .next (s.require s.histValid .noHistogram fun s =>
    let i := s.readReg rs1
    if 255 < i.toNat then s.raise .indexOutOfRange i
    else (s.setReg rd (s.readBin ch i.toNat)).complete)

/-- HLOW (R174). -/
def execHlow (rd rd2 : Reg) (ch : Channel) (s : State) : Result := .next (s.scanInto rd rd2 ch upward)

/-- HHIGH (R175). -/
def execHhigh (rd rd2 : Reg) (ch : Channel) (s : State) : Result := .next (s.scanInto rd rd2 ch upward.reverse)

/-- HCUM (R179): the prefix sum and the cumulate count are kept also when an overflow is reported. -/
def execHcum (ch : Channel) (s : State) : Result :=
  .next (s.require s.histValid .noHistogram fun s =>
    let r := cumulate (s.hist.get ch)
    let t := s.setCumulated ch r.1 (saturatingSucc (s.cumCnt.get ch))
    match r.2 with
    | some i => t.report .countOverflow (BitVec.ofNat 32 i)
    | none => t.complete)

end Sys2Proof.Machine
end

