-- ==== Sys2Proof/Machine/Image.lean ====
section
/-! DEFINITION. The image buffer commands (41_image.md R122 to R128). -/

namespace Sys2Proof.Machine

/-- The load core of LOAD and LOADX (R122): four checks in this order, with exact products, all before the first write; then
N = w * h pixels from SRC, the dimensions and IMG_VALID. -/
def State.loadCore (s : State) (w h len : Word) (lay : Layout) : State :=
  let n := w.toNat * h.toNat
  let bpp := bytesPerPixel lay
  if w = 0#32 ∨ h = 0#32 then s.raise .invalidDimensions 0#32
  else if s.maxPixels < n then s.raise .capacityExceeded 0#32
  else if len.toNat % bpp ≠ 0 then s.raise .invalidBufferLength len
  else if len.toNat ≠ n * bpp then s.raise .invalidBufferLength len
  else ((s.fillPix n (s.pixelFromBytes lay)).setDims w h).complete

/-- LOAD (R124): width, height and length from registers. -/
def execLoad (rs1 rs2 rs3 : Reg) (lay : Layout) (s : State) : Result :=
  .next (s.loadCore (s.readReg rs1) (s.readReg rs2) (s.readReg rs3) lay)

/-- LOADX (R125): a decoder failure first, with its code unchanged; else the load of the decoder port's declaration. -/
def execLoadx (s : State) : Result :=
  .next (if s.dec.fail then s.raise .decodeFailure (s.dec.code.zeroExtend 32)
    else s.loadCore s.dec.w s.dec.h s.dec.len s.dec.layout)

/-- GETPIX (R126): x checked against the width, then y against the height; then PIX[y * IMG_W + x] (R129). -/
def execGetpix (rd rs1 rs2 : Reg) (s : State) : Result :=
  .next (s.require s.imgValid .noImage fun s =>
    let px := s.readReg rs1
    let py := s.readReg rs2
    if s.imgW.toNat ≤ px.toNat then s.raise .indexOutOfRange px
    else if s.imgH.toNat ≤ py.toNat then s.raise .indexOutOfRange py
    else (s.setReg rd (s.readPix (py.toNat * s.imgW.toNat + px.toNat))).complete)

/-- DIMS (R128): the width, then the height, which is left in the register when both are the same (D24). -/
def execDims (rd rd2 : Reg) (s : State) : Result :=
  .next (s.require s.imgValid .noImage fun s => ((s.setReg rd s.imgW).setReg rd2 s.imgH).complete)

/-- EXPORT (R127): the display-order word of every pixel of the image into DISP; the words from N on keep what they held. -/
def execExportDisp (s : State) : Result :=
  .next (s.require s.imgValid .noImage fun s =>
    (s.fillDisp s.numPixels (fun k => displayWord (s.readPix k))).complete)

end Sys2Proof.Machine
end

