-- ==== Sys2Proof/Machine/PointOps.lean ====
section
/-! DEFINITION. The point operations (42_point_ops.md R140 to R145): one per-pixel function applied to the whole image in
place. Each function unpacks with the wide decode, computes exactly in WIDE_W bits and repacks the low 8 bits of each channel;
alpha passes through (R141). -/

namespace Sys2Proof.Machine

/-- point_op(f) of R140: every pixel of the image rewritten, NO_IMAGE when there is none. -/
def State.pointOp (s : State) (f : Word → Word) : State :=
  s.require s.imgValid .noImage fun s => (s.fillPix s.numPixels (fun k => f (s.readPix k))).complete

/-- The wide decode of one channel (R107, R141). -/
def wideChannel (c : Byte) : BitVec Config.wideW := c.zeroExtend Config.wideW

/-- f_GRAY (R143): L = floor((r + g + b) / 3), the sum never truncated. -/
def grayPixel (w : Word) : Word :=
  let p := unpack w
  let l := wideLow ((wideChannel p.c0 + wideChannel p.c1 + wideChannel p.c2) / 3)
  pack l l l p.c3

/-- f_INV (R144): 255 - c in each colour channel. -/
def invPixel (w : Word) : Word :=
  let p := unpack w
  pack (wideLow (255 - wideChannel p.c0)) (wideLow (255 - wideChannel p.c1)) (wideLow (255 - wideChannel p.c2)) p.c3

/-- t(c) of R145: 255 when c > limit, unsigned and strictly greater, else 0. -/
def thresholdChannel (limit c : Byte) : Byte := if limit.toNat < c.toNat then 255#8 else 0#8

/-- f_THR (R145): each colour channel on its own. -/
def thrPixel (limit : Byte) (w : Word) : Word :=
  let p := unpack w
  pack (thresholdChannel limit p.c0) (thresholdChannel limit p.c1) (thresholdChannel limit p.c2) p.c3

/-- GRAY (R143). -/
def execGray (s : State) : Result := .next (s.pointOp grayPixel)

/-- INV (R144). -/
def execInv (s : State) : Result := .next (s.pointOp invPixel)

/-- THR (R145): the limit is the unsigned immediate (D23). -/
def execThr (imm8 : Byte) (s : State) : Result := .next (s.pointOp (thrPixel imm8))

end Sys2Proof.Machine
end

