-- ==== Sys2Proof/Machine/Dispatch.lean ====
section
/-! DEFINITION. Which meaning each command has: one arm per constructor of Instr. -/

namespace Sys2Proof.Machine

def exec (i : Instr) (s : State) : Host.Outcome State Fault Refusal :=
  match i with
  | .enc8 rd rs1 rs2 rs3 rs4 => Sys2Proof.Machine.execEnc8 rd rs1 rs2 rs3 rs4 s
  | .encw rd rs1 rs2 rs3 rs4 => Sys2Proof.Machine.execEncw rd rs1 rs2 rs3 rs4 s
  | .dec8 q rs1 => Sys2Proof.Machine.execDec8 q rs1 s
  | .decw q rs1 => Sys2Proof.Machine.execDecw q rs1 s
  | .todisp rd rs1 => Sys2Proof.Machine.execTodisp rd rs1 s
  | .decd q rs1 => Sys2Proof.Machine.execDecd q rs1 s
  | .load rs1 rs2 rs3 lay => Sys2Proof.Machine.execLoad rs1 rs2 rs3 lay s
  | .loadx => Sys2Proof.Machine.execLoadx s
  | .getpix rd rs1 rs2 => Sys2Proof.Machine.execGetpix rd rs1 rs2 s
  | .dims rd rd2 => Sys2Proof.Machine.execDims rd rd2 s
  | .exportDisp => Sys2Proof.Machine.execExportDisp s
  | .gray => Sys2Proof.Machine.execGray s
  | .inv => Sys2Proof.Machine.execInv s
  | .thr imm8 => Sys2Proof.Machine.execThr imm8 s
  | .hbuild => Sys2Proof.Machine.execHbuild s
  | .hcount rd rs1 ch => Sys2Proof.Machine.execHcount rd rs1 ch s
  | .hlow rd rd2 ch => Sys2Proof.Machine.execHlow rd rd2 ch s
  | .hhigh rd rd2 ch => Sys2Proof.Machine.execHhigh rd rd2 ch s
  | .hcum ch => Sys2Proof.Machine.execHcum ch s

end Sys2Proof.Machine
end

