-- ==== Sys2Proof/Machine/Engine.lean ====
section
/-! DEFINITION. The command engine (30_encoding.md R85): the command in flight is decoded and performed as one atomic step
(00_scope.md R16). -/

namespace Sys2Proof.Machine

/-- A command word taken to its end: the decoded command's meaning, or ILLEGAL_COMMAND (R85, R86). -/
def perform (w : Word) (s : State) : Result :=
  match decode w with
  | .ok i => exec i s
  | .error _ => .next (s.illegal w)

/-- The engine's turn: the command in flight takes effect; without one the engine is idle and keeps all state (R217). -/
def engineTurn (s : State) : Result :=
  match s.inflight with
  | some w => perform w s
  | none => .next s

end Sys2Proof.Machine
end

