-- ==== Sys2Proof/Machine/Step.lean ====
section
/-! DEFINITION. One step of the machine: the next event happens (log 1). The PXU fetches nothing (10_state.md R22): its next
command is the word in flight, which an accepted write of CMD puts there (R25). -/

namespace Sys2Proof.Machine

/-- One event at the PXU's boundary. -/
def happen (e : Event) (s : State) : Result :=
  match e with
  | .access a => .next (s.serve a)
  | .engine => engineTurn s
  | .assertReset => .next s.assertReset
  | .releaseReset => .next s.releaseReset

/-- One step: the oldest event happens; when nothing is pending at the boundary the engine has its turn, so a command in
flight completes (R27, R250; log 1). -/
def step (s : State) : Host.Outcome State Fault Refusal :=
  match s.events with
  | [] => engineTurn s
  | e :: es => happen e { s with events := es }

/-- `s` with the command word in flight, as an accepted CMD write leaves it, and the engine's turn next, so that the very next
step runs it (log 3). A command word is 32 bits: of the table's `nbits` bits of `w` they are the low 32. -/
def State.withFetchWord (s : State) (nbits w : Nat) : State :=
  { s with
    inflight := some (BitVec.ofNat 32 (w % 2 ^ nbits))
    inReset := false
    events := .engine :: s.events }

end Sys2Proof.Machine
end

