-- ==== Sys2Proof/WellFormed.lean ====
section
/-! DEFINITION. Which assembler lines stand for a command (30_encoding.md R88). A line is a mnemonic with operands as they
may be written: register numbers and immediates of any size, and names. `assemble` turns a line into the command it stands
for, or refuses it by name; a line is well-formed when it is not refused. Character text, spacing and line numbers are not
modelled (log 17). -/

namespace Sys2Proof

/-- The names an operand of R88 can be: the channels R, G, B and the layouts RGB, RGBA. -/
inductive OperandName where
  | R | G | B | RGB | RGBA
deriving DecidableEq, Repr

/-- One operand of an assembler line. -/
inductive AsmOperand where
  | reg (n : Nat)
  | imm (v : Int)
  | name (s : OperandName)
deriving DecidableEq, Repr

/-- An assembler line: one command (R88). -/
structure AsmLine where
  mnemonic : Mnemonic
  operands : List AsmOperand
deriving DecidableEq, Repr

/-- Why an assembler refuses a line (R88: it "must reject operand values that are not encodable"). -/
inductive AsmError where
  /-- The number or the kinds of the operands are not those of the mnemonic. -/
  | wrongOperands
  /-- A register other than x0..x7. -/
  | badRegister
  /-- A DEC group base other than x0 or x4. -/
  | badGroup
  /-- A THR immediate outside 0..255. -/
  | badImmediate
  /-- A channel other than R, G or B. -/
  | badChannel
  /-- A layout other than RGB or RGBA. -/
  | badLayout
deriving DecidableEq, Repr

/-- A register operand x0..x7 (or r0..r7). -/
def AsmOperand.toReg : AsmOperand → Except AsmError Reg
  | .reg n => if h : n < 8 then .ok ⟨n, h⟩ else .error .badRegister
  | _ => .error .wrongOperands

/-- A group base: x0 or x4. -/
def AsmOperand.toGroup : AsmOperand → Except AsmError Group
  | .reg n => if n = 0 then .ok .lo else if n = 4 then .ok .hi else .error .badGroup
  | _ => .error .wrongOperands

/-- A THR immediate: 0..255. -/
def AsmOperand.toImm8 : AsmOperand → Except AsmError Byte
  | .imm v => if 0 ≤ v ∧ v ≤ 255 then .ok (BitVec.ofInt 8 v) else .error .badImmediate
  | _ => .error .wrongOperands

/-- A channel: R, G or B. -/
def AsmOperand.toChannel : AsmOperand → Except AsmError Channel
  | .name .R => .ok .r
  | .name .G => .ok .g
  | .name .B => .ok .b
  | .name _ => .error .badChannel
  | _ => .error .wrongOperands

/-- A layout: RGB or RGBA. -/
def AsmOperand.toLayout : AsmOperand → Except AsmError Layout
  | .name .RGB => .ok .rgb
  | .name .RGBA => .ok .rgba
  | .name _ => .error .badLayout
  | _ => .error .wrongOperands

/-- The command an assembler line stands for, with the operand order of R88, or why the line is refused. -/
def AsmLine.assemble (l : AsmLine) : Except AsmError Instr :=
  match l.mnemonic, l.operands with
  | .enc8, [d, a, b, c, e] => return .enc8 (← d.toReg) (← a.toReg) (← b.toReg) (← c.toReg) (← e.toReg)
  | .encw, [d, a, b, c, e] => return .encw (← d.toReg) (← a.toReg) (← b.toReg) (← c.toReg) (← e.toReg)
  | .dec8, [q, a] => return .dec8 (← q.toGroup) (← a.toReg)
  | .decw, [q, a] => return .decw (← q.toGroup) (← a.toReg)
  | .decd, [q, a] => return .decd (← q.toGroup) (← a.toReg)
  | .todisp, [d, a] => return .todisp (← d.toReg) (← a.toReg)
  | .load, [w, h, n, lay] => return .load (← w.toReg) (← h.toReg) (← n.toReg) (← lay.toLayout)
  | .loadx, [] => return .loadx
  | .getpix, [d, a, b] => return .getpix (← d.toReg) (← a.toReg) (← b.toReg)
  | .dims, [d, e] => return .dims (← d.toReg) (← e.toReg)
  | .exportDisp, [] => return .exportDisp
  | .gray, [] => return .gray
  | .inv, [] => return .inv
  | .thr, [v] => return .thr (← v.toImm8)
  | .hbuild, [] => return .hbuild
  | .hcount, [d, a, c] => return .hcount (← d.toReg) (← a.toReg) (← c.toChannel)
  | .hlow, [d, e, c] => return .hlow (← d.toReg) (← e.toReg) (← c.toChannel)
  | .hhigh, [d, e, c] => return .hhigh (← d.toReg) (← e.toReg) (← c.toChannel)
  | .hcum, [c] => return .hcum (← c.toChannel)
  | _, _ => .error .wrongOperands

/-- A line an assembler accepts (R88). -/
def AsmLine.wellFormed (l : AsmLine) : Bool := l.assemble.toOption.isSome

end Sys2Proof
end

