-- ==== Sys2Proof/Safety.lean ====
section
/-! DEFINITION. What counts as a sound state of the PXU, and the words in which the statements say what a command leaves
unchanged; and the assembler lines that R88 writes. -/

namespace Sys2Proof.Machine

/-! ### The invariant

Each part names the rule it holds by. A state that no run reaches can break any of them. -/

/-- MAX_PIXELS is a legal capacity (R6, R7). -/
def State.CapacityLegal (s : State) : Prop := 1 ≤ s.maxPixels ∧ s.maxPixels ≤ Config.maxCapacity

/-- The memories are in canonical form and hold only addresses that exist (R37, R38, R39, R61). -/
structure State.MemoriesLegal (s : State) : Prop where
  pix_wf : Memory.wf s.pix
  src_wf : Memory.wf s.src
  disp_wf : Memory.wf s.disp
  pix_range : ∀ c ∈ s.pix, c.1 < s.maxPixels
  src_range : ∀ c ∈ s.src, c.1 < 4 * s.maxPixels
  disp_range : ∀ c ∈ s.disp, c.1 < s.maxPixels

/-- The image invariants of R120; without an image the dimensions are 0 (R34). -/
structure State.ImageLegal (s : State) : Prop where
  width_pos : s.imgValid = true → 1 ≤ s.imgW.toNat
  height_pos : s.imgValid = true → 1 ≤ s.imgH.toNat
  fits : s.imgValid = true → s.numPixels ≤ s.maxPixels
  written : s.imgValid = true → ∀ k, k < s.numPixels → (Memory.lookup s.pix k).isSome = true
  absent : s.imgValid = false → s.imgW = 0#32 ∧ s.imgH = 0#32

/-- The sum of the 256 bins of a channel, exact (R162). -/
def State.binSum (s : State) (c : Channel) : Nat := ((List.range 256).map (fun i => (s.readBin c i).toNat)).sum

/-- A histogram that exists is never all zero (R173), a channel not cumulated since HBUILD counts at most MAX_PIXELS pixels
(R162), before the first HBUILD the cumulate counts are 0 (R44), and EMPTY is never 1 (R30, R173). -/
structure State.HistLegal (s : State) : Prop where
  nonzero : s.histValid = true → ∀ c, ∃ i, i < 256 ∧ s.readBin c i ≠ 0#32
  counted : s.histValid = true → ∀ c, s.cumCnt.get c = 0#2 → s.binSum c ≤ s.maxPixels
  unbuilt : s.histValid = false → ∀ c, s.cumCnt.get c = 0#2
  never_empty : s.empty = false

/-- ERRINFO is 0 after a success and a bin index 1..255 after an overflow (R201); in reset no command is in flight (R231). -/
structure State.ResultLegal (s : State) : Prop where
  ok_info : s.err = .ok → s.errInfo = 0#32
  overflow_info : s.err = .countOverflow → 1 ≤ s.errInfo.toNat ∧ s.errInfo.toNat ≤ 255
  reset_idle : s.inReset = true → s.inflight = none

/-- The invariant of the machine: every step keeps it. -/
structure State.Inv (s : State) : Prop where
  capacity : s.CapacityLegal
  memories : s.MemoriesLegal
  image : s.ImageLegal
  hist : s.HistLegal
  result : s.ResultLegal

/-! ### Results -/

/-- The command completed with OK (R203): ERR = 0, ERRINFO = 0, BUSY = 0. -/
def State.Completed (t : State) : Prop := t.err = .ok ∧ t.errInfo = 0#32 ∧ t.inflight = none

/-- `s` after an error, and nothing else changed (R203): ERR, ERRINFO and BUSY are written. -/
def State.afterError (s : State) (e : ErrCode) (info : Word) : State :=
  { s with err := e, errInfo := info, inflight := none }

/-- `k` steps, as long as each gives a next state. -/
def stepN : Nat → State → Result
  | 0, s => .next s
  | k + 1, s =>
    match step s with
    | .next t => stepN k t
    | .fault f => .fault f
    | .refused r => .refused r

/-! ### Frames -/

/-- The image's dimensions and validity are in `t` as in `s`. -/
def State.SameImage (s t : State) : Prop := t.imgValid = s.imgValid ∧ t.imgW = s.imgW ∧ t.imgH = s.imgH

/-- The histograms, their validity and their cumulate counts are in `t` as in `s`. -/
def State.SameHist (s t : State) : Prop := t.histValid = s.histValid ∧ t.hist = s.hist ∧ t.cumCnt = s.cumCnt

/-- The decoder port, LOST and the model's own fields are in `t` as in `s`: no command writes them (R31, R36). -/
def State.SameRest (s t : State) : Prop :=
  t.dec = s.dec ∧ t.lost = s.lost ∧ t.inReset = s.inReset ∧ t.maxPixels = s.maxPixels ∧ t.events = s.events ∧
  t.responses = s.responses ∧ t.epoch = s.epoch ∧ t.draws = s.draws

/-- Every general register outside `ds` reads in `t` as in `s`. -/
def State.SameRegsBut (s t : State) (ds : List Reg) : Prop := ∀ r, r ∉ ds → t.readReg r = s.readReg r

/-- Every word of PIX and DISP and every byte of SRC reads in `t` as in `s`. -/
def State.SameMemory (s t : State) : Prop :=
  ∀ a, t.readPix a = s.readPix a ∧ t.readSrc a = s.readSrc a ∧ t.readDisp a = s.readDisp a

/-- The whole frame of a command that writes only the registers `ds` and its result (ERR, ERRINFO, BUSY). -/
def State.OnlyRegs (s t : State) (ds : List Reg) : Prop :=
  s.SameRegsBut t ds ∧ s.SameMemory t ∧ s.SameImage t ∧ s.SameHist t ∧ t.empty = s.empty ∧ s.SameRest t

/-- The whole frame of a point operation: PIX below `n` and the result may change, nothing else (R140). -/
def State.OnlyPix (s t : State) (n : Nat) : Prop :=
  s.SameRegsBut t [] ∧ (∀ k, n ≤ k → t.readPix k = s.readPix k) ∧
  (∀ a, t.readSrc a = s.readSrc a ∧ t.readDisp a = s.readDisp a) ∧
  s.SameImage t ∧ s.SameHist t ∧ t.empty = s.empty ∧ s.SameRest t

/-- The whole frame of a load: PIX below `n`, the image's dimensions and validity and the result may change, nothing else
(R122). -/
def State.OnlyPixAndDims (s t : State) (n : Nat) : Prop :=
  s.SameRegsBut t [] ∧ (∀ k, n ≤ k → t.readPix k = s.readPix k) ∧
  (∀ a, t.readSrc a = s.readSrc a ∧ t.readDisp a = s.readDisp a) ∧
  s.SameHist t ∧ t.empty = s.empty ∧ s.SameRest t

/-- The whole frame of EXPORT: DISP below `n` and the result may change, nothing else (R127). -/
def State.OnlyDisp (s t : State) (n : Nat) : Prop :=
  s.SameRegsBut t [] ∧ (∀ k, n ≤ k → t.readDisp k = s.readDisp k) ∧
  (∀ a, t.readSrc a = s.readSrc a ∧ t.readPix a = s.readPix a) ∧
  s.SameImage t ∧ s.SameHist t ∧ t.empty = s.empty ∧ s.SameRest t

/-- The whole frame of HBUILD and HCUM: the histograms, their validity and counts and the result may change, nothing else. -/
def State.OnlyHist (s t : State) : Prop :=
  s.SameRegsBut t [] ∧ s.SameMemory t ∧ s.SameImage t ∧ t.empty = s.empty ∧ s.SameRest t

/-- The whole frame of HLOW and HHIGH: the registers `ds`, EMPTY and the result may change, nothing else. -/
def State.OnlyRegsAndEmpty (s t : State) (ds : List Reg) : Prop :=
  s.SameRegsBut t ds ∧ s.SameMemory t ∧ s.SameImage t ∧ s.SameHist t ∧ s.SameRest t

/-! ### The spec's own arithmetic, on natural numbers -/

/-- The red, green, blue and alpha value of a storage-order word (R100). -/
def redOf (w : Word) : Nat := w.toNat / 2 ^ 24
def greenOf (w : Word) : Nat := w.toNat / 2 ^ 16 % 256
def blueOf (w : Word) : Nat := w.toNat / 2 ^ 8 % 256
def alphaOf (w : Word) : Nat := w.toNat % 256

/-- The storage-order word of four values below 256, as a number (R100). -/
def storageNat (r g b a : Nat) : Nat := r * 2 ^ 24 + g * 2 ^ 16 + b * 2 ^ 8 + a

/-- The value histogram `c` counts in a storage-order word (R160). -/
def colourOf (c : Channel) (w : Word) : Nat :=
  match c with
  | .r => redOf w
  | .g => greenOf w
  | .b => blueOf w

/-- How many of the image's pixels have value `i` in channel `c`. -/
def State.pixelsWith (s : State) (c : Channel) (i : Nat) : Nat :=
  ((List.range s.numPixels).filter (fun k => colourOf c (s.readPix k) = i)).length

/-- The exact sum of bins 0, ..., i of a channel (R172). -/
def State.prefixSum (s : State) (c : Channel) (i : Nat) : Nat :=
  ((List.range (i + 1)).map (fun j => (s.readBin c j).toNat)).sum

/-- The sum of (i - j + 1) * bin j over j = 0, ..., i (R180). -/
def State.doubleSum (s : State) (c : Channel) (i : Nat) : Nat :=
  ((List.range (i + 1)).map (fun j => (i - j + 1) * (s.readBin c j).toNat)).sum

/-- The exact sum HCUM forms at bin i: the old bin i and the new bin i - 1, which is the prefix sum modulo 2^32 (R179). -/
def State.cumSum (s : State) (c : Channel) (i : Nat) : Nat :=
  (s.readBin c i).toNat + s.prefixSum c (i - 1) % 2 ^ 32

/-- What a successful load of `w` by `h` pixels leaves (R121, R122): the pixels from the source bytes in their order, the
dimensions, IMG_VALID, and the frame. -/
def State.Loaded (s t : State) (w h : Word) (lay : Layout) : Prop :=
  t.Completed ∧ t.imgValid = true ∧ t.imgW = w ∧ t.imgH = h ∧
  (∀ k, k < w.toNat * h.toNat → (t.readPix k).toNat =
    match lay with
    | .rgb => storageNat (s.readSrc (3 * k)).toNat (s.readSrc (3 * k + 1)).toNat (s.readSrc (3 * k + 2)).toNat 255
    | .rgba => storageNat (s.readSrc (4 * k)).toNat (s.readSrc (4 * k + 1)).toNat (s.readSrc (4 * k + 2)).toNat
        (s.readSrc (4 * k + 3)).toNat) ∧
  s.OnlyPixAndDims t (w.toNat * h.toNat)

/-- A read of STATUS, and a write of a word to CMD. -/
def statusPoll (ag : Agent) : Access := ⟨ag, .reg, 0x04, .four, .read⟩
def cmdWrite (ag : Agent) (w : Word) : Access := ⟨ag, .reg, 0x00, .four, .write w⟩

/-- An access that gets the bus-error response, written out from R63, R24 and R61 for MAX_PIXELS = m. -/
def Access.MustRefuse (m : Nat) (a : Access) : Prop :=
  (a.space = .reg ∧ (a.size ≠ .four ∨ a.addr = 0x18 ∨ a.addr = 0x1C ∨ 0x54 ≤ a.addr)) ∨
  (a.space ≠ .reg ∧ 4 * m < a.addr + a.size.bytes) ∨
  a.addr % a.size.bytes ≠ 0 ∨
  (a.space = .disp ∧ ∃ v, a.dir = .write v)

/-- The control and status registers and the memories as R44 gives them after reset: no command, no image, no histogram, every
register 0, nothing written in any memory. -/
def State.ControlReset (t : State) : Prop :=
  t.inflight = none ∧ t.imgValid = false ∧ t.histValid = false ∧ t.empty = false ∧ t.lost = false ∧
  t.err = .ok ∧ t.errInfo = 0#32 ∧ t.imgW = 0#32 ∧ t.imgH = 0#32 ∧ t.cumCnt = ⟨0#2, 0#2, 0#2⟩ ∧
  t.dec = ⟨false, 0#24, .rgb, 0#32, 0#32, 0#32⟩ ∧ t.pix = [] ∧ t.src = [] ∧ t.disp = []

/-- `m` is the command's row of the opcode table: its word matches the row's mask and decodes to it (R82, R84, R85). -/
def EncodedAs (m : Mnemonic) (i : Instr) : Prop :=
  i.mnemonic = m ∧ encode i &&& m.format.mask = m.matchWord ∧ decode (encode i) = .ok i

end Sys2Proof.Machine

namespace Sys2Proof

/-! ### The lines of R88 -/

/-- What an operand of an assembler line stands for. -/
inductive OperandKind where
  | reg
  | group
  | imm8
  | channel
  | layout
deriving DecidableEq, Repr

/-- An operand of a kind that a command word can hold (R88). -/
def OperandKind.Encodable : OperandKind → AsmOperand → Prop
  | .reg, o => ∃ n, n < 8 ∧ o = .reg n
  | .group, o => o = .reg 0 ∨ o = .reg 4
  | .imm8, o => ∃ v, 0 ≤ v ∧ v ≤ 255 ∧ o = .imm v
  | .channel, o => o = .name .R ∨ o = .name .G ∨ o = .name .B
  | .layout, o => o = .name .RGB ∨ o = .name .RGBA

/-- As many operands as kinds, each encodable. -/
def EncodableOperands : List OperandKind → List AsmOperand → Prop
  | [], [] => True
  | k :: ks, o :: os => k.Encodable o ∧ EncodableOperands ks os
  | [], _ :: _ => False
  | _ :: _, [] => False

/-- The operands of each row of R88's table, in its order. -/
def Mnemonic.operandKinds : Mnemonic → List OperandKind
  | .enc8 => [.reg, .reg, .reg, .reg, .reg]
  | .encw => [.reg, .reg, .reg, .reg, .reg]
  | .dec8 => [.group, .reg]
  | .decw => [.group, .reg]
  | .todisp => [.reg, .reg]
  | .decd => [.group, .reg]
  | .load => [.reg, .reg, .reg, .layout]
  | .loadx => []
  | .getpix => [.reg, .reg, .reg]
  | .dims => [.reg, .reg]
  | .exportDisp => []
  | .gray => []
  | .inv => []
  | .thr => [.imm8]
  | .hbuild => []
  | .hcount => [.reg, .reg, .channel]
  | .hlow => [.reg, .reg, .channel]
  | .hhigh => [.reg, .reg, .channel]
  | .hcum => [.channel]

/-- An operand as R88 writes it. -/
def Reg.operand (r : Reg) : AsmOperand := .reg r.val

def Group.operand : Group → AsmOperand
  | .lo => .reg 0
  | .hi => .reg 4

def Channel.operand : Channel → AsmOperand
  | .r => .name .R
  | .g => .name .G
  | .b => .name .B

def Layout.operand : Layout → AsmOperand
  | .rgb => .name .RGB
  | .rgba => .name .RGBA

/-- The line R88 writes for a command. -/
def Instr.line : Instr → AsmLine
  | .enc8 rd rs1 rs2 rs3 rs4 => ⟨.enc8, [rd.operand, rs1.operand, rs2.operand, rs3.operand, rs4.operand]⟩
  | .encw rd rs1 rs2 rs3 rs4 => ⟨.encw, [rd.operand, rs1.operand, rs2.operand, rs3.operand, rs4.operand]⟩
  | .dec8 q rs1 => ⟨.dec8, [q.operand, rs1.operand]⟩
  | .decw q rs1 => ⟨.decw, [q.operand, rs1.operand]⟩
  | .todisp rd rs1 => ⟨.todisp, [rd.operand, rs1.operand]⟩
  | .decd q rs1 => ⟨.decd, [q.operand, rs1.operand]⟩
  | .load rs1 rs2 rs3 lay => ⟨.load, [rs1.operand, rs2.operand, rs3.operand, lay.operand]⟩
  | .loadx => ⟨.loadx, []⟩
  | .getpix rd rs1 rs2 => ⟨.getpix, [rd.operand, rs1.operand, rs2.operand]⟩
  | .dims rd rd2 => ⟨.dims, [rd.operand, rd2.operand]⟩
  | .exportDisp => ⟨.exportDisp, []⟩
  | .gray => ⟨.gray, []⟩
  | .inv => ⟨.inv, []⟩
  | .thr imm8 => ⟨.thr, [.imm imm8.toNat]⟩
  | .hbuild => ⟨.hbuild, []⟩
  | .hcount rd rs1 ch => ⟨.hcount, [rd.operand, rs1.operand, ch.operand]⟩
  | .hlow rd rd2 ch => ⟨.hlow, [rd.operand, rd2.operand, ch.operand]⟩
  | .hhigh rd rd2 ch => ⟨.hhigh, [rd.operand, rd2.operand, ch.operand]⟩
  | .hcum ch => ⟨.hcum, [ch.operand]⟩

end Sys2Proof
end

