-- ==== Sys2Proof/Certificates/Slice0/Obligations.lean ====
section
/-! DEFINITION. The statements about the PXU for the provers. Each docstring names the rules of spec/ it formalises. -/

open Sys2Proof Sys2Proof.Machine

/-! ### The command word (30_encoding.md) -/

/-- R81 to R85: no operand of any command is lost in its word. -/
def Obligations.DecodeOfEncodeIsTheCommand : Prop := ∀ i : Instr, decode (encode i) = .ok i

/-- R81 to R85: a legal word is the word of the command it decodes to, so no bit of it is ignored. -/
def Obligations.EncodeOfDecodeIsTheWord : Prop := ∀ (w : Word) (i : Instr), decode w = .ok i → encode i = w

/-- R84: the table's rows, each with its mask and match word; a word selects a command exactly when it matches the row under the
mask and, in a command with a channel, ch is not 3. -/
def Obligations.MaskAndMatchSelectTheCommand : Prop :=
  let table : List (Mnemonic × Word × Word) :=
    [(.enc8, 0xFC0007FF#32, 0x04000000#32), (.encw, 0xFC0007FF#32, 0x08000000#32), (.dec8, 0xFD8FFFFF#32, 0x0C000000#32),
      (.decw, 0xFD8FFFFF#32, 0x10000000#32), (.todisp, 0xFC0FFFFF#32, 0x14000000#32), (.decd, 0xFD8FFFFF#32, 0x18000000#32),
      (.load, 0xFF803FFE#32, 0x20000000#32), (.loadx, 0xFFFFFFFF#32, 0x24000000#32), (.getpix, 0xFC01FFFF#32, 0x28000000#32),
      (.dims, 0xFC0FFFFF#32, 0x2C000000#32), (.exportDisp, 0xFFFFFFFF#32, 0x30000000#32)] ++
    [(.gray, 0xFFFFFFFF#32, 0x40000000#32), (.inv, 0xFFFFFFFF#32, 0x44000000#32), (.thr, 0xFFFFFF00#32, 0x48000000#32),
      (.hbuild, 0xFFFFFFFF#32, 0x60000000#32), (.hcount, 0xFC0FFCFF#32, 0x64000000#32), (.hlow, 0xFC0FFCFF#32, 0x68000000#32),
      (.hhigh, 0xFC0FFCFF#32, 0x6C000000#32), (.hcum, 0xFFFFFCFF#32, 0x70000000#32)]
  (∀ m : Mnemonic, ∃ row ∈ table, row.1 = m) ∧
  ∀ (w : Word), ∀ row ∈ table, (∃ i, decode w = .ok i ∧ i.mnemonic = row.1) ↔
    (w &&& row.2.1 = row.2.2 ∧ (row.1 ∈ [.hcount, .hlow, .hhigh, .hcum] → w.extractLsb' 8 2 ≠ 3#2))

/-- R86: exactly the three kinds of word are illegal, and performing one reports ILLEGAL_COMMAND with the word and changes
nothing else. -/
def Obligations.IllegalWordsAreReported : Prop :=
  ∀ w : Word,
    ((∃ e, decode w = .error e) ↔
      ((w.toNat / 2 ^ 26 ∈ [0x00, 0x07, 0x0D, 0x0E, 0x0F, 0x13, 0x14, 0x15, 0x16, 0x17] ∨ 0x1D ≤ w.toNat / 2 ^ 26) ∨
        ∃ m : Mnemonic, m.opcode.toNat = w.toNat / 2 ^ 26 ∧
          (w &&& m.format.mask &&& 0x03FFFFFF#32 ≠ 0#32 ∨ (m.hasChannel = true ∧ w.extractLsb' 8 2 = 3#2)))) ∧
    ∀ s : State, (∃ e, decode w = .error e) → perform w s = .next (s.afterError .illegalCommand w)

/-- 95_test_vectors.md 2.1 and the examples of the command rules: words written out in the spec, and what they decode to. -/
def Obligations.SpecWordsDecode : Prop :=
  (∀ p ∈ [(0x06029800#32, Instr.enc8 4 0 1 2 3), (0x0B829800#32, .encw 7 0 1 2 3), (0x0E400000#32, .dec8 .hi 4),
      (0x10700000#32, .decw .lo 7), (0x16C00000#32, .todisp 5 4), (0x18500000#32, .decd .lo 5),
      (0x20028001#32, .load 0 1 2 .rgba), (0x2AB80000#32, .getpix 5 3 4), (0x2F700000#32, .dims 6 7),
      (0x48000064#32, .thr 100), (0x64800200#32, .hcount 1 0 .b), (0x69300100#32, .hlow 2 3 .g),
      (0x6D300000#32, .hhigh 2 3 .r), (0x70000200#32, .hcum .b)], decode p.1 = .ok p.2) ∧
  [0x00000000#32, 0x1C000000#32, 0x4C000000#32, 0xFFFFFFFF#32].map decode = List.replicate 4 (.error .reservedOpcode) ∧
  [0x04000400#32, 0x0C800000#32, 0x20000002#32, 0x6C0F0100#32].map decode = List.replicate 4 (.error .sbzBit) ∧
  [0x64000300#32, 0x70000300#32].map decode = List.replicate 2 (.error .reservedChannel)

/-- R88: an assembler accepts exactly the lines whose operands are those of the mnemonic's row, each one encodable: a register
x0..x7, a group base x0 or x4, an immediate 0..255, a channel R, G or B, a layout RGB or RGBA. The line of every command stands
for that command, with the operands in R88's order. A line is a mnemonic with operands, not text (log 17). -/
def Obligations.AssemblerRefusesTheUnencodable : Prop :=
  (∀ (m : Mnemonic) (os : List AsmOperand), (AsmLine.mk m os).wellFormed = true ↔ EncodableOperands m.operandKinds os) ∧
  (∀ i : Instr, i.line.assemble = .ok i)

/-! ### The engine and the bus -/

/-- R16, R25, R85: when the engine has its turn, or nothing is pending at the boundary, a step is the meaning of the command
in flight; and a word placed for the next step runs so. That an empty list of events is the engine's turn, and how a word is
placed, are the model's choices of log 1 and log 3. -/
def Obligations.StepRunsTheDecodedCommand : Prop :=
  ∀ (s : State) (w : Word) (i : Instr) (es : List Event), decode w = .ok i →
    (s.inflight = some w → s.events = .engine :: es → step s = exec i { s with events := es }) ∧
    (s.inflight = some w → s.events = [] → step s = exec i s) ∧
    step (s.withFetchWord 32 w.toNat) = exec i { s with inflight := some w, inReset := false }

/-- R217: without a command in flight the engine is idle and all state is kept. The list of events is the model's (log 1). -/
def Obligations.IdleEngineKeepsAllState : Prop :=
  ∀ (s : State) (es : List Event), s.inflight = none →
    (s.events = [] → step s = .next s) ∧ (s.events = .engine :: es → step s = .next { s with events := es })

/-- R25: a CMD write starts the word when BUSY = 0 and is dropped, with LOST set, when BUSY = 1; a read of CMD with BUSY = 0
returns 0 and has no effect. The answers are those of log 2 and log 22. -/
def Obligations.CmdWriteStartsOrIsDropped : Prop :=
  ∀ (s : State) (ag : Agent) (w : Word) (es : List Event), s.inReset = false →
    (s.inflight = none → s.events = .access (cmdWrite ag w) :: es →
      step s = .next { s with
        inflight := some w
        events := es
        responses := ⟨cmdWrite ag w, .done⟩ :: s.responses }) ∧
    (∀ v, s.inflight = some v → s.events = .access (cmdWrite ag w) :: es →
      step s = .next { s with
        lost := true
        events := es
        responses := ⟨cmdWrite ag w, .done⟩ :: s.responses }) ∧
    (s.inflight = none → s.events = .access ⟨ag, .reg, 0x00, .four, .read⟩ :: es →
      step s = .next { s with
        events := es
        responses := ⟨⟨ag, .reg, 0x00, .four, .read⟩, .data 0#32⟩ :: s.responses })

/-- R31, R207, R241: while BUSY = 1 a write that the bus does not refuse, other than to STATUS, is dropped: LOST is set and
nothing else changes. For a write to a read-only register this is the reading of log 11. The answer is that of log 22. -/
def Obligations.WritesWhileBusyAreDropped : Prop :=
  ∀ (s : State) (a : Access) (v w : Word) (es : List Event), s.inReset = false → s.inflight = some w →
    ¬ a.MustRefuse s.maxPixels → a.dir = .write v → ¬ (a.space = .reg ∧ a.addr = 0x04) → s.events = .access a :: es →
    step s = .next { s with lost := true, events := es, responses := ⟨a, .done⟩ :: s.responses }

/-- R26, R31: a host write to STATUS changes only LOST, which a 1 in bit 4 clears, and is served also while BUSY = 1. -/
def Obligations.StatusWriteChangesOnlyLost : Prop :=
  ∀ (s : State) (ag : Agent) (v : Word) (es : List Event), s.inReset = false →
    s.events = .access ⟨ag, .reg, 0x04, .four, .write v⟩ :: es →
    step s = .next { s with
      lost := if v.getLsbD 4 then false else s.lost
      events := es
      responses := ⟨⟨ag, .reg, 0x04, .four, .write v⟩, .done⟩ :: s.responses }

/-- R63: the accesses it lists get the bus-error response and change nothing, and outside reset (R230) no other access does.
That R63's list is complete, and that a dropped write is no bus error, are the readings of log 10 and log 22. -/
def Obligations.BusErrorsAreExactlyTheListedOnes : Prop :=
  ∀ (s : State) (a : Access) (es : List Event), s.events = .access a :: es →
    (a.MustRefuse s.maxPixels →
      step s = .next { s with events := es, responses := ⟨a, .busError⟩ :: s.responses }) ∧
    (s.inReset = false → ¬ a.MustRefuse s.maxPixels →
      ∃ t r, step s = .next t ∧ t.responses = ⟨a, r⟩ :: s.responses ∧ r ≠ .busError)

/-- R67: no host read has a side effect; only the answer is recorded, and a free value may be used up. (The free values are
those of log 9, counted as log 16 says.) -/
def Obligations.ReadsHaveNoSideEffect : Prop :=
  ∀ (s : State) (a : Access) (es : List Event), a.dir = .read → s.events = .access a :: es →
    ∃ r n, step s = .next { s with events := es, responses := ⟨a, r⟩ :: s.responses, draws := n }

/-- R26, R27, R200: a read of STATUS shows BUSY exactly when a command is in flight, and with BUSY = 0 every other field where R26
places it, ERR with the number R200 gives, and 0 in the reserved bits. While BUSY = 1 the other fields are free (log 9). -/
def Obligations.StatusReadShowsTheFields : Prop :=
  let codes : List (ErrCode × Nat) :=
    [(.ok, 0), (.invalidBufferLength, 1), (.indexOutOfRange, 2), (.decodeFailure, 3), (.noImage, 4), (.noHistogram, 5),
      (.illegalCommand, 6), (.invalidDimensions, 7), (.capacityExceeded, 8), (.countOverflow, 9)]
  ∀ (s : State) (ag : Agent) (es : List Event), s.inReset = false →
    s.events = .access (statusPoll ag) :: es →
    ∃ t v, step s = .next t ∧ t.responses = ⟨statusPoll ag, .data v⟩ :: s.responses ∧
      (v.getLsbD 0 = true ↔ s.inflight ≠ none) ∧
      (s.inflight = none →
        v.getLsbD 1 = s.imgValid ∧ v.getLsbD 2 = s.histValid ∧ v.getLsbD 3 = s.empty ∧ v.getLsbD 4 = s.lost ∧
        v.extractLsb' 5 3 = 0#3 ∧ (s.err, (v.extractLsb' 8 4).toNat) ∈ codes ∧ v.extractLsb' 12 20 = 0#20)

/-- R24, R33, R34, R35: with BUSY = 0 a read of ERRINFO, IMG_W or IMG_H returns that register and a read of HSTAT the cumulate
counts where R35 places them. A write to one of these read-only registers changes nothing and is answered as done: that is the
reading of log 10. -/
def Obligations.ReadOnlyRegistersReadTheirFields : Prop :=
  ∀ (s : State) (ag : Agent) (es : List Event), s.inReset = false → s.inflight = none →
    (∀ p ∈ [(0x08, s.errInfo), (0x0C, s.imgW), (0x10, s.imgH)], s.events = .access ⟨ag, .reg, p.1, .four, .read⟩ :: es →
      step s = .next { s with
        events := es
        responses := ⟨⟨ag, .reg, p.1, .four, .read⟩, .data p.2⟩ :: s.responses }) ∧
    (s.events = .access ⟨ag, .reg, 0x14, .four, .read⟩ :: es →
      ∃ v, step s = .next { s with
          events := es
          responses := ⟨⟨ag, .reg, 0x14, .four, .read⟩, .data v⟩ :: s.responses } ∧
        v.extractLsb' 0 2 = s.cumCnt.get .r ∧ v.extractLsb' 2 2 = s.cumCnt.get .g ∧ v.extractLsb' 4 2 = s.cumCnt.get .b ∧
        v.extractLsb' 6 26 = 0#26) ∧
    (∀ off ∈ [0x08, 0x0C, 0x10, 0x14], ∀ v : Word, s.events = .access ⟨ag, .reg, off, .four, .write v⟩ :: es →
      step s = .next { s with
        events := es
        responses := ⟨⟨ag, .reg, off, .four, .write v⟩, .done⟩ :: s.responses })

/-- R23, R24: with BUSY = 0 a host write of x[i] at offset 0x20 + 4*i stores the value, a read there returns it, and nothing
else changes. -/
def Obligations.RegisterWriteThenReadReturnsTheValue : Prop :=
  ∀ (s : State) (ag ag' : Agent) (i : Reg) (v : Word) (es : List Event), s.inReset = false → s.inflight = none →
    s.events = .access ⟨ag, .reg, 0x20 + 4 * i.val, .four, .write v⟩ ::
      .access ⟨ag', .reg, 0x20 + 4 * i.val, .four, .read⟩ :: es →
    ∃ t, stepN 2 s = .next t ∧ t.readReg i = v ∧ s.SameRegsBut t [i] ∧
      t = { s with
        x := t.x
        events := es
        responses := ⟨⟨ag', .reg, 0x20 + 4 * i.val, .four, .read⟩, .data v⟩ ::
          ⟨⟨ag, .reg, 0x20 + 4 * i.val, .four, .write v⟩, .done⟩ :: s.responses }

/-- R36, R43: with BUSY = 0 a host write to a decoder-port register stores the bits of its fields where R36 places them, the
reserved bits read 0, and nothing else changes, the other four registers of the port included. -/
def Obligations.DecoderPortKeepsItsFields : Prop :=
  ∀ (s : State) (ag ag' : Agent) (off : Nat) (mask v : Word) (port : DecPort) (es : List Event),
    s.inReset = false → s.inflight = none →
    (off, mask, port) ∈
      [(0x40, 0xFFFFFF01#32, { s.dec with fail := v.getLsbD 0, code := v.extractLsb' 8 24 }),
        (0x44, 0x00000001#32, { s.dec with layout := if v.getLsbD 0 = true then .rgba else .rgb }),
        (0x48, 0xFFFFFFFF#32, { s.dec with w := v }), (0x4C, 0xFFFFFFFF#32, { s.dec with h := v }),
        (0x50, 0xFFFFFFFF#32, { s.dec with len := v })] →
    s.events = .access ⟨ag, .reg, off, .four, .write v⟩ :: .access ⟨ag', .reg, off, .four, .read⟩ :: es →
    stepN 2 s = .next { s with
      dec := port
      events := es
      responses := ⟨⟨ag', .reg, off, .four, .read⟩, .data (v &&& mask)⟩ ::
        ⟨⟨ag, .reg, off, .four, .write v⟩, .done⟩ :: s.responses }

/-- R38, R65: with BUSY = 0 a served write of n bytes at SRC address a stores bits [8j+7:8j] of the value at a + j, every other
byte reads as before, and nothing else changes. -/
def Obligations.SrcWriteIsLittleEndian : Prop :=
  ∀ (s : State) (ag : Agent) (a : Nat) (n : Size) (v : Word) (es : List Event), s.inReset = false → s.inflight = none →
    a % n.bytes = 0 → a + n.bytes ≤ 4 * s.maxPixels → s.events = .access ⟨ag, .src, a, n, .write v⟩ :: es →
    ∃ t, step s = .next t ∧ (∀ j, j < n.bytes → t.readSrc (a + j) = v.extractLsb' (8 * j) 8) ∧
      (∀ b, b < a ∨ a + n.bytes ≤ b → t.readSrc b = s.readSrc b) ∧
      t = { s with
        src := t.src
        events := es
        responses := ⟨⟨ag, .src, a, n, .write v⟩, .done⟩ :: s.responses }

/-- R65: with BUSY = 0 a served read of n bytes of SRC returns them with the lowest address in bits [7:0]; a read of DISP
returns bytes of the word, counted the same way. -/
def Obligations.BusReadsAreLittleEndian : Prop :=
  ∀ (s : State) (ag : Agent) (a : Nat) (n : Size) (es : List Event), s.inReset = false → s.inflight = none →
    a % n.bytes = 0 → a + n.bytes ≤ 4 * s.maxPixels →
    (s.events = .access ⟨ag, .src, a, n, .read⟩ :: es →
      ∃ t v, step s = .next t ∧ t.responses = ⟨⟨ag, .src, a, n, .read⟩, .data v⟩ :: s.responses ∧
        v.toNat = ((List.range n.bytes).map (fun j => (s.readSrc (a + j)).toNat * 2 ^ (8 * j))).sum) ∧
    (s.events = .access ⟨ag, .disp, a, n, .read⟩ :: es →
      ∃ t v, step s = .next t ∧ t.responses = ⟨⟨ag, .disp, a, n, .read⟩, .data v⟩ :: s.responses ∧
        v.toNat = (s.readDisp (a / 4)).toNat / 2 ^ (8 * (a % 4)) % 2 ^ (8 * n.bytes))

/-- R76: a 2-byte or 4-byte host write to SRC has the same final effect as the byte writes in address order. -/
def Obligations.WideSrcWriteEqualsByteWrites : Prop :=
  ∀ (s : State) (ag : Agent) (a : Nat) (n : Size) (v : Word), s.inReset = false → s.inflight = none →
    a % n.bytes = 0 → a + n.bytes ≤ 4 * s.maxPixels →
    ∃ t u,
      stepN 1 { s with events := [.access ⟨ag, .src, a, n, .write v⟩] } = .next t ∧
      stepN n.bytes { s with events := (List.range n.bytes).map (fun j =>
        .access ⟨ag, .src, a + j, .one, .write (v >>> (8 * j))⟩) } = .next u ∧
      t = { u with responses := t.responses }

/-- R230: while reset is asserted every host access gets the bus-error response and changes nothing. -/
def Obligations.AccessesInResetAreRefused : Prop :=
  ∀ (s : State) (a : Access) (es : List Event), s.inReset = true → s.events = .access a :: es →
    step s = .next { s with events := es, responses := ⟨a, .busError⟩ :: s.responses }

/-- R44, R230, R231: the reset input abandons the command in flight and leaves the control state of R44, at its assertion and
at its release; MAX_PIXELS stays. That the assertion itself already leaves this state is the reading of log 14. -/
def Obligations.ResetInputLeavesTheResetState : Prop :=
  ∀ (s : State) (es : List Event),
    (s.events = .assertReset :: es →
      ∃ t, step s = .next t ∧ t.ControlReset ∧ t.inReset = true ∧ t.maxPixels = s.maxPixels ∧ t.events = es) ∧
    (s.inReset = true → s.events = .releaseReset :: es →
      ∃ t, step s = .next t ∧ t.ControlReset ∧ t.inReset = false ∧ t.maxPixels = s.maxPixels ∧ t.events = es)

/-- R44: the state right after reset has the values the spec gives, for every MAX_PIXELS; STATUS and HSTAT read 0. -/
def Obligations.ResetStateIsAsSpecified : Prop :=
  State.reset = State.resetWith Config.maxPixels ∧
  ∀ m : Nat, (State.resetWith m).ControlReset ∧ (State.resetWith m).inReset = false ∧ (State.resetWith m).maxPixels = m ∧
    (State.resetWith m).statusWord = 0#32 ∧ (State.resetWith m).hstatWord = 0#32

/-! ### The whole machine -/

/-- R27, R203: every command completes, from every state, and at the engine's turn BUSY falls. No step stops the machine, be it a
bus access (R63) or an edge of the reset input: that there is no trap and so no fault is the reading of log 20 (R205). That an
empty list of events is the engine's turn is the model's choice of log 1. -/
def Obligations.EveryCommandCompletes : Prop :=
  (∀ (i : Instr) (s : State), ∃ t, exec i s = .next t ∧ t.inflight = none) ∧
  (∀ s : State, ∃ t, step s = .next t) ∧
  (∀ (s : State) (es : List Event), s.events = [] ∨ s.events = .engine :: es →
    ∃ t, step s = .next t ∧ t.inflight = none)

/-- R203: each command word ends in one of three ways, with BUSY = 0: it completes; it raises an error and has written nothing
else; or it is an HCUM that reports an overflow and keeps what it wrote: its channel's bins are the prefix sums modulo 2^32 and
its cumulate count has gone up (to at most 3), and nothing else has changed. -/
def Obligations.EveryCommandEndsInOneOfThreeWays : Prop :=
  ∀ (w : Word) (s : State), ∃ t, perform w s = .next t ∧ t.inflight = none ∧
    ((t.err = .ok ∧ t.errInfo = 0#32) ∨
      (t.err ≠ .ok ∧ t.err ≠ .countOverflow ∧ t = s.afterError t.err t.errInfo) ∨
      (t.err = .countOverflow ∧ t.histValid = s.histValid ∧ s.OnlyHist t ∧
        ∃ c, decode w = .ok (.hcum c) ∧
          (∀ i, i < 256 → (t.readBin c i).toNat = s.prefixSum c i % 2 ^ 32) ∧
          (t.cumCnt.get c).toNat = min 3 ((s.cumCnt.get c).toNat + 1) ∧
          ∀ d, d ≠ c → t.hist.get d = s.hist.get d ∧ t.cumCnt.get d = s.cumCnt.get d))

/-- R21, R28, R29, R30, R31, R34, R36, R38, R39, R40, R164, R218: which commands write which state. -/
def Obligations.OnlyTheNamedCommandsWriteEachState : Prop :=
  ∀ (i : Instr) (s : State), ∃ t, exec i s = .next t ∧
    (i.mnemonic ∉ [.load, .loadx] → s.SameImage t) ∧
    (i.mnemonic ∉ [.load, .loadx, .gray, .inv, .thr] → t.pix = s.pix) ∧
    (i.mnemonic ≠ .exportDisp → t.disp = s.disp) ∧
    (i.mnemonic ≠ .hbuild → t.histValid = s.histValid) ∧
    (i.mnemonic ∉ [.hbuild, .hcum] → t.hist = s.hist ∧ t.cumCnt = s.cumCnt) ∧
    (i.mnemonic ∉ [.hlow, .hhigh] → t.empty = s.empty) ∧
    (i.mnemonic ∈ [.load, .loadx, .exportDisp, .gray, .inv, .thr, .hbuild, .hcum] → t.x = s.x) ∧
    t.src = s.src ∧ s.SameRest t

/-- R241: the command in flight is never disturbed by accesses made while BUSY = 1. Whatever accesses come before the engine's
turn, the machine ends as if none had come, but for LOST, the recorded answers and the free values used up. The answers and
the free values are those of log 2, log 9 and log 16. -/
def Obligations.BusyAccessesDoNotDisturbTheCommand : Prop :=
  ∀ (s : State) (w : Word) (accs : List Access), s.inReset = false → s.inflight = some w →
    ∃ t u,
      stepN (accs.length + 1) { s with events := accs.map .access ++ [.engine] } = .next t ∧
      stepN 1 { s with events := [.engine] } = .next u ∧
      t = { u with lost := t.lost, responses := t.responses, draws := t.draws }

/-- R70, R240: a host that writes CMD with BUSY = 0 and then only polls STATUS sees the command as one atomic step: every poll
before the engine's turn reads BUSY = 1, the poll after it reads BUSY = 0, and what that poll finds is exactly what performing
the word on the state before leaves. That the engine's turn is an event among the accesses is the model's form (log 1). -/
def Obligations.ProtocolHostSeesOneAtomicStep : Prop :=
  ∀ (s : State) (ag : Agent) (w : Word) (polls : Nat), s.inReset = false → s.inflight = none →
    s.events = .access (cmdWrite ag w) ::
      (List.replicate polls (.access (statusPoll ag)) ++ [.engine, .access (statusPoll ag)]) →
    ∃ (t u : State) (p : Nat) (vs : List Word) (v : Word),
      stepN (polls + 3) s = .next t ∧ perform w s = .next u ∧
      t = { u with events := [], responses := t.responses, draws := p } ∧
      t.responses = ⟨statusPoll ag, .data v⟩ ::
        (vs.map (fun x => ⟨statusPoll ag, .data x⟩) ++ (⟨cmdWrite ag w, .done⟩ :: s.responses)) ∧
      vs.length = polls ∧ (∀ x ∈ vs, x.getLsbD 0 = true) ∧ v = u.statusWord ∧ v.getLsbD 0 = false

/-- The machine's invariant (R6, R34, R37 to R39, R120, R162, R173, R201, R231) is kept by every step, from every state that
meets it. -/
def Obligations.EveryStepKeepsTheInvariant : Prop := ∀ s t : State, s.Inv → step s = .next t → t.Inv

/-- The state after reset meets the invariant, for every legal MAX_PIXELS. -/
def Obligations.ResetMeetsTheInvariant : Prop :=
  State.reset.Inv ∧ ∀ m : Nat, 1 ≤ m → m ≤ 2 ^ 32 - 1 → (State.resetWith m).Inv

/-! ### The codec (40_codec.md) -/

/-- R104: ENC8 packs the low 8 bits of its four sources, R highest, whatever registers coincide; it always completes with OK and
writes nothing else. -/
def Obligations.Enc8PacksTheLowBytes : Prop :=
  ∀ (rd rs1 rs2 rs3 rs4 : Reg) (s : State), EncodedAs .enc8 (.enc8 rd rs1 rs2 rs3 rs4) ∧
    ∃ t, exec (.enc8 rd rs1 rs2 rs3 rs4) s = .next t ∧ t.Completed ∧
      (t.readReg rd).toNat = storageNat ((s.readReg rs1).toNat % 256) ((s.readReg rs2).toNat % 256)
        ((s.readReg rs3).toNat % 256) ((s.readReg rs4).toNat % 256) ∧
      s.OnlyRegs t [rd]

/-- R105: ENCW takes each source in 16 bits and packs the low 8 of them; it always completes with OK and writes nothing else. -/
def Obligations.EncwPacksTheLowBytesOfTheWideValues : Prop :=
  ∀ (rd rs1 rs2 rs3 rs4 : Reg) (s : State), EncodedAs .encw (.encw rd rs1 rs2 rs3 rs4) ∧
    ∃ t, exec (.encw rd rs1 rs2 rs3 rs4) s = .next t ∧ t.Completed ∧
      (t.readReg rd).toNat = storageNat ((s.readReg rs1).toNat % 2 ^ 16 % 256) ((s.readReg rs2).toNat % 2 ^ 16 % 256)
        ((s.readReg rs3).toNat % 2 ^ 16 % 256) ((s.readReg rs4).toNat % 2 ^ 16 % 256) ∧
      s.OnlyRegs t [rd]

/-- R106: DEC8 writes R, G, B, A of the word to the four registers of the group, in this order, also when the source is one of
them; it always completes with OK and writes nothing else. -/
def Obligations.Dec8WritesTheFourChannels : Prop :=
  ∀ (q : Group) (rs1 : Reg) (s : State), EncodedAs .dec8 (.dec8 q rs1) ∧
    ∃ t, exec (.dec8 q rs1) s = .next t ∧ t.Completed ∧
      (t.readReg (groupReg q 0)).toNat = redOf (s.readReg rs1) ∧ (t.readReg (groupReg q 1)).toNat = greenOf (s.readReg rs1) ∧
      (t.readReg (groupReg q 2)).toNat = blueOf (s.readReg rs1) ∧ (t.readReg (groupReg q 3)).toNat = alphaOf (s.readReg rs1) ∧
      s.OnlyRegs t [groupReg q 0, groupReg q 1, groupReg q 2, groupReg q 3]

/-- R107: DECW writes the same four values through the wide variant; each is at most 255. -/
def Obligations.DecwWritesTheFourChannels : Prop :=
  ∀ (q : Group) (rs1 : Reg) (s : State), EncodedAs .decw (.decw q rs1) ∧
    ∃ t, exec (.decw q rs1) s = .next t ∧ t.Completed ∧
      (t.readReg (groupReg q 0)).toNat = redOf (s.readReg rs1) ∧ (t.readReg (groupReg q 1)).toNat = greenOf (s.readReg rs1) ∧
      (t.readReg (groupReg q 2)).toNat = blueOf (s.readReg rs1) ∧ (t.readReg (groupReg q 3)).toNat = alphaOf (s.readReg rs1) ∧
      s.OnlyRegs t [groupReg q 0, groupReg q 1, groupReg q 2, groupReg q 3]

/-- R108: TODISP turns a storage-order word into the display-order word of the same channels: A highest, then R, G, B. -/
def Obligations.TodispReordersTheChannels : Prop :=
  ∀ (rd rs1 : Reg) (s : State), EncodedAs .todisp (.todisp rd rs1) ∧
    ∃ t, exec (.todisp rd rs1) s = .next t ∧ t.Completed ∧
      (t.readReg rd).toNat = alphaOf (s.readReg rs1) * 2 ^ 24 + redOf (s.readReg rs1) * 2 ^ 16 +
        greenOf (s.readReg rs1) * 2 ^ 8 + blueOf (s.readReg rs1) ∧
      s.OnlyRegs t [rd]

/-- R109: DECD writes A, R, G, B of a display-order word {a, r, g, b} to the four registers of the group, in this order. -/
def Obligations.DecdWritesTheFourDisplayChannels : Prop :=
  ∀ (q : Group) (rs1 : Reg) (s : State) (a r g b : Nat), a < 256 → r < 256 → g < 256 → b < 256 →
    (s.readReg rs1).toNat = a * 2 ^ 24 + r * 2 ^ 16 + g * 2 ^ 8 + b →
    EncodedAs .decd (.decd q rs1) ∧
    ∃ t, exec (.decd q rs1) s = .next t ∧ t.Completed ∧
      (t.readReg (groupReg q 0)).toNat = a ∧ (t.readReg (groupReg q 1)).toNat = r ∧
      (t.readReg (groupReg q 2)).toNat = g ∧ (t.readReg (groupReg q 3)).toNat = b ∧
      s.OnlyRegs t [groupReg q 0, groupReg q 1, groupReg q 2, groupReg q 3]

/-- R110: the round trips on the PXU, for channel values 0..255 in x0..x3. -/
def Obligations.CodecRoundTrips : Prop :=
  ∀ (s : State) (r g b a : Nat), r < 256 → g < 256 → b < 256 → a < 256 →
    (s.readReg 0).toNat = r → (s.readReg 1).toNat = g → (s.readReg 2).toNat = b → (s.readReg 3).toNat = a →
    (∀ enc ∈ [Instr.enc8 4 0 1 2 3, .encw 4 0 1 2 3], ∀ dec ∈ [Instr.dec8 .hi 4, .decw .hi 4],
      ∃ t u, exec enc s = .next t ∧ exec dec t = .next u ∧
        (u.readReg 4).toNat = r ∧ (u.readReg 5).toNat = g ∧ (u.readReg 6).toNat = b ∧ (u.readReg 7).toNat = a) ∧
    (∃ t u v, exec (.enc8 4 0 1 2 3) s = .next t ∧ exec (.todisp 5 4) t = .next u ∧ exec (.decd .lo 5) u = .next v ∧
      (v.readReg 0).toNat = a ∧ (v.readReg 1).toNat = r ∧ (v.readReg 2).toNat = g ∧ (v.readReg 3).toNat = b)

/-- R111: the precision variants cannot be told apart on the general registers. -/
def Obligations.PrecisionVariantsAgree : Prop :=
  ∀ s : State, (∀ rd rs1 rs2 rs3 rs4 : Reg, exec (.enc8 rd rs1 rs2 rs3 rs4) s = exec (.encw rd rs1 rs2 rs3 rs4) s) ∧
    (∀ (q : Group) (rs1 : Reg), exec (.dec8 q rs1) s = exec (.decw q rs1) s)

/-! ### The image (41_image.md) -/

/-- R121, R122, R124: LOAD with non-zero dimensions that fit and the exact length builds the image from SRC. -/
def Obligations.LoadBuildsTheImage : Prop :=
  ∀ (rs1 rs2 rs3 : Reg) (lay : Layout) (s : State),
    1 ≤ (s.readReg rs1).toNat → 1 ≤ (s.readReg rs2).toNat →
    (s.readReg rs1).toNat * (s.readReg rs2).toNat ≤ s.maxPixels →
    (s.readReg rs3).toNat = (s.readReg rs1).toNat * (s.readReg rs2).toNat * bytesPerPixel lay →
    EncodedAs .load (.load rs1 rs2 rs3 lay) ∧
    ∃ t, exec (.load rs1 rs2 rs3 lay) s = .next t ∧ s.Loaded t (s.readReg rs1) (s.readReg rs2) lay

/-- R122, R125: LOADX without a decoder failure builds the image the decoder port declares. -/
def Obligations.LoadxBuildsTheDeclaredImage : Prop :=
  ∀ s : State, s.dec.fail = false → 1 ≤ s.dec.w.toNat → 1 ≤ s.dec.h.toNat →
    s.dec.w.toNat * s.dec.h.toNat ≤ s.maxPixels →
    s.dec.len.toNat = s.dec.w.toNat * s.dec.h.toNat * bytesPerPixel s.dec.layout →
    EncodedAs .loadx .loadx ∧
    ∃ t, exec .loadx s = .next t ∧ s.Loaded t s.dec.w s.dec.h s.dec.layout

/-- R122: the load core, for LOAD and for LOADX without a decoder failure: the checks in their order and on exact products, a load
that raises changes nothing but the result, so the previous image stays, and a load that passes them builds the image. -/
def Obligations.LoadChecksInOrder : Prop :=
  ∀ (s : State) (i : Instr) (w h len : Word) (lay : Layout),
    ((∃ rs1 rs2 rs3, i = .load rs1 rs2 rs3 lay ∧ w = s.readReg rs1 ∧ h = s.readReg rs2 ∧ len = s.readReg rs3) ∨
      (i = .loadx ∧ s.dec.fail = false ∧ w = s.dec.w ∧ h = s.dec.h ∧ len = s.dec.len ∧ lay = s.dec.layout)) →
    ((w.toNat = 0 ∨ h.toNat = 0) → exec i s = .next (s.afterError .invalidDimensions 0#32)) ∧
    (1 ≤ w.toNat → 1 ≤ h.toNat → s.maxPixels < w.toNat * h.toNat →
      exec i s = .next (s.afterError .capacityExceeded 0#32)) ∧
    (1 ≤ w.toNat → 1 ≤ h.toNat → w.toNat * h.toNat ≤ s.maxPixels →
      (len.toNat % bytesPerPixel lay ≠ 0 ∨ len.toNat ≠ w.toNat * h.toNat * bytesPerPixel lay) →
      exec i s = .next (s.afterError .invalidBufferLength len)) ∧
    (1 ≤ w.toNat → 1 ≤ h.toNat → w.toNat * h.toNat ≤ s.maxPixels →
      len.toNat = w.toNat * h.toNat * bytesPerPixel lay →
      ∃ t, exec i s = .next t ∧ s.Loaded t w h lay)

/-- R125, R204: a decoder failure is reported before every other check, with its code unchanged, and changes nothing else. -/
def Obligations.LoadxSurfacesTheDecoderFailure : Prop :=
  ∀ s : State, s.dec.fail = true → ∃ info, exec .loadx s = .next (s.afterError .decodeFailure info) ∧
    info.toNat = s.dec.code.toNat

/-- R126: GETPIX inside both bounds reads PIX[y * IMG_W + x]; outside, the column is reported first, then the row; without an
image it raises NO_IMAGE. -/
def Obligations.GetpixReadsTheCoordinate : Prop :=
  ∀ (rd rs1 rs2 : Reg) (s : State),
    EncodedAs .getpix (.getpix rd rs1 rs2) ∧
    (s.imgValid = false → exec (.getpix rd rs1 rs2) s = .next (s.afterError .noImage 0#32)) ∧
    (s.imgValid = true → (s.readReg rs1).toNat < s.imgW.toNat → (s.readReg rs2).toNat < s.imgH.toNat →
      ∃ t, exec (.getpix rd rs1 rs2) s = .next t ∧ t.Completed ∧
        t.readReg rd = s.readPix ((s.readReg rs2).toNat * s.imgW.toNat + (s.readReg rs1).toNat) ∧ s.OnlyRegs t [rd]) ∧
    (s.imgValid = true → s.imgW.toNat ≤ (s.readReg rs1).toNat →
      exec (.getpix rd rs1 rs2) s = .next (s.afterError .indexOutOfRange (s.readReg rs1))) ∧
    (s.imgValid = true → (s.readReg rs1).toNat < s.imgW.toNat → s.imgH.toNat ≤ (s.readReg rs2).toNat →
      exec (.getpix rd rs1 rs2) s = .next (s.afterError .indexOutOfRange (s.readReg rs2)))

/-- R128: DIMS writes the width, then the height; when both destinations are one register it ends with the height; without an
image it raises NO_IMAGE. -/
def Obligations.DimsReturnsWidthThenHeight : Prop :=
  ∀ (rd rd2 : Reg) (s : State), EncodedAs .dims (.dims rd rd2) ∧
    (s.imgValid = false → exec (.dims rd rd2) s = .next (s.afterError .noImage 0#32)) ∧
    (s.imgValid = true → ∃ t, exec (.dims rd rd2) s = .next t ∧ t.Completed ∧ t.readReg rd2 = s.imgH ∧
      (rd ≠ rd2 → t.readReg rd = s.imgW) ∧ s.OnlyRegs t [rd, rd2])

/-- R127: EXPORT writes the display-order word of every pixel of the image to DISP, keeps the words from N on, and changes
nothing else; without an image it raises NO_IMAGE. -/
def Obligations.ExportWritesTheDisplayWords : Prop :=
  ∀ s : State, EncodedAs .exportDisp .exportDisp ∧
    (s.imgValid = false → exec .exportDisp s = .next (s.afterError .noImage 0#32)) ∧
    (s.imgValid = true → ∃ t, exec .exportDisp s = .next t ∧ t.Completed ∧
      (∀ k, k < s.imgW.toNat * s.imgH.toNat → (t.readDisp k).toNat =
        alphaOf (s.readPix k) * 2 ^ 24 + redOf (s.readPix k) * 2 ^ 16 + greenOf (s.readPix k) * 2 ^ 8 + blueOf (s.readPix k)) ∧
      s.OnlyDisp t (s.imgW.toNat * s.imgH.toNat))

/-! ### Point operations (42_point_ops.md) -/

/-- R143 (with R140): GRAY sets the three colours of every pixel to floor((r + g + b) / 3), the sum exact, and keeps alpha;
without an image it raises NO_IMAGE. -/
def Obligations.GrayAveragesTheColours : Prop :=
  ∀ s : State, EncodedAs .gray .gray ∧
    (s.imgValid = false → exec .gray s = .next (s.afterError .noImage 0#32)) ∧
    (s.imgValid = true → ∃ t, exec .gray s = .next t ∧ t.Completed ∧
      (∀ k, k < s.imgW.toNat * s.imgH.toNat →
        let l := (redOf (s.readPix k) + greenOf (s.readPix k) + blueOf (s.readPix k)) / 3
        (t.readPix k).toNat = storageNat l l l (alphaOf (s.readPix k))) ∧
      s.OnlyPix t (s.imgW.toNat * s.imgH.toNat))

/-- R144 (with R140): INV replaces every colour c by 255 - c and keeps alpha: the word XOR 0xFFFFFF00; without an image it raises
NO_IMAGE. -/
def Obligations.InvComplementsTheColours : Prop :=
  ∀ s : State, EncodedAs .inv .inv ∧
    (s.imgValid = false → exec .inv s = .next (s.afterError .noImage 0#32)) ∧
    (s.imgValid = true → ∃ t, exec .inv s = .next t ∧ t.Completed ∧
      (∀ k, k < s.imgW.toNat * s.imgH.toNat →
        (t.readPix k).toNat = storageNat (255 - redOf (s.readPix k)) (255 - greenOf (s.readPix k))
          (255 - blueOf (s.readPix k)) (alphaOf (s.readPix k)) ∧
        t.readPix k = s.readPix k ^^^ 0xFFFFFF00#32) ∧
      s.OnlyPix t (s.imgW.toNat * s.imgH.toNat))

/-- R145 (with R140): THR sets each colour to 255 when it is strictly greater than the limit, else to 0, and keeps alpha; without
an image it raises NO_IMAGE. -/
def Obligations.ThrThresholdsEachColour : Prop :=
  ∀ (limit : Byte) (s : State), EncodedAs .thr (.thr limit) ∧
    (s.imgValid = false → exec (.thr limit) s = .next (s.afterError .noImage 0#32)) ∧
    (s.imgValid = true → ∃ t, exec (.thr limit) s = .next t ∧ t.Completed ∧
      (∀ k, k < s.imgW.toNat * s.imgH.toNat →
        let f := fun c : Nat => if limit.toNat < c then 255 else 0
        (t.readPix k).toNat = storageNat (f (redOf (s.readPix k))) (f (greenOf (s.readPix k)))
          (f (blueOf (s.readPix k))) (alphaOf (s.readPix k))) ∧
      s.OnlyPix t (s.imgW.toNat * s.imgH.toNat))

/-- R143, R144, R145: GRAY twice equals GRAY once, THR with one limit twice equals once, INV twice restores every pixel. -/
def Obligations.PointOperationsTwice : Prop :=
  ∀ (s : State) (limit : Byte), s.imgValid = true →
    (∀ i ∈ [Instr.gray, .thr limit], ∃ t u, exec i s = .next t ∧ exec i t = .next u ∧ u = t) ∧
    (∃ t u, exec .inv s = .next t ∧ exec .inv t = .next u ∧ ∀ k, u.readPix k = s.readPix k)

/-! ### Histograms (43_histogram.md) -/

/-- R163: HBUILD makes every bin the number of the image's pixels with that value, sets HIST_VALID, clears the cumulate counts,
and changes nothing else; no increment overflows in a state that meets the invariant; without an image it raises NO_IMAGE. -/
def Obligations.HbuildCountsThePixels : Prop :=
  ∀ s : State, EncodedAs .hbuild .hbuild ∧
    (s.imgValid = false → exec .hbuild s = .next (s.afterError .noImage 0#32)) ∧
    (s.imgValid = true → ∃ t, exec .hbuild s = .next t ∧ t.Completed ∧ t.histValid = true ∧
      (∀ c, t.cumCnt.get c = 0#2) ∧
      (∀ c i, i < 256 → (t.readBin c i).toNat = s.pixelsWith c i % 2 ^ 32) ∧
      (s.Inv → ∀ c i, i < 256 → (t.readBin c i).toNat = s.pixelsWith c i) ∧ s.OnlyHist t)

/-- R162: right after HBUILD on an image of N pixels, the 256 bins of each channel sum to N. -/
def Obligations.BuiltBinsSumToThePixelCount : Prop :=
  ∀ s : State, s.Inv → s.imgValid = true →
    ∃ t, exec .hbuild s = .next t ∧ ∀ c, t.binSum c = s.imgW.toNat * s.imgH.toNat

/-- R170: HCOUNT reads the bin; an index above 255 is reported and nothing else changes; without a histogram it raises
NO_HISTOGRAM. -/
def Obligations.HcountReadsTheBin : Prop :=
  ∀ (rd rs1 : Reg) (c : Channel) (s : State), EncodedAs .hcount (.hcount rd rs1 c) ∧
    (s.histValid = false → exec (.hcount rd rs1 c) s = .next (s.afterError .noHistogram 0#32)) ∧
    (s.histValid = true → (s.readReg rs1).toNat ≤ 255 →
      ∃ t, exec (.hcount rd rs1 c) s = .next t ∧ t.Completed ∧ t.readReg rd = s.readBin c (s.readReg rs1).toNat ∧
        s.OnlyRegs t [rd]) ∧
    (s.histValid = true → 255 < (s.readReg rs1).toNat →
      exec (.hcount rd rs1 c) s = .next (s.afterError .indexOutOfRange (s.readReg rs1)))

/-- R174 (with R171, R176): HLOW writes the count of the lowest non-zero bin to rd and its intensity to rd2, which wins when both
are one register, and clears EMPTY; on a histogram of zeros it writes 0 and 0 and sets EMPTY; both complete with OK. Without a
histogram it raises NO_HISTOGRAM. -/
def Obligations.HlowFindsTheLowestBin : Prop :=
  ∀ (rd rd2 : Reg) (c : Channel) (s : State), EncodedAs .hlow (.hlow rd rd2 c) ∧
    (s.histValid = false → exec (.hlow rd rd2 c) s = .next (s.afterError .noHistogram 0#32)) ∧
    (s.histValid = true → ∀ n, n < 256 → s.readBin c n ≠ 0#32 → (∀ j, j < n → s.readBin c j = 0#32) →
      ∃ t, exec (.hlow rd rd2 c) s = .next t ∧ t.Completed ∧ (t.readReg rd2).toNat = n ∧
        (rd ≠ rd2 → t.readReg rd = s.readBin c n) ∧ t.empty = false ∧ s.OnlyRegsAndEmpty t [rd, rd2]) ∧
    (s.histValid = true → (∀ j, j < 256 → s.readBin c j = 0#32) →
      ∃ t, exec (.hlow rd rd2 c) s = .next t ∧ t.Completed ∧ t.readReg rd = 0#32 ∧ t.readReg rd2 = 0#32 ∧
        t.empty = true ∧ s.OnlyRegsAndEmpty t [rd, rd2])

/-- R175 (with R171, R176): HHIGH writes the count of the highest non-zero bin to rd and its intensity to rd2, which wins when both
are one register, and clears EMPTY; on a histogram of zeros it writes 0 and 0 and sets EMPTY; both complete with OK. Without a
histogram it raises NO_HISTOGRAM. -/
def Obligations.HhighFindsTheHighestBin : Prop :=
  ∀ (rd rd2 : Reg) (c : Channel) (s : State), EncodedAs .hhigh (.hhigh rd rd2 c) ∧
    (s.histValid = false → exec (.hhigh rd rd2 c) s = .next (s.afterError .noHistogram 0#32)) ∧
    (s.histValid = true → ∀ n, n < 256 → s.readBin c n ≠ 0#32 → (∀ j, n < j → j < 256 → s.readBin c j = 0#32) →
      ∃ t, exec (.hhigh rd rd2 c) s = .next t ∧ t.Completed ∧ (t.readReg rd2).toNat = n ∧
        (rd ≠ rd2 → t.readReg rd = s.readBin c n) ∧ t.empty = false ∧ s.OnlyRegsAndEmpty t [rd, rd2]) ∧
    (s.histValid = true → (∀ j, j < 256 → s.readBin c j = 0#32) →
      ∃ t, exec (.hhigh rd rd2 c) s = .next t ∧ t.Completed ∧ t.readReg rd = 0#32 ∧ t.readReg rd2 = 0#32 ∧
        t.empty = true ∧ s.OnlyRegsAndEmpty t [rd, rd2])

/-- R161: with HIST_VALID = 0 a histogram command raises NO_HISTOGRAM with ERRINFO 0, whatever its operands hold, and changes
nothing else; an illegal word is reported as such first. -/
def Obligations.HistogramCommandsNeedAHistogram : Prop :=
  ∀ (w : Word) (s : State), s.histValid = false →
    (∀ i, decode w = .ok i → i.mnemonic ∈ [.hcount, .hlow, .hhigh, .hcum] →
      perform w s = .next (s.afterError .noHistogram 0#32)) ∧
    (∀ e, decode w = .error e → perform w s = .next (s.afterError .illegalCommand w))

/-- R179: HCUM makes every bin of its channel the prefix sum modulo 2^32, keeps the other channels, counts the cumulate up to 3,
and reports the lowest bin whose sum needed more than 32 bits, if there is one; nothing else changes; without a histogram it raises
NO_HISTOGRAM. -/
def Obligations.HcumFormsThePrefixSums : Prop :=
  ∀ (c : Channel) (s : State), EncodedAs .hcum (.hcum c) ∧
    (s.histValid = false → exec (.hcum c) s = .next (s.afterError .noHistogram 0#32)) ∧
    (s.histValid = true → ∃ t, exec (.hcum c) s = .next t ∧
      (∀ i, i < 256 → (t.readBin c i).toNat = s.prefixSum c i % 2 ^ 32) ∧
      (∀ d, d ≠ c → t.hist.get d = s.hist.get d ∧ t.cumCnt.get d = s.cumCnt.get d) ∧
      (t.cumCnt.get c).toNat = min 3 ((s.cumCnt.get c).toNat + 1) ∧ t.histValid = true ∧ s.OnlyHist t ∧
      ((∀ i, 1 ≤ i → i < 256 → s.cumSum c i < 2 ^ 32) → t.Completed) ∧
      (∀ i, 1 ≤ i → i < 256 → 2 ^ 32 ≤ s.cumSum c i → (∀ j, 1 ≤ j → j < i → s.cumSum c j < 2 ^ 32) →
        t.err = .countOverflow ∧ t.errInfo.toNat = i ∧ t.inflight = none))

/-- R180: HCUM twice gives the doubly accumulated values, modulo 2^32, which differ from one application when a bin below 255 is
non-zero; the second is neither refused nor a no-op, and CUMCNT counts both. -/
def Obligations.HcumTwiceAccumulatesTwice : Prop :=
  ∀ (c : Channel) (s : State), s.histValid = true →
    ∃ t u, exec (.hcum c) s = .next t ∧ exec (.hcum c) t = .next u ∧
      (∀ i, i < 256 → (u.readBin c i).toNat = s.doubleSum c i % 2 ^ 32) ∧
      ((∃ j, j < 255 ∧ s.readBin c j ≠ 0#32) → ∃ i, i < 256 ∧ u.readBin c i ≠ t.readBin c i) ∧
      (u.cumCnt.get c).toNat = min 3 ((s.cumCnt.get c).toNat + 2)

/-- R172: after HBUILD on an image of N pixels and one HCUM of a channel the bins are the exact prefix sums, at most N, and the
HCUM completes with OK. The same holds whenever the channel has not been cumulated since its HBUILD, with MAX_PIXELS for N. -/
def Obligations.FirstHcumNeverOverflows : Prop :=
  ∀ (c : Channel) (s : State), s.Inv →
    (s.imgValid = true → ∃ t u, exec .hbuild s = .next t ∧ exec (.hcum c) t = .next u ∧ u.Completed ∧
      ∀ i, i < 256 → (u.readBin c i).toNat = t.prefixSum c i ∧ t.prefixSum c i ≤ s.imgW.toNat * s.imgH.toNat ∧
        s.imgW.toNat * s.imgH.toNat ≤ 2 ^ 32 - 1) ∧
    (s.histValid = true → s.cumCnt.get c = 0#2 →
      ∃ t, exec (.hcum c) s = .next t ∧ t.Completed ∧
        ∀ i, i < 256 → (t.readBin c i).toNat = s.prefixSum c i ∧ s.prefixSum c i ≤ s.maxPixels)

/-- R173: HLOW returns the same count and intensity before and after an HCUM of any channel, and EMPTY is 0 both times. -/
def Obligations.HcumKeepsTheLowestBin : Prop :=
  ∀ (rd rd2 : Reg) (c d : Channel) (s : State), s.Inv → s.histValid = true →
    ∃ t u v, exec (.hlow rd rd2 c) s = .next t ∧ exec (.hcum d) s = .next u ∧ exec (.hlow rd rd2 c) u = .next v ∧
      v.readReg rd = t.readReg rd ∧ v.readReg rd2 = t.readReg rd2 ∧ t.empty = false ∧ v.empty = false
end

