-- ==== Sys2Proof/Laws/Memory.lean ====
section
/-! SUPPORT. The laws of the sparse memory: a read after a write, the canonical form is kept, and two canonical memories that
read alike are equal. -/

namespace Sys2Proof.Machine

variable {α : Type}

/-! ### Reading after writing -/

@[simp] theorem Memory.lookup_nil (a : Nat) : Memory.lookup ([] : List (Nat × α)) a = none := rfl

theorem Memory.lookup_cons (k : Nat) (v : α) (m : List (Nat × α)) (a : Nat) :
    Memory.lookup ((k, v) :: m) a = if k = a then some v else Memory.lookup m a := rfl

theorem Memory.lookup_write (m : List (Nat × α)) (a b : Nat) (v : α) :
    Memory.lookup (Memory.write m a v) b = if a = b then some v else Memory.lookup m b := by
  induction m with
  | nil => rfl
  | cons c m ih =>
    obtain ⟨k, u⟩ := c
    by_cases h1 : a < k
    · simp [Memory.write, h1, Memory.lookup_cons]
    · by_cases h2 : a = k
      · subst h2
        by_cases hb : a = b <;> simp [Memory.write, Memory.lookup_cons, hb]
      · simp only [Memory.write, h1, h2, if_false, Memory.lookup_cons, ih]
        by_cases hb : k = b
        · have : a ≠ b := by omega
          simp [hb, this]
        · simp [hb]

@[simp] theorem Memory.lookup_write_same (m : List (Nat × α)) (a : Nat) (v : α) :
    Memory.lookup (Memory.write m a v) a = some v := by
  simp [Memory.lookup_write]

theorem Memory.lookup_append (l m : List (Nat × α)) (a : Nat) :
    Memory.lookup (l ++ m) a = (Memory.lookup l a).or (Memory.lookup m a) := by
  induction l with
  | nil => rfl
  | cons c l ih =>
    obtain ⟨k, u⟩ := c
    by_cases h : k = a <;> simp [Memory.lookup_cons, h, ih]

theorem Memory.lookup_map_range (n : Nat) (f : Nat → α) (a : Nat) :
    Memory.lookup ((List.range n).map (fun k => (k, f k))) a = if a < n then some (f a) else none := by
  induction n with
  | zero => rfl
  | succ n ih =>
    rw [List.range_succ, List.map_append, Memory.lookup_append, ih]
    by_cases h : a < n
    · have : a < n + 1 := by omega
      simp [h, this]
    · by_cases e : n = a
      · subst e
        simp [Memory.lookup_cons]
      · have : ¬ a < n + 1 := by omega
        simp [h, this, Memory.lookup_cons, e]

theorem Memory.lookup_filter_ge (m : List (Nat × α)) (n a : Nat) :
    Memory.lookup (m.filter (fun c => n ≤ c.1)) a = if n ≤ a then Memory.lookup m a else none := by
  induction m with
  | nil => simp
  | cons c m ih =>
    obtain ⟨k, u⟩ := c
    by_cases h : n ≤ k
    · simp only [List.filter_cons, h, decide_true, if_true, Memory.lookup_cons, ih]
      by_cases e : k = a
      · subst e
        simp [h]
      · simp [e]
    · simp only [List.filter_cons, h, decide_false, Bool.false_eq_true, if_false, ih, Memory.lookup_cons]
      by_cases e : k = a
      · subst e
        simp [h]
      · simp [e]

/-- After a fill, the first n addresses read the new values and every other address reads as before. -/
theorem Memory.lookup_fill (m : List (Nat × α)) (n : Nat) (f : Nat → α) (a : Nat) :
    Memory.lookup (Memory.fill m n f) a = if a < n then some (f a) else Memory.lookup m a := by
  rw [Memory.fill, Memory.lookup_append, Memory.lookup_map_range, Memory.lookup_filter_ge]
  by_cases h : a < n
  · simp [h]
  · have : n ≤ a := by omega
    simp [h, this]

/-! ### The canonical form is kept -/

theorem Memory.mem_write {m : List (Nat × α)} {a : Nat} {v : α} {c : Nat × α} (h : c ∈ Memory.write m a v) :
    c = (a, v) ∨ c ∈ m := by
  induction m with
  | nil => simpa [Memory.write] using h
  | cons d m ih =>
    obtain ⟨k, u⟩ := d
    simp only [Memory.write] at h
    split at h
    · simpa using h
    · split at h
      · rcases List.mem_cons.1 h with h | h
        · exact .inl h
        · exact .inr (List.mem_cons_of_mem _ h)
      · rcases List.mem_cons.1 h with h | h
        · exact .inr (h ▸ List.mem_cons_self)
        · rcases ih h with h | h
          · exact .inl h
          · exact .inr (List.mem_cons_of_mem _ h)

theorem Memory.wf_nil : Memory.wf ([] : List (Nat × α)) := List.Pairwise.nil

theorem Memory.wf_write {m : List (Nat × α)} (h : Memory.wf m) (a : Nat) (v : α) : Memory.wf (Memory.write m a v) := by
  induction m with
  | nil => exact List.pairwise_singleton _ _
  | cons d m ih =>
    obtain ⟨k, u⟩ := d
    have hk : ∀ c ∈ m, k < c.1 := (List.pairwise_cons.1 h).1
    have hm : Memory.wf m := (List.pairwise_cons.1 h).2
    simp only [Memory.write]
    split
    · next hlt =>
      refine List.pairwise_cons.2 ⟨?_, h⟩
      intro c hc
      rcases List.mem_cons.1 hc with rfl | hc
      · exact hlt
      · exact Nat.lt_trans hlt (hk c hc)
    · split
      · next e =>
        subst e
        exact List.pairwise_cons.2 ⟨hk, hm⟩
      · refine List.pairwise_cons.2 ⟨?_, ih hm⟩
        intro c hc
        rcases Memory.mem_write hc with rfl | hc
        · show k < a
          omega
        · exact hk c hc

theorem Memory.wf_fill {m : List (Nat × α)} (h : Memory.wf m) (n : Nat) (f : Nat → α) : Memory.wf (Memory.fill m n f) := by
  rw [Memory.fill, Memory.wf, List.pairwise_append]
  refine ⟨?_, List.Pairwise.filter _ h, ?_⟩
  · rw [List.pairwise_map]
    exact List.pairwise_lt_range
  · intro c hc d hd
    simp only [List.mem_map, List.mem_range, List.mem_filter, decide_eq_true_eq] at hc hd
    obtain ⟨k, hk, rfl⟩ := hc
    exact Nat.lt_of_lt_of_le hk hd.2

theorem Memory.mem_fill {m : List (Nat × α)} {n : Nat} {f : Nat → α} {c : Nat × α} (h : c ∈ Memory.fill m n f) :
    c.1 < n ∨ c ∈ m := by
  simp only [Memory.fill, List.mem_append, List.mem_map, List.mem_range, List.mem_filter] at h
  rcases h with ⟨k, hk, rfl⟩ | h
  · exact .inl hk
  · exact .inr h.1

/-! ### Equal reads, equal memories -/

theorem Memory.lookup_eq_none {m : List (Nat × α)} {a : Nat} (h : ∀ c ∈ m, a < c.1) : Memory.lookup m a = none := by
  induction m with
  | nil => rfl
  | cons d m ih =>
    obtain ⟨k, u⟩ := d
    have : k ≠ a := by
      have := h (k, u) List.mem_cons_self
      simp only at this
      omega
    rw [Memory.lookup_cons, if_neg this]
    exact ih (fun c hc => h c (List.mem_cons_of_mem _ hc))

/-- Two canonical memories that hold the same value at every address are the same list. -/
theorem Memory.ext {m n : List (Nat × α)} (hm : Memory.wf m) (hn : Memory.wf n)
    (h : ∀ a, Memory.lookup m a = Memory.lookup n a) : m = n := by
  induction m generalizing n with
  | nil =>
    cases n with
    | nil => rfl
    | cons d n =>
      have := h d.1
      simp [Memory.lookup] at this
  | cons c m ih =>
    obtain ⟨k, u⟩ := c
    cases n with
    | nil =>
      have := h k
      simp [Memory.lookup] at this
    | cons d n =>
      obtain ⟨j, v⟩ := d
      have hkm := (List.pairwise_cons.1 hm).1
      have hjn := (List.pairwise_cons.1 hn).1
      have hk := h k
      have hj := h j
      simp only [Memory.lookup_cons, if_true] at hk hj
      have e : j = k := by
        by_contra hne
        rw [if_neg hne] at hk
        rw [if_neg (fun e => hne e.symm)] at hj
        rcases Nat.lt_or_ge k j with hlt | hge
        · rw [Memory.lookup_eq_none (fun c hc => Nat.lt_trans hlt (hjn c hc))] at hk
          exact absurd hk (by simp)
        · have hlt : j < k := by omega
          rw [Memory.lookup_eq_none (fun c hc => Nat.lt_trans hlt (hkm c hc))] at hj
          exact absurd hj (by simp)
      subst e
      rw [if_pos rfl] at hk
      have hv : u = v := Option.some.inj hk
      subst hv
      have hrest : m = n := by
        refine ih (List.pairwise_cons.1 hm).2 (List.pairwise_cons.1 hn).2 (fun a => ?_)
        have ha := h a
        simp only [Memory.lookup_cons] at ha
        by_cases e : j = a
        · subst e
          rw [Memory.lookup_eq_none hkm, Memory.lookup_eq_none hjn]
        · rwa [if_neg e, if_neg e] at ha
      rw [hrest]

end Sys2Proof.Machine
end

