-- ==== Sys2Proof/Laws/State.lean ====
section
/-! SUPPORT. What each named state update leaves in each field, so that no later proof unfolds a record update. -/

namespace Sys2Proof.Machine

variable (s : State)

/-! ### The three ways a command ends are one update (R203) -/

@[simp] theorem State.complete_eq : s.complete = s.finish .ok 0#32 := rfl
@[simp] theorem State.raise_eq (e : ErrCode) (info : Word) : s.raise e info = s.finish e info := rfl
@[simp] theorem State.report_eq (e : ErrCode) (info : Word) : s.report e info = s.finish e info := rfl
@[simp] theorem State.illegal_eq (w : Word) : s.illegal w = s.finish .illegalCommand w := rfl

/-! ### setReg -/

@[simp] theorem State.setReg_x (i : Reg) (v : Word) : (s.setReg i v).x = s.x.set i v := rfl
@[simp] theorem State.setReg_inflight (i : Reg) (v : Word) : (s.setReg i v).inflight = s.inflight := rfl
@[simp] theorem State.setReg_imgValid (i : Reg) (v : Word) : (s.setReg i v).imgValid = s.imgValid := rfl
@[simp] theorem State.setReg_histValid (i : Reg) (v : Word) : (s.setReg i v).histValid = s.histValid := rfl
@[simp] theorem State.setReg_empty (i : Reg) (v : Word) : (s.setReg i v).empty = s.empty := rfl
@[simp] theorem State.setReg_lost (i : Reg) (v : Word) : (s.setReg i v).lost = s.lost := rfl
@[simp] theorem State.setReg_err (i : Reg) (v : Word) : (s.setReg i v).err = s.err := rfl
@[simp] theorem State.setReg_errInfo (i : Reg) (v : Word) : (s.setReg i v).errInfo = s.errInfo := rfl
@[simp] theorem State.setReg_imgW (i : Reg) (v : Word) : (s.setReg i v).imgW = s.imgW := rfl
@[simp] theorem State.setReg_imgH (i : Reg) (v : Word) : (s.setReg i v).imgH = s.imgH := rfl
@[simp] theorem State.setReg_cumCnt (i : Reg) (v : Word) : (s.setReg i v).cumCnt = s.cumCnt := rfl
@[simp] theorem State.setReg_dec (i : Reg) (v : Word) : (s.setReg i v).dec = s.dec := rfl
@[simp] theorem State.setReg_pix (i : Reg) (v : Word) : (s.setReg i v).pix = s.pix := rfl
@[simp] theorem State.setReg_src (i : Reg) (v : Word) : (s.setReg i v).src = s.src := rfl
@[simp] theorem State.setReg_disp (i : Reg) (v : Word) : (s.setReg i v).disp = s.disp := rfl
@[simp] theorem State.setReg_hist (i : Reg) (v : Word) : (s.setReg i v).hist = s.hist := rfl
@[simp] theorem State.setReg_inReset (i : Reg) (v : Word) : (s.setReg i v).inReset = s.inReset := rfl
@[simp] theorem State.setReg_maxPixels (i : Reg) (v : Word) : (s.setReg i v).maxPixels = s.maxPixels := rfl
@[simp] theorem State.setReg_events (i : Reg) (v : Word) : (s.setReg i v).events = s.events := rfl
@[simp] theorem State.setReg_responses (i : Reg) (v : Word) : (s.setReg i v).responses = s.responses := rfl
@[simp] theorem State.setReg_epoch (i : Reg) (v : Word) : (s.setReg i v).epoch = s.epoch := rfl
@[simp] theorem State.setReg_draws (i : Reg) (v : Word) : (s.setReg i v).draws = s.draws := rfl

/-! ### fillPix -/

@[simp] theorem State.fillPix_x (n : Nat) (f : Nat → Word) : (s.fillPix n f).x = s.x := rfl
@[simp] theorem State.fillPix_inflight (n : Nat) (f : Nat → Word) : (s.fillPix n f).inflight = s.inflight := rfl
@[simp] theorem State.fillPix_imgValid (n : Nat) (f : Nat → Word) : (s.fillPix n f).imgValid = s.imgValid := rfl
@[simp] theorem State.fillPix_histValid (n : Nat) (f : Nat → Word) : (s.fillPix n f).histValid = s.histValid := rfl
@[simp] theorem State.fillPix_empty (n : Nat) (f : Nat → Word) : (s.fillPix n f).empty = s.empty := rfl
@[simp] theorem State.fillPix_lost (n : Nat) (f : Nat → Word) : (s.fillPix n f).lost = s.lost := rfl
@[simp] theorem State.fillPix_err (n : Nat) (f : Nat → Word) : (s.fillPix n f).err = s.err := rfl
@[simp] theorem State.fillPix_errInfo (n : Nat) (f : Nat → Word) : (s.fillPix n f).errInfo = s.errInfo := rfl
@[simp] theorem State.fillPix_imgW (n : Nat) (f : Nat → Word) : (s.fillPix n f).imgW = s.imgW := rfl
@[simp] theorem State.fillPix_imgH (n : Nat) (f : Nat → Word) : (s.fillPix n f).imgH = s.imgH := rfl
@[simp] theorem State.fillPix_cumCnt (n : Nat) (f : Nat → Word) : (s.fillPix n f).cumCnt = s.cumCnt := rfl
@[simp] theorem State.fillPix_dec (n : Nat) (f : Nat → Word) : (s.fillPix n f).dec = s.dec := rfl
@[simp] theorem State.fillPix_pix (n : Nat) (f : Nat → Word) : (s.fillPix n f).pix = Memory.fill s.pix n f := rfl
@[simp] theorem State.fillPix_src (n : Nat) (f : Nat → Word) : (s.fillPix n f).src = s.src := rfl
@[simp] theorem State.fillPix_disp (n : Nat) (f : Nat → Word) : (s.fillPix n f).disp = s.disp := rfl
@[simp] theorem State.fillPix_hist (n : Nat) (f : Nat → Word) : (s.fillPix n f).hist = s.hist := rfl
@[simp] theorem State.fillPix_inReset (n : Nat) (f : Nat → Word) : (s.fillPix n f).inReset = s.inReset := rfl
@[simp] theorem State.fillPix_maxPixels (n : Nat) (f : Nat → Word) : (s.fillPix n f).maxPixels = s.maxPixels := rfl
@[simp] theorem State.fillPix_events (n : Nat) (f : Nat → Word) : (s.fillPix n f).events = s.events := rfl
@[simp] theorem State.fillPix_responses (n : Nat) (f : Nat → Word) : (s.fillPix n f).responses = s.responses := rfl
@[simp] theorem State.fillPix_epoch (n : Nat) (f : Nat → Word) : (s.fillPix n f).epoch = s.epoch := rfl
@[simp] theorem State.fillPix_draws (n : Nat) (f : Nat → Word) : (s.fillPix n f).draws = s.draws := rfl

/-! ### fillDisp -/

@[simp] theorem State.fillDisp_x (n : Nat) (f : Nat → Word) : (s.fillDisp n f).x = s.x := rfl
@[simp] theorem State.fillDisp_inflight (n : Nat) (f : Nat → Word) : (s.fillDisp n f).inflight = s.inflight := rfl
@[simp] theorem State.fillDisp_imgValid (n : Nat) (f : Nat → Word) : (s.fillDisp n f).imgValid = s.imgValid := rfl
@[simp] theorem State.fillDisp_histValid (n : Nat) (f : Nat → Word) : (s.fillDisp n f).histValid = s.histValid := rfl
@[simp] theorem State.fillDisp_empty (n : Nat) (f : Nat → Word) : (s.fillDisp n f).empty = s.empty := rfl
@[simp] theorem State.fillDisp_lost (n : Nat) (f : Nat → Word) : (s.fillDisp n f).lost = s.lost := rfl
@[simp] theorem State.fillDisp_err (n : Nat) (f : Nat → Word) : (s.fillDisp n f).err = s.err := rfl
@[simp] theorem State.fillDisp_errInfo (n : Nat) (f : Nat → Word) : (s.fillDisp n f).errInfo = s.errInfo := rfl
@[simp] theorem State.fillDisp_imgW (n : Nat) (f : Nat → Word) : (s.fillDisp n f).imgW = s.imgW := rfl
@[simp] theorem State.fillDisp_imgH (n : Nat) (f : Nat → Word) : (s.fillDisp n f).imgH = s.imgH := rfl
@[simp] theorem State.fillDisp_cumCnt (n : Nat) (f : Nat → Word) : (s.fillDisp n f).cumCnt = s.cumCnt := rfl
@[simp] theorem State.fillDisp_dec (n : Nat) (f : Nat → Word) : (s.fillDisp n f).dec = s.dec := rfl
@[simp] theorem State.fillDisp_pix (n : Nat) (f : Nat → Word) : (s.fillDisp n f).pix = s.pix := rfl
@[simp] theorem State.fillDisp_src (n : Nat) (f : Nat → Word) : (s.fillDisp n f).src = s.src := rfl
@[simp] theorem State.fillDisp_disp (n : Nat) (f : Nat → Word) : (s.fillDisp n f).disp = Memory.fill s.disp n f := rfl
@[simp] theorem State.fillDisp_hist (n : Nat) (f : Nat → Word) : (s.fillDisp n f).hist = s.hist := rfl
@[simp] theorem State.fillDisp_inReset (n : Nat) (f : Nat → Word) : (s.fillDisp n f).inReset = s.inReset := rfl
@[simp] theorem State.fillDisp_maxPixels (n : Nat) (f : Nat → Word) : (s.fillDisp n f).maxPixels = s.maxPixels := rfl
@[simp] theorem State.fillDisp_events (n : Nat) (f : Nat → Word) : (s.fillDisp n f).events = s.events := rfl
@[simp] theorem State.fillDisp_responses (n : Nat) (f : Nat → Word) : (s.fillDisp n f).responses = s.responses := rfl
@[simp] theorem State.fillDisp_epoch (n : Nat) (f : Nat → Word) : (s.fillDisp n f).epoch = s.epoch := rfl
@[simp] theorem State.fillDisp_draws (n : Nat) (f : Nat → Word) : (s.fillDisp n f).draws = s.draws := rfl

/-! ### writeSrc -/

@[simp] theorem State.writeSrc_x (a : Nat) (v : Byte) : (s.writeSrc a v).x = s.x := rfl
@[simp] theorem State.writeSrc_inflight (a : Nat) (v : Byte) : (s.writeSrc a v).inflight = s.inflight := rfl
@[simp] theorem State.writeSrc_imgValid (a : Nat) (v : Byte) : (s.writeSrc a v).imgValid = s.imgValid := rfl
@[simp] theorem State.writeSrc_histValid (a : Nat) (v : Byte) : (s.writeSrc a v).histValid = s.histValid := rfl
@[simp] theorem State.writeSrc_empty (a : Nat) (v : Byte) : (s.writeSrc a v).empty = s.empty := rfl
@[simp] theorem State.writeSrc_lost (a : Nat) (v : Byte) : (s.writeSrc a v).lost = s.lost := rfl
@[simp] theorem State.writeSrc_err (a : Nat) (v : Byte) : (s.writeSrc a v).err = s.err := rfl
@[simp] theorem State.writeSrc_errInfo (a : Nat) (v : Byte) : (s.writeSrc a v).errInfo = s.errInfo := rfl
@[simp] theorem State.writeSrc_imgW (a : Nat) (v : Byte) : (s.writeSrc a v).imgW = s.imgW := rfl
@[simp] theorem State.writeSrc_imgH (a : Nat) (v : Byte) : (s.writeSrc a v).imgH = s.imgH := rfl
@[simp] theorem State.writeSrc_cumCnt (a : Nat) (v : Byte) : (s.writeSrc a v).cumCnt = s.cumCnt := rfl
@[simp] theorem State.writeSrc_dec (a : Nat) (v : Byte) : (s.writeSrc a v).dec = s.dec := rfl
@[simp] theorem State.writeSrc_pix (a : Nat) (v : Byte) : (s.writeSrc a v).pix = s.pix := rfl
@[simp] theorem State.writeSrc_src (a : Nat) (v : Byte) : (s.writeSrc a v).src = Memory.write s.src a v := rfl
@[simp] theorem State.writeSrc_disp (a : Nat) (v : Byte) : (s.writeSrc a v).disp = s.disp := rfl
@[simp] theorem State.writeSrc_hist (a : Nat) (v : Byte) : (s.writeSrc a v).hist = s.hist := rfl
@[simp] theorem State.writeSrc_inReset (a : Nat) (v : Byte) : (s.writeSrc a v).inReset = s.inReset := rfl
@[simp] theorem State.writeSrc_maxPixels (a : Nat) (v : Byte) : (s.writeSrc a v).maxPixels = s.maxPixels := rfl
@[simp] theorem State.writeSrc_events (a : Nat) (v : Byte) : (s.writeSrc a v).events = s.events := rfl
@[simp] theorem State.writeSrc_responses (a : Nat) (v : Byte) : (s.writeSrc a v).responses = s.responses := rfl
@[simp] theorem State.writeSrc_epoch (a : Nat) (v : Byte) : (s.writeSrc a v).epoch = s.epoch := rfl
@[simp] theorem State.writeSrc_draws (a : Nat) (v : Byte) : (s.writeSrc a v).draws = s.draws := rfl

/-! ### setDims -/

@[simp] theorem State.setDims_x (w h : Word) : (s.setDims w h).x = s.x := rfl
@[simp] theorem State.setDims_inflight (w h : Word) : (s.setDims w h).inflight = s.inflight := rfl
@[simp] theorem State.setDims_imgValid (w h : Word) : (s.setDims w h).imgValid = true := rfl
@[simp] theorem State.setDims_histValid (w h : Word) : (s.setDims w h).histValid = s.histValid := rfl
@[simp] theorem State.setDims_empty (w h : Word) : (s.setDims w h).empty = s.empty := rfl
@[simp] theorem State.setDims_lost (w h : Word) : (s.setDims w h).lost = s.lost := rfl
@[simp] theorem State.setDims_err (w h : Word) : (s.setDims w h).err = s.err := rfl
@[simp] theorem State.setDims_errInfo (w h : Word) : (s.setDims w h).errInfo = s.errInfo := rfl
@[simp] theorem State.setDims_imgW (w h : Word) : (s.setDims w h).imgW = w := rfl
@[simp] theorem State.setDims_imgH (w h : Word) : (s.setDims w h).imgH = h := rfl
@[simp] theorem State.setDims_cumCnt (w h : Word) : (s.setDims w h).cumCnt = s.cumCnt := rfl
@[simp] theorem State.setDims_dec (w h : Word) : (s.setDims w h).dec = s.dec := rfl
@[simp] theorem State.setDims_pix (w h : Word) : (s.setDims w h).pix = s.pix := rfl
@[simp] theorem State.setDims_src (w h : Word) : (s.setDims w h).src = s.src := rfl
@[simp] theorem State.setDims_disp (w h : Word) : (s.setDims w h).disp = s.disp := rfl
@[simp] theorem State.setDims_hist (w h : Word) : (s.setDims w h).hist = s.hist := rfl
@[simp] theorem State.setDims_inReset (w h : Word) : (s.setDims w h).inReset = s.inReset := rfl
@[simp] theorem State.setDims_maxPixels (w h : Word) : (s.setDims w h).maxPixels = s.maxPixels := rfl
@[simp] theorem State.setDims_events (w h : Word) : (s.setDims w h).events = s.events := rfl
@[simp] theorem State.setDims_responses (w h : Word) : (s.setDims w h).responses = s.responses := rfl
@[simp] theorem State.setDims_epoch (w h : Word) : (s.setDims w h).epoch = s.epoch := rfl
@[simp] theorem State.setDims_draws (w h : Word) : (s.setDims w h).draws = s.draws := rfl

/-! ### setEmpty -/

@[simp] theorem State.setEmpty_x (b : Bool) : (s.setEmpty b).x = s.x := rfl
@[simp] theorem State.setEmpty_inflight (b : Bool) : (s.setEmpty b).inflight = s.inflight := rfl
@[simp] theorem State.setEmpty_imgValid (b : Bool) : (s.setEmpty b).imgValid = s.imgValid := rfl
@[simp] theorem State.setEmpty_histValid (b : Bool) : (s.setEmpty b).histValid = s.histValid := rfl
@[simp] theorem State.setEmpty_empty (b : Bool) : (s.setEmpty b).empty = b := rfl
@[simp] theorem State.setEmpty_lost (b : Bool) : (s.setEmpty b).lost = s.lost := rfl
@[simp] theorem State.setEmpty_err (b : Bool) : (s.setEmpty b).err = s.err := rfl
@[simp] theorem State.setEmpty_errInfo (b : Bool) : (s.setEmpty b).errInfo = s.errInfo := rfl
@[simp] theorem State.setEmpty_imgW (b : Bool) : (s.setEmpty b).imgW = s.imgW := rfl
@[simp] theorem State.setEmpty_imgH (b : Bool) : (s.setEmpty b).imgH = s.imgH := rfl
@[simp] theorem State.setEmpty_cumCnt (b : Bool) : (s.setEmpty b).cumCnt = s.cumCnt := rfl
@[simp] theorem State.setEmpty_dec (b : Bool) : (s.setEmpty b).dec = s.dec := rfl
@[simp] theorem State.setEmpty_pix (b : Bool) : (s.setEmpty b).pix = s.pix := rfl
@[simp] theorem State.setEmpty_src (b : Bool) : (s.setEmpty b).src = s.src := rfl
@[simp] theorem State.setEmpty_disp (b : Bool) : (s.setEmpty b).disp = s.disp := rfl
@[simp] theorem State.setEmpty_hist (b : Bool) : (s.setEmpty b).hist = s.hist := rfl
@[simp] theorem State.setEmpty_inReset (b : Bool) : (s.setEmpty b).inReset = s.inReset := rfl
@[simp] theorem State.setEmpty_maxPixels (b : Bool) : (s.setEmpty b).maxPixels = s.maxPixels := rfl
@[simp] theorem State.setEmpty_events (b : Bool) : (s.setEmpty b).events = s.events := rfl
@[simp] theorem State.setEmpty_responses (b : Bool) : (s.setEmpty b).responses = s.responses := rfl
@[simp] theorem State.setEmpty_epoch (b : Bool) : (s.setEmpty b).epoch = s.epoch := rfl
@[simp] theorem State.setEmpty_draws (b : Bool) : (s.setEmpty b).draws = s.draws := rfl

/-! ### setBuilt -/

@[simp] theorem State.setBuilt_x (h : PerChannel Bins) : (s.setBuilt h).x = s.x := rfl
@[simp] theorem State.setBuilt_inflight (h : PerChannel Bins) : (s.setBuilt h).inflight = s.inflight := rfl
@[simp] theorem State.setBuilt_imgValid (h : PerChannel Bins) : (s.setBuilt h).imgValid = s.imgValid := rfl
@[simp] theorem State.setBuilt_histValid (h : PerChannel Bins) : (s.setBuilt h).histValid = true := rfl
@[simp] theorem State.setBuilt_empty (h : PerChannel Bins) : (s.setBuilt h).empty = s.empty := rfl
@[simp] theorem State.setBuilt_lost (h : PerChannel Bins) : (s.setBuilt h).lost = s.lost := rfl
@[simp] theorem State.setBuilt_err (h : PerChannel Bins) : (s.setBuilt h).err = s.err := rfl
@[simp] theorem State.setBuilt_errInfo (h : PerChannel Bins) : (s.setBuilt h).errInfo = s.errInfo := rfl
@[simp] theorem State.setBuilt_imgW (h : PerChannel Bins) : (s.setBuilt h).imgW = s.imgW := rfl
@[simp] theorem State.setBuilt_imgH (h : PerChannel Bins) : (s.setBuilt h).imgH = s.imgH := rfl
@[simp] theorem State.setBuilt_cumCnt (h : PerChannel Bins) : (s.setBuilt h).cumCnt = ⟨0#2, 0#2, 0#2⟩ := rfl
@[simp] theorem State.setBuilt_dec (h : PerChannel Bins) : (s.setBuilt h).dec = s.dec := rfl
@[simp] theorem State.setBuilt_pix (h : PerChannel Bins) : (s.setBuilt h).pix = s.pix := rfl
@[simp] theorem State.setBuilt_src (h : PerChannel Bins) : (s.setBuilt h).src = s.src := rfl
@[simp] theorem State.setBuilt_disp (h : PerChannel Bins) : (s.setBuilt h).disp = s.disp := rfl
@[simp] theorem State.setBuilt_hist (h : PerChannel Bins) : (s.setBuilt h).hist = h := rfl
@[simp] theorem State.setBuilt_inReset (h : PerChannel Bins) : (s.setBuilt h).inReset = s.inReset := rfl
@[simp] theorem State.setBuilt_maxPixels (h : PerChannel Bins) : (s.setBuilt h).maxPixels = s.maxPixels := rfl
@[simp] theorem State.setBuilt_events (h : PerChannel Bins) : (s.setBuilt h).events = s.events := rfl
@[simp] theorem State.setBuilt_responses (h : PerChannel Bins) : (s.setBuilt h).responses = s.responses := rfl
@[simp] theorem State.setBuilt_epoch (h : PerChannel Bins) : (s.setBuilt h).epoch = s.epoch := rfl
@[simp] theorem State.setBuilt_draws (h : PerChannel Bins) : (s.setBuilt h).draws = s.draws := rfl

/-! ### setCumulated -/

@[simp] theorem State.setCumulated_x (c : Channel) (h : Bins) (n : BitVec 2) : (s.setCumulated c h n).x = s.x := rfl
@[simp] theorem State.setCumulated_inflight (c : Channel) (h : Bins) (n : BitVec 2) : (s.setCumulated c h n).inflight = s.inflight := rfl
@[simp] theorem State.setCumulated_imgValid (c : Channel) (h : Bins) (n : BitVec 2) : (s.setCumulated c h n).imgValid = s.imgValid := rfl
@[simp] theorem State.setCumulated_histValid (c : Channel) (h : Bins) (n : BitVec 2) : (s.setCumulated c h n).histValid = s.histValid := rfl
@[simp] theorem State.setCumulated_empty (c : Channel) (h : Bins) (n : BitVec 2) : (s.setCumulated c h n).empty = s.empty := rfl
@[simp] theorem State.setCumulated_lost (c : Channel) (h : Bins) (n : BitVec 2) : (s.setCumulated c h n).lost = s.lost := rfl
@[simp] theorem State.setCumulated_err (c : Channel) (h : Bins) (n : BitVec 2) : (s.setCumulated c h n).err = s.err := rfl
@[simp] theorem State.setCumulated_errInfo (c : Channel) (h : Bins) (n : BitVec 2) : (s.setCumulated c h n).errInfo = s.errInfo := rfl
@[simp] theorem State.setCumulated_imgW (c : Channel) (h : Bins) (n : BitVec 2) : (s.setCumulated c h n).imgW = s.imgW := rfl
@[simp] theorem State.setCumulated_imgH (c : Channel) (h : Bins) (n : BitVec 2) : (s.setCumulated c h n).imgH = s.imgH := rfl
@[simp] theorem State.setCumulated_cumCnt (c : Channel) (h : Bins) (n : BitVec 2) : (s.setCumulated c h n).cumCnt = s.cumCnt.set c n := rfl
@[simp] theorem State.setCumulated_dec (c : Channel) (h : Bins) (n : BitVec 2) : (s.setCumulated c h n).dec = s.dec := rfl
@[simp] theorem State.setCumulated_pix (c : Channel) (h : Bins) (n : BitVec 2) : (s.setCumulated c h n).pix = s.pix := rfl
@[simp] theorem State.setCumulated_src (c : Channel) (h : Bins) (n : BitVec 2) : (s.setCumulated c h n).src = s.src := rfl
@[simp] theorem State.setCumulated_disp (c : Channel) (h : Bins) (n : BitVec 2) : (s.setCumulated c h n).disp = s.disp := rfl
@[simp] theorem State.setCumulated_hist (c : Channel) (h : Bins) (n : BitVec 2) : (s.setCumulated c h n).hist = s.hist.set c h := rfl
@[simp] theorem State.setCumulated_inReset (c : Channel) (h : Bins) (n : BitVec 2) : (s.setCumulated c h n).inReset = s.inReset := rfl
@[simp] theorem State.setCumulated_maxPixels (c : Channel) (h : Bins) (n : BitVec 2) : (s.setCumulated c h n).maxPixels = s.maxPixels := rfl
@[simp] theorem State.setCumulated_events (c : Channel) (h : Bins) (n : BitVec 2) : (s.setCumulated c h n).events = s.events := rfl
@[simp] theorem State.setCumulated_responses (c : Channel) (h : Bins) (n : BitVec 2) : (s.setCumulated c h n).responses = s.responses := rfl
@[simp] theorem State.setCumulated_epoch (c : Channel) (h : Bins) (n : BitVec 2) : (s.setCumulated c h n).epoch = s.epoch := rfl
@[simp] theorem State.setCumulated_draws (c : Channel) (h : Bins) (n : BitVec 2) : (s.setCumulated c h n).draws = s.draws := rfl

/-! ### finish -/

@[simp] theorem State.finish_x (e : ErrCode) (info : Word) : (s.finish e info).x = s.x := rfl
@[simp] theorem State.finish_inflight (e : ErrCode) (info : Word) : (s.finish e info).inflight = none := rfl
@[simp] theorem State.finish_imgValid (e : ErrCode) (info : Word) : (s.finish e info).imgValid = s.imgValid := rfl
@[simp] theorem State.finish_histValid (e : ErrCode) (info : Word) : (s.finish e info).histValid = s.histValid := rfl
@[simp] theorem State.finish_empty (e : ErrCode) (info : Word) : (s.finish e info).empty = s.empty := rfl
@[simp] theorem State.finish_lost (e : ErrCode) (info : Word) : (s.finish e info).lost = s.lost := rfl
@[simp] theorem State.finish_err (e : ErrCode) (info : Word) : (s.finish e info).err = e := rfl
@[simp] theorem State.finish_errInfo (e : ErrCode) (info : Word) : (s.finish e info).errInfo = info := rfl
@[simp] theorem State.finish_imgW (e : ErrCode) (info : Word) : (s.finish e info).imgW = s.imgW := rfl
@[simp] theorem State.finish_imgH (e : ErrCode) (info : Word) : (s.finish e info).imgH = s.imgH := rfl
@[simp] theorem State.finish_cumCnt (e : ErrCode) (info : Word) : (s.finish e info).cumCnt = s.cumCnt := rfl
@[simp] theorem State.finish_dec (e : ErrCode) (info : Word) : (s.finish e info).dec = s.dec := rfl
@[simp] theorem State.finish_pix (e : ErrCode) (info : Word) : (s.finish e info).pix = s.pix := rfl
@[simp] theorem State.finish_src (e : ErrCode) (info : Word) : (s.finish e info).src = s.src := rfl
@[simp] theorem State.finish_disp (e : ErrCode) (info : Word) : (s.finish e info).disp = s.disp := rfl
@[simp] theorem State.finish_hist (e : ErrCode) (info : Word) : (s.finish e info).hist = s.hist := rfl
@[simp] theorem State.finish_inReset (e : ErrCode) (info : Word) : (s.finish e info).inReset = s.inReset := rfl
@[simp] theorem State.finish_maxPixels (e : ErrCode) (info : Word) : (s.finish e info).maxPixels = s.maxPixels := rfl
@[simp] theorem State.finish_events (e : ErrCode) (info : Word) : (s.finish e info).events = s.events := rfl
@[simp] theorem State.finish_responses (e : ErrCode) (info : Word) : (s.finish e info).responses = s.responses := rfl
@[simp] theorem State.finish_epoch (e : ErrCode) (info : Word) : (s.finish e info).epoch = s.epoch := rfl
@[simp] theorem State.finish_draws (e : ErrCode) (info : Word) : (s.finish e info).draws = s.draws := rfl

/-! ### writeStatus -/

@[simp] theorem State.writeStatus_x (v : Word) : (s.writeStatus v).x = s.x := rfl
@[simp] theorem State.writeStatus_inflight (v : Word) : (s.writeStatus v).inflight = s.inflight := rfl
@[simp] theorem State.writeStatus_imgValid (v : Word) : (s.writeStatus v).imgValid = s.imgValid := rfl
@[simp] theorem State.writeStatus_histValid (v : Word) : (s.writeStatus v).histValid = s.histValid := rfl
@[simp] theorem State.writeStatus_empty (v : Word) : (s.writeStatus v).empty = s.empty := rfl
@[simp] theorem State.writeStatus_lost (v : Word) : (s.writeStatus v).lost = (s.lost && !v.getLsbD 4) := rfl
@[simp] theorem State.writeStatus_err (v : Word) : (s.writeStatus v).err = s.err := rfl
@[simp] theorem State.writeStatus_errInfo (v : Word) : (s.writeStatus v).errInfo = s.errInfo := rfl
@[simp] theorem State.writeStatus_imgW (v : Word) : (s.writeStatus v).imgW = s.imgW := rfl
@[simp] theorem State.writeStatus_imgH (v : Word) : (s.writeStatus v).imgH = s.imgH := rfl
@[simp] theorem State.writeStatus_cumCnt (v : Word) : (s.writeStatus v).cumCnt = s.cumCnt := rfl
@[simp] theorem State.writeStatus_dec (v : Word) : (s.writeStatus v).dec = s.dec := rfl
@[simp] theorem State.writeStatus_pix (v : Word) : (s.writeStatus v).pix = s.pix := rfl
@[simp] theorem State.writeStatus_src (v : Word) : (s.writeStatus v).src = s.src := rfl
@[simp] theorem State.writeStatus_disp (v : Word) : (s.writeStatus v).disp = s.disp := rfl
@[simp] theorem State.writeStatus_hist (v : Word) : (s.writeStatus v).hist = s.hist := rfl
@[simp] theorem State.writeStatus_inReset (v : Word) : (s.writeStatus v).inReset = s.inReset := rfl
@[simp] theorem State.writeStatus_maxPixels (v : Word) : (s.writeStatus v).maxPixels = s.maxPixels := rfl
@[simp] theorem State.writeStatus_events (v : Word) : (s.writeStatus v).events = s.events := rfl
@[simp] theorem State.writeStatus_responses (v : Word) : (s.writeStatus v).responses = s.responses := rfl
@[simp] theorem State.writeStatus_epoch (v : Word) : (s.writeStatus v).epoch = s.epoch := rfl
@[simp] theorem State.writeStatus_draws (v : Word) : (s.writeStatus v).draws = s.draws := rfl

/-! ### drop -/

@[simp] theorem State.drop_x : s.drop.x = s.x := rfl
@[simp] theorem State.drop_inflight : s.drop.inflight = s.inflight := rfl
@[simp] theorem State.drop_imgValid : s.drop.imgValid = s.imgValid := rfl
@[simp] theorem State.drop_histValid : s.drop.histValid = s.histValid := rfl
@[simp] theorem State.drop_empty : s.drop.empty = s.empty := rfl
@[simp] theorem State.drop_lost : s.drop.lost = true := rfl
@[simp] theorem State.drop_err : s.drop.err = s.err := rfl
@[simp] theorem State.drop_errInfo : s.drop.errInfo = s.errInfo := rfl
@[simp] theorem State.drop_imgW : s.drop.imgW = s.imgW := rfl
@[simp] theorem State.drop_imgH : s.drop.imgH = s.imgH := rfl
@[simp] theorem State.drop_cumCnt : s.drop.cumCnt = s.cumCnt := rfl
@[simp] theorem State.drop_dec : s.drop.dec = s.dec := rfl
@[simp] theorem State.drop_pix : s.drop.pix = s.pix := rfl
@[simp] theorem State.drop_src : s.drop.src = s.src := rfl
@[simp] theorem State.drop_disp : s.drop.disp = s.disp := rfl
@[simp] theorem State.drop_hist : s.drop.hist = s.hist := rfl
@[simp] theorem State.drop_inReset : s.drop.inReset = s.inReset := rfl
@[simp] theorem State.drop_maxPixels : s.drop.maxPixels = s.maxPixels := rfl
@[simp] theorem State.drop_events : s.drop.events = s.events := rfl
@[simp] theorem State.drop_responses : s.drop.responses = s.responses := rfl
@[simp] theorem State.drop_epoch : s.drop.epoch = s.epoch := rfl
@[simp] theorem State.drop_draws : s.drop.draws = s.draws := rfl

/-! ### answer -/

@[simp] theorem State.answer_x (a : Access) (r : Reply) : (s.answer a r).x = s.x := rfl
@[simp] theorem State.answer_inflight (a : Access) (r : Reply) : (s.answer a r).inflight = s.inflight := rfl
@[simp] theorem State.answer_imgValid (a : Access) (r : Reply) : (s.answer a r).imgValid = s.imgValid := rfl
@[simp] theorem State.answer_histValid (a : Access) (r : Reply) : (s.answer a r).histValid = s.histValid := rfl
@[simp] theorem State.answer_empty (a : Access) (r : Reply) : (s.answer a r).empty = s.empty := rfl
@[simp] theorem State.answer_lost (a : Access) (r : Reply) : (s.answer a r).lost = s.lost := rfl
@[simp] theorem State.answer_err (a : Access) (r : Reply) : (s.answer a r).err = s.err := rfl
@[simp] theorem State.answer_errInfo (a : Access) (r : Reply) : (s.answer a r).errInfo = s.errInfo := rfl
@[simp] theorem State.answer_imgW (a : Access) (r : Reply) : (s.answer a r).imgW = s.imgW := rfl
@[simp] theorem State.answer_imgH (a : Access) (r : Reply) : (s.answer a r).imgH = s.imgH := rfl
@[simp] theorem State.answer_cumCnt (a : Access) (r : Reply) : (s.answer a r).cumCnt = s.cumCnt := rfl
@[simp] theorem State.answer_dec (a : Access) (r : Reply) : (s.answer a r).dec = s.dec := rfl
@[simp] theorem State.answer_pix (a : Access) (r : Reply) : (s.answer a r).pix = s.pix := rfl
@[simp] theorem State.answer_src (a : Access) (r : Reply) : (s.answer a r).src = s.src := rfl
@[simp] theorem State.answer_disp (a : Access) (r : Reply) : (s.answer a r).disp = s.disp := rfl
@[simp] theorem State.answer_hist (a : Access) (r : Reply) : (s.answer a r).hist = s.hist := rfl
@[simp] theorem State.answer_inReset (a : Access) (r : Reply) : (s.answer a r).inReset = s.inReset := rfl
@[simp] theorem State.answer_maxPixels (a : Access) (r : Reply) : (s.answer a r).maxPixels = s.maxPixels := rfl
@[simp] theorem State.answer_events (a : Access) (r : Reply) : (s.answer a r).events = s.events := rfl
@[simp] theorem State.answer_responses (a : Access) (r : Reply) : (s.answer a r).responses = ⟨a, r⟩ :: s.responses := rfl
@[simp] theorem State.answer_epoch (a : Access) (r : Reply) : (s.answer a r).epoch = s.epoch := rfl
@[simp] theorem State.answer_draws (a : Access) (r : Reply) : (s.answer a r).draws = s.draws := rfl

end Sys2Proof.Machine
end

