-- ==== Sys2Proof/Laws/Ops.lean ====
section
/-! SUPPORT. What the reads of the state give after each named update, and one lemma per shared operation that says everything
it can do. -/

namespace Sys2Proof.Machine

variable (s : State)

/-! ### A read of what the update wrote -/

theorem State.readReg_setReg (i j : Reg) (v : Word) : (s.setReg i v).readReg j = if i = j then v else s.readReg j := by
  simp only [State.readReg, State.setReg_x, Fin.getElem_fin]
  rw [Vector.getElem_set]
  simp only [Fin.ext_iff]

@[simp] theorem State.readReg_setReg_same (i : Reg) (v : Word) : (s.setReg i v).readReg i = v := by
  simp [State.readReg_setReg]

theorem State.readPix_fillPix (n : Nat) (f : Nat → Word) (k : Nat) :
    (s.fillPix n f).readPix k = if k < n then f k else s.readPix k := by
  simp only [State.readPix, State.fillPix_pix, State.fillPix_epoch, Memory.lookup_fill]
  split <;> rfl

theorem State.readDisp_fillDisp (n : Nat) (f : Nat → Word) (k : Nat) :
    (s.fillDisp n f).readDisp k = if k < n then f k else s.readDisp k := by
  simp only [State.readDisp, State.fillDisp_disp, State.fillDisp_epoch, Memory.lookup_fill]
  split <;> rfl

theorem State.readSrc_writeSrc (a b : Nat) (v : Byte) :
    (s.writeSrc a v).readSrc b = if a = b then v else s.readSrc b := by
  simp only [State.readSrc, State.writeSrc_src, State.writeSrc_epoch, Memory.lookup_write]
  split <;> rfl

@[simp] theorem PerChannel.get_set {α : Type} (p : PerChannel α) (c d : Channel) (v : α) :
    (p.set c v).get d = if c = d then v else p.get d := by
  cases c <;> cases d <;> rfl

theorem State.readBin_setBuilt (h : PerChannel Bins) (c : Channel) (i : Nat) :
    (s.setBuilt h).readBin c i = (h.get c).bin i := rfl

theorem State.readBin_setCumulated (c d : Channel) (h : Bins) (m : BitVec 2) (i : Nat) :
    (s.setCumulated c h m).readBin d i = if c = d then h.bin i else s.readBin d i := by
  simp only [State.readBin, State.setCumulated_hist, PerChannel.get_set]
  split <;> rfl

theorem State.numPixels_setDims (w h : Word) : (s.setDims w h).numPixels = w.toNat * h.toNat := rfl

/-! ### Bins -/

theorem Bins.bin_eq_getElem (h : Bins) (i : Nat) (hi : i < 256) : h.bin i = h[i] := by
  simp [Bins.bin, Vector.getD, hi]

theorem Bins.bin_setBin (h : Bins) (i j : Nat) (v : Word) (hi : i < 256) :
    (h.setBin i v).bin j = if i = j then v else h.bin j := by
  by_cases hj : j < 256
  · rw [Bins.bin_eq_getElem _ j hj, Bins.bin_eq_getElem _ j hj]
    exact Vector.getElem_setIfInBounds hj
  · have : i ≠ j := by omega
    simp [Bins.bin, Vector.getD, hj, this]

theorem Bins.bin_zeroBins (i : Nat) : Bins.bin zeroBins i = 0#32 := by
  by_cases hi : i < 256 <;> simp [Bins.bin, zeroBins, Vector.getD, hi]

theorem Bins.ext {h k : Bins} (e : ∀ i, i < 256 → h.bin i = k.bin i) : h = k := by
  refine Vector.ext (fun i hi => ?_)
  rw [← Bins.bin_eq_getElem h i hi, ← Bins.bin_eq_getElem k i hi]
  exact e i hi

/-! ### Groups -/

theorem State.setGroup_eq (q : Group) (v0 v1 v2 v3 : Word) :
    s.setGroup q v0 v1 v2 v3 = { s with x := (s.setGroup q v0 v1 v2 v3).x } := rfl

/-- What each register holds after a group write: the four of the group in order, the others as before (R82, R106). -/
theorem State.readReg_setGroup (q : Group) (v0 v1 v2 v3 : Word) (j : Reg) :
    (s.setGroup q v0 v1 v2 v3).readReg j =
      if groupReg q 0 = j then v0 else if groupReg q 1 = j then v1 else if groupReg q 2 = j then v2
      else if groupReg q 3 = j then v3 else s.readReg j := by
  simp only [State.setGroup, State.readReg_setReg]
  cases q <;> fin_cases j <;> simp [groupReg]

/-! ### Preconditions -/

@[simp] theorem State.require_true (e : ErrCode) (k : State → State) : s.require true e k = k s := rfl
@[simp] theorem State.require_false (e : ErrCode) (k : State → State) : s.require false e k = s.finish e 0#32 := rfl

/-- A command with a precondition either raises its error, with nothing else changed, or goes on. -/
theorem State.require_cases (v : Bool) (e : ErrCode) (k : State → State) :
    (v = false ∧ s.require v e k = s.finish e 0#32) ∨ (v = true ∧ s.require v e k = k s) := by
  cases v
  · exact .inl ⟨rfl, rfl⟩
  · exact .inr ⟨rfl, rfl⟩

/-! ### readReg -/

@[simp] theorem State.readReg_fillPix (n : Nat) (f : Nat → Word) (j : Reg) : (s.fillPix n f).readReg j = s.readReg j := rfl
@[simp] theorem State.readReg_fillDisp (n : Nat) (f : Nat → Word) (j : Reg) : (s.fillDisp n f).readReg j = s.readReg j := rfl
@[simp] theorem State.readReg_writeSrc (a : Nat) (v : Byte) (j : Reg) : (s.writeSrc a v).readReg j = s.readReg j := rfl
@[simp] theorem State.readReg_setDims (w h : Word) (j : Reg) : (s.setDims w h).readReg j = s.readReg j := rfl
@[simp] theorem State.readReg_setEmpty (b : Bool) (j : Reg) : (s.setEmpty b).readReg j = s.readReg j := rfl
@[simp] theorem State.readReg_setBuilt (h : PerChannel Bins) (j : Reg) : (s.setBuilt h).readReg j = s.readReg j := rfl
@[simp] theorem State.readReg_setCumulated (c : Channel) (h : Bins) (m : BitVec 2) (j : Reg) : (s.setCumulated c h m).readReg j = s.readReg j := rfl
@[simp] theorem State.readReg_finish (e : ErrCode) (info : Word) (j : Reg) : (s.finish e info).readReg j = s.readReg j := rfl
@[simp] theorem State.readReg_writeStatus (v : Word) (j : Reg) : (s.writeStatus v).readReg j = s.readReg j := rfl
@[simp] theorem State.readReg_drop (j : Reg) : s.drop.readReg j = s.readReg j := rfl
@[simp] theorem State.readReg_answer (a : Access) (r : Reply) (j : Reg) : (s.answer a r).readReg j = s.readReg j := rfl

/-! ### readPix -/

@[simp] theorem State.readPix_setReg (i : Reg) (v : Word) (k : Nat) : (s.setReg i v).readPix k = s.readPix k := rfl
@[simp] theorem State.readPix_fillDisp (n : Nat) (f : Nat → Word) (k : Nat) : (s.fillDisp n f).readPix k = s.readPix k := rfl
@[simp] theorem State.readPix_writeSrc (a : Nat) (v : Byte) (k : Nat) : (s.writeSrc a v).readPix k = s.readPix k := rfl
@[simp] theorem State.readPix_setDims (w h : Word) (k : Nat) : (s.setDims w h).readPix k = s.readPix k := rfl
@[simp] theorem State.readPix_setEmpty (b : Bool) (k : Nat) : (s.setEmpty b).readPix k = s.readPix k := rfl
@[simp] theorem State.readPix_setBuilt (h : PerChannel Bins) (k : Nat) : (s.setBuilt h).readPix k = s.readPix k := rfl
@[simp] theorem State.readPix_setCumulated (c : Channel) (h : Bins) (m : BitVec 2) (k : Nat) : (s.setCumulated c h m).readPix k = s.readPix k := rfl
@[simp] theorem State.readPix_finish (e : ErrCode) (info : Word) (k : Nat) : (s.finish e info).readPix k = s.readPix k := rfl
@[simp] theorem State.readPix_writeStatus (v : Word) (k : Nat) : (s.writeStatus v).readPix k = s.readPix k := rfl
@[simp] theorem State.readPix_drop (k : Nat) : s.drop.readPix k = s.readPix k := rfl
@[simp] theorem State.readPix_answer (a : Access) (r : Reply) (k : Nat) : (s.answer a r).readPix k = s.readPix k := rfl

/-! ### readSrc -/

@[simp] theorem State.readSrc_setReg (i : Reg) (v : Word) (k : Nat) : (s.setReg i v).readSrc k = s.readSrc k := rfl
@[simp] theorem State.readSrc_fillPix (n : Nat) (f : Nat → Word) (k : Nat) : (s.fillPix n f).readSrc k = s.readSrc k := rfl
@[simp] theorem State.readSrc_fillDisp (n : Nat) (f : Nat → Word) (k : Nat) : (s.fillDisp n f).readSrc k = s.readSrc k := rfl
@[simp] theorem State.readSrc_setDims (w h : Word) (k : Nat) : (s.setDims w h).readSrc k = s.readSrc k := rfl
@[simp] theorem State.readSrc_setEmpty (b : Bool) (k : Nat) : (s.setEmpty b).readSrc k = s.readSrc k := rfl
@[simp] theorem State.readSrc_setBuilt (h : PerChannel Bins) (k : Nat) : (s.setBuilt h).readSrc k = s.readSrc k := rfl
@[simp] theorem State.readSrc_setCumulated (c : Channel) (h : Bins) (m : BitVec 2) (k : Nat) : (s.setCumulated c h m).readSrc k = s.readSrc k := rfl
@[simp] theorem State.readSrc_finish (e : ErrCode) (info : Word) (k : Nat) : (s.finish e info).readSrc k = s.readSrc k := rfl
@[simp] theorem State.readSrc_writeStatus (v : Word) (k : Nat) : (s.writeStatus v).readSrc k = s.readSrc k := rfl
@[simp] theorem State.readSrc_drop (k : Nat) : s.drop.readSrc k = s.readSrc k := rfl
@[simp] theorem State.readSrc_answer (a : Access) (r : Reply) (k : Nat) : (s.answer a r).readSrc k = s.readSrc k := rfl

/-! ### readDisp -/

@[simp] theorem State.readDisp_setReg (i : Reg) (v : Word) (k : Nat) : (s.setReg i v).readDisp k = s.readDisp k := rfl
@[simp] theorem State.readDisp_fillPix (n : Nat) (f : Nat → Word) (k : Nat) : (s.fillPix n f).readDisp k = s.readDisp k := rfl
@[simp] theorem State.readDisp_writeSrc (a : Nat) (v : Byte) (k : Nat) : (s.writeSrc a v).readDisp k = s.readDisp k := rfl
@[simp] theorem State.readDisp_setDims (w h : Word) (k : Nat) : (s.setDims w h).readDisp k = s.readDisp k := rfl
@[simp] theorem State.readDisp_setEmpty (b : Bool) (k : Nat) : (s.setEmpty b).readDisp k = s.readDisp k := rfl
@[simp] theorem State.readDisp_setBuilt (h : PerChannel Bins) (k : Nat) : (s.setBuilt h).readDisp k = s.readDisp k := rfl
@[simp] theorem State.readDisp_setCumulated (c : Channel) (h : Bins) (m : BitVec 2) (k : Nat) : (s.setCumulated c h m).readDisp k = s.readDisp k := rfl
@[simp] theorem State.readDisp_finish (e : ErrCode) (info : Word) (k : Nat) : (s.finish e info).readDisp k = s.readDisp k := rfl
@[simp] theorem State.readDisp_writeStatus (v : Word) (k : Nat) : (s.writeStatus v).readDisp k = s.readDisp k := rfl
@[simp] theorem State.readDisp_drop (k : Nat) : s.drop.readDisp k = s.readDisp k := rfl
@[simp] theorem State.readDisp_answer (a : Access) (r : Reply) (k : Nat) : (s.answer a r).readDisp k = s.readDisp k := rfl

/-! ### readBin -/

@[simp] theorem State.readBin_setReg (i : Reg) (v : Word) (d : Channel) (k : Nat) : (s.setReg i v).readBin d k = s.readBin d k := rfl
@[simp] theorem State.readBin_fillPix (n : Nat) (f : Nat → Word) (d : Channel) (k : Nat) : (s.fillPix n f).readBin d k = s.readBin d k := rfl
@[simp] theorem State.readBin_fillDisp (n : Nat) (f : Nat → Word) (d : Channel) (k : Nat) : (s.fillDisp n f).readBin d k = s.readBin d k := rfl
@[simp] theorem State.readBin_writeSrc (a : Nat) (v : Byte) (d : Channel) (k : Nat) : (s.writeSrc a v).readBin d k = s.readBin d k := rfl
@[simp] theorem State.readBin_setDims (w h : Word) (d : Channel) (k : Nat) : (s.setDims w h).readBin d k = s.readBin d k := rfl
@[simp] theorem State.readBin_setEmpty (b : Bool) (d : Channel) (k : Nat) : (s.setEmpty b).readBin d k = s.readBin d k := rfl
@[simp] theorem State.readBin_finish (e : ErrCode) (info : Word) (d : Channel) (k : Nat) : (s.finish e info).readBin d k = s.readBin d k := rfl
@[simp] theorem State.readBin_writeStatus (v : Word) (d : Channel) (k : Nat) : (s.writeStatus v).readBin d k = s.readBin d k := rfl
@[simp] theorem State.readBin_drop (d : Channel) (k : Nat) : s.drop.readBin d k = s.readBin d k := rfl
@[simp] theorem State.readBin_answer (a : Access) (r : Reply) (d : Channel) (k : Nat) : (s.answer a r).readBin d k = s.readBin d k := rfl

/-! ### numPixels -/

@[simp] theorem State.numPixels_setReg (i : Reg) (v : Word) : (s.setReg i v).numPixels = s.numPixels := rfl
@[simp] theorem State.numPixels_fillPix (n : Nat) (f : Nat → Word) : (s.fillPix n f).numPixels = s.numPixels := rfl
@[simp] theorem State.numPixels_fillDisp (n : Nat) (f : Nat → Word) : (s.fillDisp n f).numPixels = s.numPixels := rfl
@[simp] theorem State.numPixels_writeSrc (a : Nat) (v : Byte) : (s.writeSrc a v).numPixels = s.numPixels := rfl
@[simp] theorem State.numPixels_setEmpty (b : Bool) : (s.setEmpty b).numPixels = s.numPixels := rfl
@[simp] theorem State.numPixels_setBuilt (h : PerChannel Bins) : (s.setBuilt h).numPixels = s.numPixels := rfl
@[simp] theorem State.numPixels_setCumulated (c : Channel) (h : Bins) (m : BitVec 2) : (s.setCumulated c h m).numPixels = s.numPixels := rfl
@[simp] theorem State.numPixels_finish (e : ErrCode) (info : Word) : (s.finish e info).numPixels = s.numPixels := rfl
@[simp] theorem State.numPixels_writeStatus (v : Word) : (s.writeStatus v).numPixels = s.numPixels := rfl
@[simp] theorem State.numPixels_drop : s.drop.numPixels = s.numPixels := rfl
@[simp] theorem State.numPixels_answer (a : Access) (r : Reply) : (s.answer a r).numPixels = s.numPixels := rfl

end Sys2Proof.Machine
end

