-- ==== Sys2Proof/Laws/Bus.lean ====
section
/-! SUPPORT. What the bus does with an access: which accesses are refused, what a served access leaves, and the bits of the
STATUS, HSTAT and decoder port words. -/

namespace Sys2Proof.Machine

/-! ### STATUS (R26) -/

/-- Each bit of the STATUS word, by the field that holds it. -/
theorem State.statusWord_getLsbD (s : State) (i : Nat) : s.statusWord.getLsbD i =
    if i = 0 then s.busy else if i = 1 then s.imgValid else if i = 2 then s.histValid else if i = 3 then s.empty
    else if i = 4 then s.lost else if i < 8 then false else if i < 12 then s.err.code.getLsbD (i - 8) else false := by
  by_cases hi : i < 32
  · simp only [State.statusWord, BitVec.getLsbD_append, BitVec.getLsbD_ofBool]
    interval_cases i <;> simp
  · rw [BitVec.getLsbD_of_ge _ _ (by omega)]
    repeat' rw [if_neg (by omega)]

/-! ### HSTAT and the decoder port (R35, R36) -/

/-- The cumulate counts, where R35 places them in the HSTAT word. -/
theorem State.hstatWord_fields (s : State) : s.hstatWord.extractLsb' 0 2 = s.cumCnt.r ∧ s.hstatWord.extractLsb' 2 2 = s.cumCnt.g ∧
    s.hstatWord.extractLsb' 4 2 = s.cumCnt.b ∧ s.hstatWord.extractLsb' 6 26 = 0#26 := by
  refine ⟨?_, ?_, ?_, ?_⟩ <;>
    · apply BitVec.eq_of_getLsbD_eq
      intro i hi
      simp only [State.hstatWord, BitVec.getLsbD_extractLsb', BitVec.getLsbD_append]
      interval_cases i <;> simp

/-- A written DEC_CTRL reads back without its reserved bits (R36, R43). -/
theorem DecPort.ctrlWord_setCtrl (d : DecPort) (v : Word) : (d.setCtrl v).ctrlWord = v &&& 0xFFFFFF01#32 := by
  apply BitVec.eq_of_getLsbD_eq
  intro i hi
  simp only [DecPort.setCtrl, DecPort.ctrlWord, BitVec.getLsbD_append, BitVec.getLsbD_and, BitVec.getLsbD_extractLsb',
    BitVec.getLsbD_ofBool]
  interval_cases i <;> simp

/-- A written DEC_LAYOUT reads back without its reserved bits (R36, R43). -/
theorem DecPort.layoutWord_setLayout (d : DecPort) (v : Word) : (d.setLayout v).layoutWord = v &&& 1#32 := by
  apply BitVec.eq_of_getLsbD_eq
  intro i hi
  simp only [DecPort.setLayout, DecPort.layoutWord]
  cases h : v.getLsbD 0 <;> simp only [if_true, if_false, Bool.false_eq_true] <;>
    interval_cases i <;> simp [-BitVec.getLsbD_eq_getElem, h]

/-! ### Refused accesses (R63) -/

theorem regAt_eq_none {a : Nat} : regAt a = none ↔ a % 4 ≠ 0 ∨ 0x54 ≤ a ∨ a = 0x18 ∨ a = 0x1C := by
  by_cases h : a < 0x54
  · interval_cases a <;> simp [regAt]
  · have : regAt a = none := by
      unfold regAt
      split <;> first | omega | rfl
    simp only [this, true_iff]
    omega

theorem regAt_eq_status {a : Nat} : regAt a = some .status ↔ a = 0x04 := by
  constructor
  · intro h
    revert h
    unfold regAt
    split <;> simp
  · rintro rfl
    rfl

theorem regAt_x (i : Reg) : regAt (0x20 + 4 * i.val) = some (.x i) := by
  fin_cases i <;> rfl

/-- The bus refuses exactly the accesses R63 lists. -/
theorem Access.refused_iff (m : Nat) (a : Access) : a.refused m = true ↔ a.MustRefuse m := by
  obtain ⟨ag, sp, ad, sz, d⟩ := a
  simp only [Access.refused, Access.MustRefuse, Bool.or_eq_true, Bool.and_eq_true, decide_eq_true_eq, regAt_eq_none]
  cases sp <;> cases d <;> cases sz <;>
    simp only [Space.bytes, Size.bytes, Direction.isWrite, reduceCtorEq, false_and, true_and, ne_eq,
      not_true_eq_false, false_or, or_false, not_false_eq_true, Bool.false_eq_true, exists_false, Direction.write.injEq,
      exists_eq', Nat.mod_one, and_false, true_or, or_true]
  all_goals omega

theorem Access.refused_eq_false {m : Nat} {a : Access} : a.refused m = false ↔ ¬ a.MustRefuse m := by
  rw [← Access.refused_iff, Bool.not_eq_true]

/-! ### Serving an access -/

/-- A refused access, or one while reset is asserted: the bus error is recorded and nothing else happens. -/
theorem State.serve_refused {s : State} {a : Access} (h : s.inReset = true ∨ a.MustRefuse s.maxPixels) :
    s.serve a = s.answer a .busError := by
  have : (s.inReset || a.refused s.maxPixels) = true := by
    rw [Bool.or_eq_true, Access.refused_iff]
    exact h
  rw [State.serve, if_pos this]

/-- A served access with BUSY = 0. -/
theorem State.serve_idle {s : State} {a : Access} (hr : s.inReset = false) (h : ¬ a.MustRefuse s.maxPixels)
    (hb : s.inflight = none) :
    s.serve a = match a.dir with
      | .read => s.answer a (.data (s.memRead a.space a.addr a.size))
      | .write v => (s.memWrite a.space a.addr a.size v).answer a .done := by
  simp only [State.serve, hr, Access.refused_eq_false.2 h, Bool.or_self, Bool.false_eq_true, if_false, State.busy, hb,
    Option.isSome]
  cases a.dir <;> rfl

/-- A served access with BUSY = 1. -/
theorem State.serve_busy {s : State} {a : Access} {w : Word} (hr : s.inReset = false) (h : ¬ a.MustRefuse s.maxPixels)
    (hb : s.inflight = some w) :
    s.serve a = match a.dir with
      | .read => { s with draws := s.draws + 1 }.answer a (.data (s.busyValue a))
      | .write v => (s.busyWrite a v).answer a .done := by
  simp only [State.serve, hr, Access.refused_eq_false.2 h, Bool.or_self, Bool.false_eq_true, if_false, State.busy, hb,
    Option.isSome]
  cases a.dir <;> rfl

/-- While a command is in flight an access changes at most LOST, the recorded answers and the count of free values. -/
theorem State.serve_busy_frame {s : State} {w : Word} (a : Access) (hb : s.inflight = some w) :
    ∃ l r d, s.serve a = { s with lost := l, responses := r, draws := d } := by
  by_cases h : s.inReset = true ∨ a.MustRefuse s.maxPixels
  · rw [State.serve_refused h]
    exact ⟨_, _, _, rfl⟩
  · simp only [not_or, Bool.not_eq_true] at h
    rw [State.serve_busy h.1 h.2 hb]
    cases a.dir with
    | read => exact ⟨_, _, _, rfl⟩
    | write v =>
      simp only [State.busyWrite]
      split <;> exact ⟨_, _, _, rfl⟩

/-! ### Writes to SRC (R65, R76) -/

/-- The first k bytes of a value written to SRC one after the other. -/
theorem State.writeSrc_foldl_frame (s : State) (a k : Nat) (v : Word) :
    ∃ m, (List.range k).foldl (fun t j => t.writeSrc (a + j) (byteOf v j)) s = { s with src := m } := by
  induction k with
  | zero => exact ⟨s.src, rfl⟩
  | succ k ih =>
    obtain ⟨m, hm⟩ := ih
    rw [List.range_succ, List.foldl_append, hm]
    exact ⟨_, rfl⟩

/-- What SRC byte b reads after k bytes of a value were written at a. -/
theorem State.readSrc_foldl (s : State) (a k : Nat) (v : Word) (b : Nat) :
    ((List.range k).foldl (fun t j => t.writeSrc (a + j) (byteOf v j)) s).readSrc b =
      if a ≤ b ∧ b < a + k then byteOf v (b - a) else s.readSrc b := by
  induction k with
  | zero => simp
  | succ k ih =>
    rw [List.range_succ, List.foldl_append, List.foldl_cons, List.foldl_nil, State.readSrc_writeSrc, ih]
    by_cases e : a + k = b
    · subst e
      simp
    · rw [if_neg e]
      by_cases h : a ≤ b ∧ b < a + k
      · rw [if_pos h, if_pos ⟨h.1, by omega⟩]
      · rw [if_neg h, if_neg (by omega)]

/-- A write of n bytes changes SRC only. -/
theorem State.writeSrcValue_frame (s : State) (a : Nat) (n : Size) (v : Word) :
    s.writeSrcValue a n v = { s with src := (s.writeSrcValue a n v).src } := by
  obtain ⟨m, hm⟩ := s.writeSrc_foldl_frame a n.bytes v
  rw [State.writeSrcValue, hm]

/-- A write of n bytes stores the bytes of the value in address order and keeps every other byte. -/
theorem State.readSrc_writeSrcValue (s : State) (a : Nat) (n : Size) (v : Word) (b : Nat) :
    (s.writeSrcValue a n v).readSrc b = if a ≤ b ∧ b < a + n.bytes then byteOf v (b - a) else s.readSrc b :=
  s.readSrc_foldl a n.bytes v b

/-- A write of n bytes keeps SRC canonical. -/
theorem State.writeSrcValue_wf (s : State) (h : Memory.wf s.src) (a : Nat) (n : Size) (v : Word) :
    Memory.wf (s.writeSrcValue a n v).src := by
  unfold State.writeSrcValue
  generalize List.range n.bytes = l
  induction l generalizing s with
  | nil => exact h
  | cons j l ih => exact ih (s.writeSrc (a + j) (byteOf v j)) (Memory.wf_write h _ _)

/-- What a served write with BUSY = 0 can change (R67): in REG the LOST flag, one register, the decoder port or the command in
flight; in SRC the bytes; nothing in DISP. -/
theorem State.memWrite_frame (s : State) (sp : Space) (a : Nat) (n : Size) (v : Word) :
    ∃ x i l d m, s.memWrite sp a n v = { s with x := x, inflight := i, lost := l, dec := d, src := m } := by
  cases sp with
  | reg =>
    simp only [State.memWrite]
    cases regAt a with
    | none => exact ⟨_, _, _, _, _, rfl⟩
    | some r => cases r <;> exact ⟨_, _, _, _, _, rfl⟩
  | src =>
    simp only [State.memWrite]
    rw [s.writeSrcValue_frame]
    exact ⟨_, _, _, _, _, rfl⟩
  | disp => exact ⟨_, _, _, _, _, rfl⟩

/-! ### Steps that serve an access -/

theorem stepN_access {k : Nat} {s : State} {a : Access} {es : List Event} (h : s.events = .access a :: es) :
    stepN (k + 1) s = stepN k (State.serve { s with events := es } a) := by
  simp [stepN, step, h, happen]

theorem notMustRefuse_src {m a : Nat} {n : Size} (ag : Agent) (d : Direction) (h1 : a % n.bytes = 0)
    (h2 : a + n.bytes ≤ 4 * m) : ¬ (Access.mk ag .src a n d).MustRefuse m := by
  simp only [Access.MustRefuse, reduceCtorEq, false_and, false_or, ne_eq, not_false_eq_true, true_and, or_false, h1,
    not_true_eq_false]
  omega

theorem notMustRefuse_disp {m a : Nat} {n : Size} (ag : Agent) (h1 : a % n.bytes = 0) (h2 : a + n.bytes ≤ 4 * m) :
    ¬ (Access.mk ag .disp a n .read).MustRefuse m := by
  simp only [Access.MustRefuse, reduceCtorEq, false_and, false_or, ne_eq, not_false_eq_true, true_and, exists_false,
    and_false, or_false, h1, not_true_eq_false]
  omega

theorem notMustRefuse_reg {m a : Nat} (ag : Agent) (d : Direction) (h1 : a % 4 = 0) (h2 : a < 0x54) (h3 : a ≠ 0x18)
    (h4 : a ≠ 0x1C) : ¬ (Access.mk ag .reg a .four d).MustRefuse m := by
  simp only [Access.MustRefuse, Size.bytes, ne_eq, not_true_eq_false, false_or, true_and, false_and, h1, h3, h4, or_false,
    reduceCtorEq]
  omega

/-! ### The command write and the status poll (R25, R26) -/

theorem State.serve_cmdWrite {s : State} (ag : Agent) (w : Word) (hr : s.inReset = false) (hb : s.inflight = none) :
    s.serve (cmdWrite ag w) = State.answer { s with inflight := some w } (cmdWrite ag w) .done :=
  State.serve_idle hr (notMustRefuse_reg ag _ rfl (by decide) (by decide) (by decide)) hb

theorem State.serve_statusPoll_idle {s : State} (ag : Agent) (hr : s.inReset = false) (hb : s.inflight = none) :
    s.serve (statusPoll ag) = s.answer (statusPoll ag) (.data s.statusWord) :=
  State.serve_idle hr (notMustRefuse_reg ag _ rfl (by decide) (by decide) (by decide)) hb

theorem State.serve_statusPoll_busy {s : State} {w : Word} (ag : Agent) (hr : s.inReset = false)
    (hb : s.inflight = some w) : s.serve (statusPoll ag) =
      State.answer { s with draws := s.draws + 1 } (statusPoll ag) (.data (busyStatus (Config.busyRead s.draws))) :=
  State.serve_busy hr (notMustRefuse_reg ag _ rfl (by decide) (by decide) (by decide)) hb

end Sys2Proof.Machine
end

