-- ==== Sys2Proof/Laws/Operands.lean ====
section
/-! SUPPORT. The operand forms as numbers: what a packed word, a channel, and an assembled bus value are worth. -/

namespace Sys2Proof.Machine

/-- Two bit strings side by side, as a number. -/
theorem append_toNat {m n : Nat} (a : BitVec m) (b : BitVec n) : (a ++ b).toNat = a.toNat * 2 ^ n + b.toNat := by
  rw [BitVec.toNat_append, ← Nat.shiftLeft_add_eq_or_of_lt b.isLt, Nat.shiftLeft_eq]

/-! ### Packed pixels (R12, R100, R101) -/

theorem pack_toNat (r g b a : Byte) : (pack r g b a).toNat = storageNat r.toNat g.toNat b.toNat a.toNat := by
  simp only [pack, append_toNat, storageNat]
  omega

theorem extract_toNat (w : Word) (i : Nat) : (w.extractLsb' i 8).toNat = w.toNat / 2 ^ i % 256 := by
  simp [Nat.shiftRight_eq_div_pow]

@[simp] theorem unpack_red (w : Word) : (unpack w).c0.toNat = redOf w := by
  have := w.isLt
  simp only [unpack, extract_toNat, redOf]
  omega

@[simp] theorem unpack_green (w : Word) : (unpack w).c1.toNat = greenOf w := by simp only [unpack, extract_toNat, greenOf]

@[simp] theorem unpack_blue (w : Word) : (unpack w).c2.toNat = blueOf w := by simp only [unpack, extract_toNat, blueOf]

@[simp] theorem unpack_alpha (w : Word) : (unpack w).c3.toNat = alphaOf w := by
  simp only [unpack, extract_toNat, alphaOf]
  omega

theorem redOf_lt (w : Word) : redOf w < 256 := unpack_red w ▸ (unpack w).c0.isLt
theorem greenOf_lt (w : Word) : greenOf w < 256 := unpack_green w ▸ (unpack w).c1.isLt
theorem blueOf_lt (w : Word) : blueOf w < 256 := unpack_blue w ▸ (unpack w).c2.isLt
theorem alphaOf_lt (w : Word) : alphaOf w < 256 := unpack_alpha w ▸ (unpack w).c3.isLt

/-- A word is worth the storage-order sum of its channels. -/
theorem storageNat_channels (w : Word) : storageNat (redOf w) (greenOf w) (blueOf w) (alphaOf w) = w.toNat := by
  have := w.isLt
  simp only [storageNat, redOf, greenOf, blueOf, alphaOf]
  omega

/-- Packing what unpack gives restores the word (R102). -/
@[simp] theorem pack_unpack (w : Word) : pack (unpack w).c0 (unpack w).c1 (unpack w).c2 (unpack w).c3 = w := by
  apply BitVec.eq_of_toNat_eq
  rw [pack_toNat]
  simp only [unpack_red, unpack_green, unpack_blue, unpack_alpha, storageNat_channels]

/-- Unpacking a packed word gives the channels back (R102). -/
@[simp] theorem unpack_pack (r g b a : Byte) : unpack (pack r g b a) = ⟨r, g, b, a⟩ := by
  have hr := r.isLt
  have hg := g.isLt
  have hb := b.isLt
  have ha := a.isLt
  simp only [unpack, Quad.mk.injEq]
  refine ⟨?_, ?_, ?_, ?_⟩ <;> apply BitVec.eq_of_toNat_eq <;> rw [extract_toNat, pack_toNat, storageNat] <;> omega

theorem displayWord_toNat (w : Word) : (displayWord w).toNat =
    alphaOf w * 2 ^ 24 + redOf w * 2 ^ 16 + greenOf w * 2 ^ 8 + blueOf w := by
  have := w.isLt
  simp only [displayWord, append_toNat, extract_toNat, alphaOf, redOf, greenOf, blueOf]
  omega

/-- The channels of a display-order word. -/
theorem undisplay_toNat (d : Word) : (undisplay d).c0.toNat = redOf d ∧ (undisplay d).c1.toNat = greenOf d ∧
    (undisplay d).c2.toNat = blueOf d ∧ (undisplay d).c3.toNat = alphaOf d :=
  ⟨unpack_red d, unpack_green d, unpack_blue d, unpack_alpha d⟩

theorem channelOf_toNat (c : Channel) (w : Word) : (channelOf c w).toNat = colourOf c w := by
  cases c
  · exact unpack_red w
  · exact unpack_green w
  · exact unpack_blue w

/-! ### Register operands of the codec (R104 to R107) -/

theorem State.narrow_toNat (s : State) (i : Reg) : (s.narrow i).toNat = (s.readReg i).toNat % 256 := by
  rw [State.narrow, extract_toNat]
  omega

/-- The wide variant's low byte is the narrow variant's byte: the two cannot be told apart (R111). -/
theorem State.wideLow_wide (s : State) (i : Reg) : wideLow (s.wide i) = s.narrow i := by
  apply BitVec.eq_of_toNat_eq
  simp only [wideLow, State.wide, State.narrow, Config.wideW, BitVec.extractLsb'_toNat, Nat.shiftRight_zero]
  omega

@[simp] theorem widen_toNat (c : Byte) : (widen c).toNat = c.toNat := by
  have := c.isLt
  simp only [widen, BitVec.truncate_eq_setWidth, BitVec.toNat_setWidth]
  omega

theorem widenWide_eq (c : Byte) : widenWide c = widen c := by
  have := c.isLt
  apply BitVec.eq_of_toNat_eq
  simp only [widenWide, widen, Config.wideW, BitVec.truncate_eq_setWidth, BitVec.toNat_setWidth]
  omega

/-! ### Point functions (R143 to R145) -/

/-- A channel value narrowed from the wide intermediate. -/
theorem wideLow_toNat (v : BitVec Config.wideW) : (wideLow v).toNat = v.toNat % 256 := by
  simp only [wideLow, BitVec.extractLsb'_toNat, Nat.shiftRight_zero]

theorem wideChannel_toNat (c : Byte) : (wideChannel c).toNat = c.toNat := by
  have := c.isLt
  simp only [wideChannel, Config.wideW, BitVec.truncate_eq_setWidth, BitVec.toNat_setWidth]
  omega

/-- f_GRAY as numbers: the exact sum of the colours divided by 3. -/
theorem grayPixel_toNat (w : Word) : (grayPixel w).toNat =
    let l := (redOf w + greenOf w + blueOf w) / 3
    storageNat l l l (alphaOf w) := by
  have hr := redOf_lt w
  have hg := greenOf_lt w
  have hb := blueOf_lt w
  have e : (wideLow ((wideChannel (unpack w).c0 + wideChannel (unpack w).c1 + wideChannel (unpack w).c2) / 3)).toNat =
      (redOf w + greenOf w + blueOf w) / 3 := by
    rw [wideLow_toNat, BitVec.toNat_udiv, BitVec.toNat_add, BitVec.toNat_add, wideChannel_toNat, wideChannel_toNat,
      wideChannel_toNat, unpack_red, unpack_green, unpack_blue]
    show (_ % 2 ^ 16 + _) % 2 ^ 16 / 3 % 256 = _
    omega
  simp only [grayPixel, pack_toNat, e, unpack_alpha]

/-- f_INV as numbers. -/
theorem invPixel_toNat (w : Word) : (invPixel w).toNat =
    storageNat (255 - redOf w) (255 - greenOf w) (255 - blueOf w) (alphaOf w) := by
  have e : ∀ c : Byte, (wideLow (255 - wideChannel c)).toNat = 255 - c.toNat := by
    intro c
    have hc := c.isLt
    rw [wideLow_toNat, BitVec.toNat_sub, wideChannel_toNat]
    show (2 ^ 16 - _ + 255) % 2 ^ 16 % 256 = _
    omega
  simp only [invPixel, pack_toNat, e, unpack_red, unpack_green, unpack_blue, unpack_alpha]

theorem thresholdChannel_toNat (limit c : Byte) :
    (thresholdChannel limit c).toNat = if limit.toNat < c.toNat then 255 else 0 := by
  unfold thresholdChannel
  split <;> rfl

/-- f_THR as numbers. -/
theorem thrPixel_toNat (limit : Byte) (w : Word) : (thrPixel limit w).toNat =
    let f := fun c : Nat => if limit.toNat < c then 255 else 0
    storageNat (f (redOf w)) (f (greenOf w)) (f (blueOf w)) (alphaOf w) := by
  simp only [thrPixel, pack_toNat, thresholdChannel_toNat, unpack_red, unpack_green, unpack_blue, unpack_alpha]

/-! ### Source pixels (R121) -/

theorem State.pixelFromBytes_toNat (s : State) (lay : Layout) (k : Nat) : (s.pixelFromBytes lay k).toNat =
    match lay with
    | .rgb => storageNat (s.readSrc (3 * k)).toNat (s.readSrc (3 * k + 1)).toNat (s.readSrc (3 * k + 2)).toNat 255
    | .rgba => storageNat (s.readSrc (4 * k)).toNat (s.readSrc (4 * k + 1)).toNat (s.readSrc (4 * k + 2)).toNat
        (s.readSrc (4 * k + 3)).toNat := by
  cases lay
  · simp only [State.pixelFromBytes, bytesPerPixel, pack_toNat, Nat.mul_comm k]
    rfl
  · simp only [State.pixelFromBytes, bytesPerPixel, pack_toNat, Nat.mul_comm k]

/-! ### Bus values (R65) -/

theorem byteOf_toNat (w : Word) (j : Nat) : (byteOf w j).toNat = w.toNat / 2 ^ (8 * j) % 256 := extract_toNat w (8 * j)

/-- A bus value is worth the sum of its bytes, the lowest address least. -/
theorem assemble_toNat (n : Size) (f : Nat → Byte) :
    (assemble n f).toNat = ((List.range n.bytes).map (fun j => (f j).toNat * 2 ^ (8 * j))).sum := by
  have h0 := (f 0).isLt
  have h1 := (f 1).isLt
  have h2 : 2 ^ (8 * 2) = 65536 := rfl
  have h3 : 2 ^ (8 * 3) = 16777216 := rfl
  cases n <;>
    simp only [assemble, Size.bytes, BitVec.truncate_eq_setWidth, BitVec.toNat_setWidth, append_toNat, List.range_succ,
      List.range_zero, List.nil_append, List.map_append, List.map_cons, List.map_nil, List.sum_append, List.sum_cons,
      List.sum_nil, h2, h3]
  all_goals omega

/-- The n bytes of a word from byte i on, as a bus value. -/
theorem assemble_byteOf (w : Word) (n : Size) (i : Nat) (h : i + n.bytes ≤ 4) :
    (assemble n (fun j => byteOf w (i + j))).toNat = w.toNat / 2 ^ (8 * i) % 2 ^ (8 * n.bytes) := by
  have hw := w.isLt
  cases n
  · simp only [assemble, Size.bytes, BitVec.truncate_eq_setWidth, BitVec.toNat_setWidth, byteOf_toNat, Nat.add_zero]
    omega
  · simp only [assemble, Size.bytes, BitVec.truncate_eq_setWidth, BitVec.toNat_setWidth, append_toNat, byteOf_toNat,
      Nat.add_zero, Nat.mul_add, Nat.pow_add, ← Nat.div_div_eq_div_mul]
    generalize w.toNat / 2 ^ (8 * i) = x
    omega
  · have : i = 0 := by
      simp only [Size.bytes] at h
      omega
    subst this
    have h2 : 2 ^ (8 * 2) = 65536 := rfl
    have h3 : 2 ^ (8 * 3) = 16777216 := rfl
    simp only [assemble, Size.bytes, append_toNat, byteOf_toNat, Nat.zero_add, h2, h3]
    omega
/-- Only the bytes of the access count. -/
theorem assemble_congr {n : Size} {f g : Nat → Byte} (h : ∀ j, j < n.bytes → f j = g j) : assemble n f = assemble n g := by
  cases n
  · rw [assemble, assemble, h 0 (by decide)]
  · rw [assemble, assemble, h 0 (by decide), h 1 (by decide)]
  · rw [assemble, assemble, h 0 (by decide), h 1 (by decide), h 2 (by decide), h 3 (by decide)]

/-- A served read of DISP, as bytes of the word it lies in (R65). -/
theorem State.dispRead_toNat (s : State) (a : Nat) (n : Size) (h : a % n.bytes = 0) :
    (assemble n (fun j => s.dispByte (a + j))).toNat =
      (s.readDisp (a / 4)).toNat / 2 ^ (8 * (a % 4)) % 2 ^ (8 * n.bytes) := by
  have hn : a % 4 + n.bytes ≤ 4 := by cases n <;> simp only [Size.bytes] at h ⊢ <;> omega
  rw [← assemble_byteOf _ n _ hn]
  congr 1
  refine assemble_congr (fun j hj => ?_)
  rw [State.dispByte, show (a + j) / 4 = a / 4 by omega, show (a + j) % 4 = a % 4 + j by omega]

end Sys2Proof.Machine
end

