-- ==== Sys2Proof/Laws/Commands.lean ====
section
/-! SUPPORT. One lemma per shared operation of the commands, which says everything it can do, and what is true of every
command. -/

namespace Sys2Proof.Machine

variable (s : State)

/-! ### Loads (R122) -/

/-- The four ways a load ends: an error, with nothing else changed, or the image. -/
theorem State.loadCore_cases (w h len : Word) (lay : Layout) :
    ((w.toNat = 0 ∨ h.toNat = 0) ∧ s.loadCore w h len lay = s.finish .invalidDimensions 0#32) ∨
    (1 ≤ w.toNat ∧ 1 ≤ h.toNat ∧ s.maxPixels < w.toNat * h.toNat ∧
      s.loadCore w h len lay = s.finish .capacityExceeded 0#32) ∨
    (1 ≤ w.toNat ∧ 1 ≤ h.toNat ∧ w.toNat * h.toNat ≤ s.maxPixels ∧
      len.toNat ≠ w.toNat * h.toNat * bytesPerPixel lay ∧
      s.loadCore w h len lay = s.finish .invalidBufferLength len) ∨
    (1 ≤ w.toNat ∧ 1 ≤ h.toNat ∧ w.toNat * h.toNat ≤ s.maxPixels ∧
      len.toNat = w.toNat * h.toNat * bytesPerPixel lay ∧
      s.loadCore w h len lay =
        ((s.fillPix (w.toNat * h.toNat) (s.pixelFromBytes lay)).setDims w h).finish .ok 0#32) := by
  have zero : ∀ v : Word, v = 0#32 ↔ v.toNat = 0 := fun v => BitVec.toNat_eq
  simp only [State.loadCore, State.raise_eq, State.complete_eq, zero]
  by_cases h1 : w.toNat = 0 ∨ h.toNat = 0
  · exact .inl ⟨h1, if_pos h1⟩
  · have hw : 1 ≤ w.toNat := by omega
    have hh : 1 ≤ h.toNat := by omega
    rw [if_neg h1]
    by_cases h2 : s.maxPixels < w.toNat * h.toNat
    · exact .inr (.inl ⟨hw, hh, h2, if_pos h2⟩)
    · rw [if_neg h2]
      refine .inr (.inr ?_)
      by_cases h4 : len.toNat = w.toNat * h.toNat * bytesPerPixel lay
      · exact .inr ⟨hw, hh, by omega, h4, by simp [h4]⟩
      · refine .inl ⟨hw, hh, by omega, h4, ?_⟩
        split
        · rfl
        · rfl

/-! ### Point operations (R140) -/

/-- A point operation raises NO_IMAGE, or rewrites every pixel of the image. -/
theorem State.pointOp_cases (f : Word → Word) :
    (s.imgValid = false ∧ s.pointOp f = s.finish .noImage 0#32) ∨
    (s.imgValid = true ∧
      s.pointOp f = (s.fillPix s.numPixels (fun k => f (s.readPix k))).finish .ok 0#32) :=
  s.require_cases s.imgValid .noImage _

/-! ### Scans (R171) -/

/-- A scan finds the first non-zero bin of its order, or reports that there is none. -/
theorem scanBins_cases (h : Bins) (order : List Nat) :
    (∃ i, order.find? (fun i => h.bin i ≠ 0#32) = some i ∧ i ∈ order ∧ h.bin i ≠ 0#32 ∧
      scanBins h order = (h.bin i, BitVec.ofNat 32 i, false)) ∨
    ((∀ i ∈ order, h.bin i = 0#32) ∧ scanBins h order = (0#32, 0#32, true)) := by
  cases e : order.find? (fun i => h.bin i ≠ 0#32) with
  | none =>
    right
    rw [List.find?_eq_none] at e
    refine ⟨fun i hi => ?_, ?_⟩
    · simpa using e i hi
    · rw [scanBins, List.find?_eq_none.2 e]
  | some i =>
    left
    refine ⟨i, rfl, List.mem_of_find?_eq_some e, ?_, ?_⟩
    · simpa using List.find?_some e
    · rw [scanBins, e]

/-- Which bin the upward scan of a channel finds. -/
theorem scanBins_upward {h : Bins} {n : Nat} (hn : n < 256) (h0 : h.bin n ≠ 0#32) (hl : ∀ j, j < n → h.bin j = 0#32) :
    scanBins h upward = (h.bin n, BitVec.ofNat 32 n, false) := by
  have e : upward.find? (fun i => h.bin i ≠ 0#32) = some n := by
    rw [List.find?_eq_some_iff_getElem]
    refine ⟨by simpa using h0, n, by simpa [upward] using hn, by simp [upward], fun j hj => ?_⟩
    simp [upward, hl j hj]
  rw [scanBins, e]

/-- Which bin the downward scan of a channel finds. -/
theorem scanBins_downward {h : Bins} {n : Nat} (hn : n < 256) (h0 : h.bin n ≠ 0#32)
    (hl : ∀ j, n < j → j < 256 → h.bin j = 0#32) :
    scanBins h upward.reverse = (h.bin n, BitVec.ofNat 32 n, false) := by
  have e : upward.reverse.find? (fun i => h.bin i ≠ 0#32) = some n := by
    rw [List.find?_eq_some_iff_getElem]
    refine ⟨by simpa using h0, 255 - n, by simp [upward]; omega, by simp [upward]; omega, fun j hj => ?_⟩
    simp only [upward, List.getElem_reverse, List.getElem_range, List.length_range]
    simp [hl (256 - 1 - j) (by omega) (by omega)]
  rw [scanBins, e]

/-- A scan of a histogram of zeros. -/
theorem scanBins_empty {h : Bins} {order : List Nat} (ho : ∀ i ∈ order, i < 256) (hz : ∀ j, j < 256 → h.bin j = 0#32) :
    scanBins h order = (0#32, 0#32, true) := by
  rcases scanBins_cases h order with ⟨i, _, hi, h0, _⟩ | ⟨_, e⟩
  · exact absurd (hz i (ho i hi)) h0
  · exact e

theorem lt_of_mem_upward {i : Nat} (h : i ∈ upward) : i < 256 := List.mem_range.1 h

/-- HLOW and HHIGH raise NO_HISTOGRAM, or write what their scan found. -/
theorem State.scanInto_cases (rd rd2 : Reg) (c : Channel) (order : List Nat) :
    (s.histValid = false ∧ s.scanInto rd rd2 c order = s.finish .noHistogram 0#32) ∨
    (s.histValid = true ∧ s.scanInto rd rd2 c order =
      (((s.setReg rd (scanBins (s.hist.get c) order).1).setReg rd2 (scanBins (s.hist.get c) order).2.1).setEmpty
        (scanBins (s.hist.get c) order).2.2).finish .ok 0#32) :=
  s.require_cases s.histValid .noHistogram _

/-! ### Cumulation (R179) -/

/-- The exact sum of bins 0, ..., i of a histogram. -/
def binsPrefix (h : Bins) (i : Nat) : Nat := ((List.range (i + 1)).map (fun j => (h.bin j).toNat)).sum

theorem binsPrefix_zero (h : Bins) : binsPrefix h 0 = (h.bin 0).toNat := by simp [binsPrefix]

theorem binsPrefix_succ (h : Bins) (i : Nat) : binsPrefix h (i + 1) = binsPrefix h i + (h.bin (i + 1)).toNat := by
  rw [binsPrefix, List.range_succ, List.map_append, List.sum_append]
  simp [binsPrefix]

theorem State.prefixSum_eq (c : Channel) (i : Nat) : s.prefixSum c i = binsPrefix (s.hist.get c) i := rfl

/-- After n steps of HCUM the bins up to n hold their prefix sums modulo 2^32 and the bins above are as before. -/
theorem cumulateUpTo_bins (h : Bins) (n : Nat) (hn : n < 256) (j : Nat) :
    ((cumulateUpTo h n).1.bin j).toNat = if j ≤ n then binsPrefix h j % 2 ^ 32 else (h.bin j).toNat := by
  induction n generalizing j with
  | zero =>
    by_cases e : j = 0
    · subst e
      simp only [cumulateUpTo, Nat.le_refl, if_true, binsPrefix_zero]
      exact (Nat.mod_eq_of_lt (h.bin 0).isLt).symm
    · rw [if_neg (by omega)]
      rfl
  | succ n ih =>
    have ih := ih (by omega)
    simp only [cumulateUpTo, cumStep]
    rw [Bins.bin_setBin _ _ _ _ hn]
    by_cases e : n + 1 = j
    · subst e
      rw [if_pos rfl, if_pos (Nat.le_refl _), BitVec.toNat_ofNat, ih (n + 1), if_neg (by omega), Nat.add_sub_cancel, ih n,
        if_pos (Nat.le_refl _), binsPrefix_succ]
      omega
    · rw [if_neg e, ih j]
      by_cases hj : j ≤ n
      · rw [if_pos hj, if_pos (by omega)]
      · rw [if_neg hj, if_neg (by omega)]

/-- The exact sum HCUM forms at bin i. -/
def binsCum (h : Bins) (i : Nat) : Nat := (h.bin i).toNat + binsPrefix h (i - 1) % 2 ^ 32

theorem State.cumSum_eq (c : Channel) (i : Nat) : s.cumSum c i = binsCum (s.hist.get c) i := rfl

/-- Which overflow n steps of HCUM keep: the lowest bin whose exact sum needed more than 32 bits, if there is one. -/
theorem cumulateUpTo_overflow (h : Bins) (n : Nat) (hn : n < 256) :
    ((cumulateUpTo h n).2 = none ∧ ∀ i, 1 ≤ i → i ≤ n → binsCum h i < 2 ^ 32) ∨
    (∃ i, (cumulateUpTo h n).2 = some i ∧ 1 ≤ i ∧ i ≤ n ∧ 2 ^ 32 ≤ binsCum h i ∧
      ∀ j, 1 ≤ j → j < i → binsCum h j < 2 ^ 32) := by
  induction n with
  | zero => exact .inl ⟨rfl, fun i h1 h2 => by omega⟩
  | succ n ih =>
    have ht : ((cumulateUpTo h n).1.bin (n + 1)).toNat + ((cumulateUpTo h n).1.bin (n + 1 - 1)).toNat = binsCum h (n + 1) := by
      rw [cumulateUpTo_bins h n (by omega), cumulateUpTo_bins h n (by omega), if_neg (by omega), if_pos (by omega), binsCum]
    simp only [cumulateUpTo, cumStep, ht]
    rcases ih (by omega) with ⟨e, hl⟩ | ⟨i, e, h1, h2, h3, hl⟩
    · simp only [e, and_true]
      by_cases ho : 2 ^ 32 ≤ binsCum h (n + 1)
      · rw [if_pos ho]
        exact .inr ⟨n + 1, rfl, by omega, Nat.le_refl _, ho, fun j hj hj' => hl j hj (by omega)⟩
      · rw [if_neg ho]
        refine .inl ⟨rfl, fun i h1 h2 => ?_⟩
        by_cases e : i = n + 1
        · subst e
          omega
        · exact hl i h1 (by omega)
    · simp only [e, reduceCtorEq, and_false, if_false]
      exact .inr ⟨i, rfl, h1, by omega, h3, hl⟩

/-- HCUM raises NO_HISTOGRAM, or writes the prefix sums and the count and then completes or reports. -/
theorem execHcum_cases (c : Channel) :
    (s.histValid = false ∧ execHcum c s = .next (s.finish .noHistogram 0#32)) ∨
    (s.histValid = true ∧ ∃ e info, execHcum c s =
        .next ((s.setCumulated c (cumulate (s.hist.get c)).1 (saturatingSucc (s.cumCnt.get c))).finish e info) ∧
      ((cumulate (s.hist.get c)).2 = none ∧ e = .ok ∧ info = 0#32 ∨
        ∃ i, (cumulate (s.hist.get c)).2 = some i ∧ e = .countOverflow ∧ info = BitVec.ofNat 32 i)) := by
  unfold execHcum
  cases h : s.histValid with
  | false => exact .inl ⟨rfl, rfl⟩
  | true =>
    refine .inr ⟨rfl, ?_⟩
    simp only [State.require_true, State.report_eq, State.complete_eq]
    generalize cumulate (s.hist.get c) = r
    cases r.2 with
    | none => exact ⟨.ok, 0#32, rfl, .inl ⟨rfl, rfl, rfl⟩⟩
    | some i => exact ⟨.countOverflow, BitVec.ofNat 32 i, rfl, .inr ⟨i, rfl, rfl, rfl⟩⟩

theorem saturatingSucc_toNat (n : BitVec 2) : (saturatingSucc n).toNat = min 3 (n.toNat + 1) := by
  revert n
  decide

/-! ### Counting (R163) -/

/-- A bin after one more value is counted. -/
theorem bumpBin_bin (h : Bins) (v : Byte) (i : Nat) :
    (bumpBin h v).bin i = if v.toNat = i then h.bin i + 1#32 else h.bin i := by
  rw [bumpBin, Bins.bin_setBin _ _ _ _ v.isLt]
  split
  · next e => rw [e]
  · rfl

theorem countPixel_get (h : PerChannel Bins) (w : Word) (c : Channel) :
    (countPixel h w).get c = bumpBin (h.get c) (channelOf c w) := by cases c <;> rfl

/-- A bin after the pixels of a list of indices are counted: as many of them as have the value, modulo 2^32. -/
theorem countPixels_bin (l : List Nat) (h : PerChannel Bins) (c : Channel) (i : Nat) :
    ((l.foldl (fun h k => countPixel h (s.readPix k)) h).get c).bin i =
      (h.get c).bin i + BitVec.ofNat 32 (l.filter (fun k => colourOf c (s.readPix k) = i)).length := by
  induction l generalizing h with
  | nil => simp
  | cons k l ih =>
    rw [List.foldl_cons, ih, countPixel_get, bumpBin_bin, channelOf_toNat, List.filter_cons]
    by_cases e : colourOf c (s.readPix k) = i
    · simp only [e, if_true, decide_true, List.length_cons]
      rw [Nat.add_comm, BitVec.ofNat_add, BitVec.add_assoc]
    · simp [e]

/-- A bin of the image's histogram: the number of pixels with its value, modulo 2^32 (R163). -/
theorem State.buildHistograms_bin (c : Channel) (i : Nat) :
    (s.buildHistograms.get c).bin i = BitVec.ofNat 32 (s.pixelsWith c i) := by
  rw [State.buildHistograms, countPixels_bin]
  have : (PerChannel.get ⟨zeroBins, zeroBins, zeroBins⟩ c).bin i = 0#32 := by cases c <;> exact Bins.bin_zeroBins i
  rw [this, BitVec.zero_add]
  rfl

theorem State.pixelsWith_le (c : Channel) (i : Nat) : s.pixelsWith c i ≤ s.numPixels := by
  refine Nat.le_trans (List.length_filter_le _ _) ?_
  rw [List.length_range]

/-- Among 0, ..., m - 1 there is one v if v < m, else none. -/
theorem sum_indicator (v m : Nat) : ((List.range m).map (fun i => if v = i then 1 else 0)).sum = if v < m then 1 else 0 := by
  induction m with
  | zero => rfl
  | succ m ih =>
    rw [List.range_succ, List.map_append, List.sum_append, ih]
    simp only [List.map_cons, List.map_nil, List.sum_cons, List.sum_nil]
    split <;> split <;> split <;> omega

theorem sum_zeros (m : Nat) : ((List.range m).map (fun _ => 0)).sum = 0 := by
  rw [List.map_const', List.sum_replicate, smul_zero]

/-- Every pixel has exactly one value: the counts of a channel sum to the number of pixels (R162). -/
theorem State.sum_pixelsWith (c : Channel) : ((List.range 256).map (fun i => s.pixelsWith c i)).sum = s.numPixels := by
  simp only [State.pixelsWith]
  generalize s.numPixels = n
  induction n with
  | zero => exact sum_zeros 256
  | succ n ih =>
    have hlt : colourOf c (s.readPix n) < 256 := channelOf_toNat c (s.readPix n) ▸ (channelOf c (s.readPix n)).isLt
    have last : ∀ i, (List.filter (fun k => decide (colourOf c (s.readPix k) = i)) [n]).length =
        if colourOf c (s.readPix n) = i then 1 else 0 := fun i => by
      by_cases e : colourOf c (s.readPix n) = i <;> simp [e]
    simp only [List.range_succ (n := n), List.filter_append, List.length_append, List.sum_map_add, ih, last]
    rw [sum_indicator, if_pos hlt]

/-! ### Every command -/

/-- Every command ends in `finish`, in one step, whatever the state (R27, R203). -/
theorem exec_finish (i : Instr) (s : State) : ∃ u e info, exec i s = .next (State.finish u e info) := by
  have req : ∀ (v : Bool) (e : ErrCode) (k : State → State), (∃ u e info, k s = State.finish u e info) →
      ∃ u e' info, (Host.Outcome.next (s.require v e k) : Result) = .next (State.finish u e' info) := by
    rintro v e k ⟨u, e', info, h⟩
    rcases s.require_cases v e k with ⟨_, h'⟩ | ⟨_, h'⟩
    · exact ⟨_, _, _, congrArg _ h'⟩
    · exact ⟨_, _, _, congrArg _ (h'.trans h)⟩
  have load : ∀ (w h len : Word) (lay : Layout), ∃ u e info, s.loadCore w h len lay = State.finish u e info := by
    intro w h len lay
    rcases s.loadCore_cases w h len lay with ⟨_, e⟩ | ⟨_, _, _, e⟩ | ⟨_, _, _, _, e⟩ | ⟨_, _, _, _, e⟩ <;> exact ⟨_, _, _, e⟩
  cases i with
  | enc8 | encw | dec8 | decw | todisp | decd => exact ⟨_, _, _, rfl⟩
  | load rs1 rs2 rs3 lay =>
    obtain ⟨u, e, info, h⟩ := load (s.readReg rs1) (s.readReg rs2) (s.readReg rs3) lay
    exact ⟨u, e, info, congrArg _ h⟩
  | loadx =>
    simp only [exec, execLoadx]
    split
    · exact ⟨_, _, _, rfl⟩
    · obtain ⟨u, e, info, h⟩ := load s.dec.w s.dec.h s.dec.len s.dec.layout
      exact ⟨u, e, info, congrArg _ h⟩
  | getpix rd rs1 rs2 =>
    refine req _ _ _ ?_
    dsimp only
    split
    · exact ⟨_, _, _, rfl⟩
    · split <;> exact ⟨_, _, _, rfl⟩
  | dims | exportDisp | gray | inv | thr | hbuild | hlow | hhigh => exact req _ _ _ ⟨_, _, _, rfl⟩
  | hcount rd rs1 ch =>
    refine req _ _ _ ?_
    dsimp only
    split <;> exact ⟨_, _, _, rfl⟩
  | hcum ch =>
    rcases execHcum_cases s ch with ⟨_, h⟩ | ⟨_, e, info, h, _⟩ <;> exact ⟨_, _, _, h⟩

/-- `s` with other LOST, pending events, recorded answers and count of free values. -/
def State.withHost (l : Bool) (es : List Event) (r : List Response) (d : Nat) (s : State) : State :=
  { s with lost := l, events := es, responses := r, draws := d }

/-- No command reads or writes LOST, the pending events, the recorded answers or the count of free values: changing them before
a command changes them after it, and nothing else. -/
theorem exec_withHost (i : Instr) (s t : State) (l : Bool) (es : List Event) (r : List Response) (d : Nat)
    (h : exec i s = .next t) : exec i (s.withHost l es r d) = .next (t.withHost l es r d) := by
  have req : ∀ (v : Bool) (e : ErrCode) (k : State → State), k (s.withHost l es r d) = (k s).withHost l es r d →
      ∀ {t}, (Host.Outcome.next (s.require v e k) : Result) = .next t →
        (Host.Outcome.next ((s.withHost l es r d).require v e k) : Result) = .next (t.withHost l es r d) := by
    rintro v e k hk t ⟨⟩
    cases v
    · rfl
    · exact congrArg _ hk
  have load : ∀ (w h len : Word) (lay : Layout),
      (s.withHost l es r d).loadCore w h len lay = (s.loadCore w h len lay).withHost l es r d := by
    intro w h len lay
    simp only [State.loadCore, apply_ite (State.withHost l es r d)]
    rfl
  cases i with
  | enc8 | encw | dec8 | decw | todisp | decd =>
    cases h
    rfl
  | load rs1 rs2 rs3 lay =>
    cases h
    exact congrArg _ (load _ _ _ _)
  | loadx =>
    simp only [exec, execLoadx, Host.Outcome.next.injEq] at h ⊢
    rw [← h, apply_ite (State.withHost l es r d), ← load]
    rfl
  | getpix rd rs1 rs2 =>
    refine req _ _ _ ?_ h
    simp only [apply_ite (State.withHost l es r d)]
    rfl
  | dims | exportDisp | gray | inv | thr | hbuild | hlow | hhigh =>
    refine req _ _ _ ?_ h
    rfl
  | hcount rd rs1 ch =>
    refine req _ _ _ ?_ h
    simp only [apply_ite (State.withHost l es r d)]
    rfl
  | hcum ch =>
    have hh : (s.withHost l es r d).hist = s.hist := rfl
    have hc : (s.withHost l es r d).cumCnt = s.cumCnt := rfl
    refine req _ _ _ ?_ h
    simp only [hh, hc]
    generalize cumulate (s.hist.get ch) = p
    cases p.2 <;> rfl

/-- No command reads the command in flight: it is written at the end (R27). -/
theorem exec_inflight (i : Instr) (s : State) (w : Option Word) : exec i { s with inflight := w } = exec i s := by
  have req : ∀ (v : Bool) (e : ErrCode) (k k' : State → State), k { s with inflight := w } = k' s →
        (Host.Outcome.next (State.require { s with inflight := w } v e k) : Result) = .next (s.require v e k') := by
    rintro v e k k' hk
    cases v
    · rfl
    · exact congrArg _ hk
  have load : ∀ (a h len : Word) (lay : Layout),
      State.loadCore { s with inflight := w } a h len lay = s.loadCore a h len lay := by
    intro a h len lay
    simp only [State.loadCore]
    rfl
  cases i with
  | enc8 | encw | dec8 | decw | todisp | decd => rfl
  | load rs1 rs2 rs3 lay =>
    exact congrArg Host.Outcome.next (load (s.readReg rs1) (s.readReg rs2) (s.readReg rs3) lay)
  | loadx =>
    simp only [exec, execLoadx, load]
    rfl
  | getpix rd rs1 rs2 =>
    refine req _ _ _ _ ?_
    rfl
  | dims | exportDisp | gray | inv | thr | hbuild | hlow | hhigh =>
    refine req _ _ _ _ ?_
    rfl
  | hcount rd rs1 ch =>
    refine req _ _ _ _ ?_
    rfl
  | hcum ch =>
    refine req _ _ _ _ ?_
    dsimp only
    generalize cumulate (s.hist.get ch) = p
    cases p.2 <;> rfl

/-! ### A command word taken to its end (R85) -/

theorem perform_next (w : Word) (s : State) : ∃ t, perform w s = .next t ∧ t.inflight = none := by
  unfold perform
  split
  · obtain ⟨u, e, info, h⟩ := exec_finish ‹_› s
    exact ⟨_, h, rfl⟩
  · exact ⟨_, rfl, rfl⟩

theorem perform_withHost (w : Word) (s t : State) (l : Bool) (es : List Event) (r : List Response) (d : Nat)
    (h : perform w s = .next t) : perform w (s.withHost l es r d) = .next (t.withHost l es r d) := by
  unfold perform at *
  split at h
  · exact exec_withHost _ _ _ _ _ _ _ h
  · cases h
    rfl

theorem perform_inflight (v : Word) (s : State) (w : Option Word) : perform v { s with inflight := w } = perform v s := by
  unfold perform
  split
  · exact exec_inflight _ _ _
  · rfl

end Sys2Proof.Machine
end

