-- ==== Sys2Proof/Laws/Encoding.lean ====
section
/-! SUPPORT. The fields of an assembled word, and what a word whose should-be-zero bits are 0 is assembled from. -/

namespace Sys2Proof

section Fields

variable (op : BitVec 6) (rd rs1 rs2 rs3 rs4 : BitVec 3) (ch : BitVec 2) (imm8 : BitVec 8)

/-! ### The fields of an assembled word are what it was assembled from (R81) -/

@[simp] theorem wordOfFields_op : (wordOfFields op rd rs1 rs2 rs3 rs4 ch imm8).extractLsb' 26 6 = op := by
  ext i hi
  simp only [wordOfFields, BitVec.getElem_extractLsb', BitVec.getLsbD_append]
  interval_cases i <;> simp [BitVec.getLsbD_eq_getElem]

@[simp] theorem wordOfFields_rd : (wordOfFields op rd rs1 rs2 rs3 rs4 ch imm8).extractLsb' 23 3 = rd := by
  ext i hi
  simp only [wordOfFields, BitVec.getElem_extractLsb', BitVec.getLsbD_append]
  interval_cases i <;> simp [BitVec.getLsbD_eq_getElem]

@[simp] theorem wordOfFields_rs1 : (wordOfFields op rd rs1 rs2 rs3 rs4 ch imm8).extractLsb' 20 3 = rs1 := by
  ext i hi
  simp only [wordOfFields, BitVec.getElem_extractLsb', BitVec.getLsbD_append]
  interval_cases i <;> simp [BitVec.getLsbD_eq_getElem]

@[simp] theorem wordOfFields_rs2 : (wordOfFields op rd rs1 rs2 rs3 rs4 ch imm8).extractLsb' 17 3 = rs2 := by
  ext i hi
  simp only [wordOfFields, BitVec.getElem_extractLsb', BitVec.getLsbD_append]
  interval_cases i <;> simp [BitVec.getLsbD_eq_getElem]

@[simp] theorem wordOfFields_rs3 : (wordOfFields op rd rs1 rs2 rs3 rs4 ch imm8).extractLsb' 14 3 = rs3 := by
  ext i hi
  simp only [wordOfFields, BitVec.getElem_extractLsb', BitVec.getLsbD_append]
  interval_cases i <;> simp [BitVec.getLsbD_eq_getElem]

@[simp] theorem wordOfFields_rs4 : (wordOfFields op rd rs1 rs2 rs3 rs4 ch imm8).extractLsb' 11 3 = rs4 := by
  ext i hi
  simp only [wordOfFields, BitVec.getElem_extractLsb', BitVec.getLsbD_append]
  interval_cases i <;> simp [BitVec.getLsbD_eq_getElem]

@[simp] theorem wordOfFields_ch : (wordOfFields op rd rs1 rs2 rs3 rs4 ch imm8).extractLsb' 8 2 = ch := by
  ext i hi
  simp only [wordOfFields, BitVec.getElem_extractLsb', BitVec.getLsbD_append]
  interval_cases i <;> simp [BitVec.getLsbD_eq_getElem]

@[simp] theorem wordOfFields_imm8 : (wordOfFields op rd rs1 rs2 rs3 rs4 ch imm8).extractLsb' 0 8 = imm8 := by
  ext i hi
  simp only [wordOfFields, BitVec.getElem_extractLsb', BitVec.getLsbD_append]
  interval_cases i <;> simp [BitVec.getLsbD_eq_getElem]

/-- Bit i of an assembled word, by the field that holds it (R81). -/
theorem wordOfFields_getLsbD (i : Nat) : (wordOfFields op rd rs1 rs2 rs3 rs4 ch imm8).getLsbD i =
    if i < 8 then imm8.getLsbD i else if i < 10 then ch.getLsbD (i - 8) else if i < 11 then false
    else if i < 14 then rs4.getLsbD (i - 11) else if i < 17 then rs3.getLsbD (i - 14)
    else if i < 20 then rs2.getLsbD (i - 17) else if i < 23 then rs1.getLsbD (i - 20)
    else if i < 26 then rd.getLsbD (i - 23) else op.getLsbD (i - 26) := by
  by_cases hi : i < 32
  · simp only [wordOfFields, BitVec.getLsbD_append]
    interval_cases i <;> simp
  · rw [BitVec.getLsbD_of_ge _ _ (by omega), BitVec.getLsbD_of_ge op _ (by omega)]
    repeat' rw [if_neg (by omega)]

end Fields

/-! ### Operand fields and their bits -/

@[simp] theorem Reg.toFin_bits (r : Reg) : (Reg.bits r).toFin = r := rfl

@[simp] theorem Reg.bits_toFin (v : BitVec 3) : Reg.bits v.toFin = v := rfl

@[simp] theorem bits_fieldRd (w : Word) : Reg.bits (fieldRd w) = w.extractLsb' 23 3 := rfl

@[simp] theorem bits_fieldRs1 (w : Word) : Reg.bits (fieldRs1 w) = w.extractLsb' 20 3 := rfl

@[simp] theorem bits_fieldRs2 (w : Word) : Reg.bits (fieldRs2 w) = w.extractLsb' 17 3 := rfl

@[simp] theorem bits_fieldRs3 (w : Word) : Reg.bits (fieldRs3 w) = w.extractLsb' 14 3 := rfl

@[simp] theorem bits_fieldRs4 (w : Word) : Reg.bits (fieldRs4 w) = w.extractLsb' 11 3 := rfl

theorem Channel.bits_ne_three (c : Channel) : c.bits ≠ 3#2 := by cases c <;> decide

theorem fieldChannel_of_bits {w : Word} {c : Channel} (h : w.extractLsb' 8 2 = c.bits) : fieldChannel w = some c := by
  unfold fieldChannel
  rw [h]
  cases c <;> rfl

theorem bits_of_fieldChannel {w : Word} {c : Channel} (h : fieldChannel w = some c) : c.bits = w.extractLsb' 8 2 := by
  unfold fieldChannel at h
  generalize w.extractLsb' 8 2 = v at *
  revert h
  cases c <;> revert v <;> decide

theorem fieldChannel_eq_none {w : Word} : fieldChannel w = none ↔ w.extractLsb' 8 2 = 3#2 := by
  unfold fieldChannel
  generalize w.extractLsb' 8 2 = v
  revert v
  decide

/-! ### Opcodes -/

/-- The opcode selects its command, and only its command (R84). -/
theorem selectMnemonic_eq_some {op : BitVec 6} {m : Mnemonic} : selectMnemonic op = some m ↔ m.opcode = op := by
  cases m <;> revert op <;> decide

/-- The match word is the opcode with every other bit 0 (R84). -/
theorem matchWord_eq (m : Mnemonic) : m.matchWord = wordOfFields m.opcode 0 0 0 0 0 0 0 := by
  cases m <;> rfl

/-- Every mask holds the six opcode bits (R82). -/
theorem mask_opcode (m : Mnemonic) : m.format.mask.extractLsb' 26 6 = 0x3F#6 := by
  cases m <;> rfl

/-! ### Should-be-zero bits -/

/-- A word without an SBZ bit has a 0 wherever the mask has a 1 below the opcode (R82). -/
theorem bit_eq_false_of_sbz {w m : Word} (h : w &&& m &&& 0x03FFFFFF#32 = 0#32) (i : Nat)
    (hm : (m &&& 0x03FFFFFF#32).getLsbD i = true) : w.getLsbD i = false := by
  have := congrArg (fun v => BitVec.getLsbD v i) h
  rw [BitVec.and_assoc] at this
  simp only [BitVec.getLsbD_and (x := w), hm, Bool.and_true, BitVec.getLsbD_zero] at this
  exact this

end Sys2Proof
end

