-- ==== Sys2Proof/Laws/Lines.lean ====
section
/-! SUPPORT. Which operands of an assembler line are accepted (30_encoding.md R88), one lemma per operand form, and what the
operands R88 writes stand for. -/

namespace Sys2Proof

/-! ### An operand is accepted exactly when a command word can hold it -/

theorem AsmOperand.toReg_ok (o : AsmOperand) : (∃ r, o.toReg = .ok r) ↔ OperandKind.reg.Encodable o := by
  cases o with
  | reg n => by_cases h : n < 8 <;> simp [AsmOperand.toReg, OperandKind.Encodable, h]
  | imm v => simp [AsmOperand.toReg, OperandKind.Encodable]
  | name s => simp [AsmOperand.toReg, OperandKind.Encodable]

theorem AsmOperand.toGroup_ok (o : AsmOperand) : (∃ q, o.toGroup = .ok q) ↔ OperandKind.group.Encodable o := by
  cases o with
  | reg n => by_cases h : n = 0 <;> by_cases h' : n = 4 <;> simp [AsmOperand.toGroup, OperandKind.Encodable, h, h']
  | imm v => simp [AsmOperand.toGroup, OperandKind.Encodable]
  | name s => simp [AsmOperand.toGroup, OperandKind.Encodable]

theorem AsmOperand.toImm8_ok (o : AsmOperand) : (∃ b, o.toImm8 = .ok b) ↔ OperandKind.imm8.Encodable o := by
  cases o with
  | reg n => simp [AsmOperand.toImm8, OperandKind.Encodable]
  | imm v => by_cases h : 0 ≤ v ∧ v ≤ 255 <;> simp [AsmOperand.toImm8, OperandKind.Encodable, h]
  | name s => simp [AsmOperand.toImm8, OperandKind.Encodable]

theorem AsmOperand.toChannel_ok (o : AsmOperand) : (∃ c, o.toChannel = .ok c) ↔ OperandKind.channel.Encodable o := by
  cases o with
  | reg n => simp [AsmOperand.toChannel, OperandKind.Encodable]
  | imm v => simp [AsmOperand.toChannel, OperandKind.Encodable]
  | name s => cases s <;> simp [AsmOperand.toChannel, OperandKind.Encodable]

theorem AsmOperand.toLayout_ok (o : AsmOperand) : (∃ l, o.toLayout = .ok l) ↔ OperandKind.layout.Encodable o := by
  cases o with
  | reg n => simp [AsmOperand.toLayout, OperandKind.Encodable]
  | imm v => simp [AsmOperand.toLayout, OperandKind.Encodable]
  | name s => cases s <;> simp [AsmOperand.toLayout, OperandKind.Encodable]

/-! ### Reading back the operands R88 writes -/

@[simp] theorem Reg.toReg_operand (r : Reg) : (Reg.operand r).toReg = .ok r := by
  simp [Reg.operand, AsmOperand.toReg]

@[simp] theorem Group.toGroup_operand (q : Group) : q.operand.toGroup = .ok q := by cases q <;> rfl

@[simp] theorem Channel.toChannel_operand (c : Channel) : c.operand.toChannel = .ok c := by cases c <;> rfl

@[simp] theorem Layout.toLayout_operand (l : Layout) : l.operand.toLayout = .ok l := by cases l <;> rfl

@[simp] theorem AsmOperand.toImm8_imm (b : Byte) : (AsmOperand.imm b.toNat).toImm8 = .ok b := by
  have := b.isLt
  rw [AsmOperand.toImm8, if_pos (by omega)]
  simp

/-! ### A line read operand by operand -/

/-- One more operand is read, then the rest. -/
theorem isSome_bind {α β : Type} (x : Except AsmError α) (k : α → Except AsmError β) :
    (x >>= k).toOption.isSome = true ↔ ∃ a, x = .ok a ∧ (k a).toOption.isSome = true := by
  cases x <;> simp [bind, Except.bind, Except.toOption]

theorem isSome_pure {β : Type} (b : β) : (pure b : Except AsmError β).toOption.isSome = true := rfl

end Sys2Proof
end

