-- ==== Sys2Proof/Laws/PerInstr.lean ====
section
/-! SUPPORT. The laws made for every command, one lemma per constructor of Instr. -/

namespace Sys2Proof.Laws

/-- Under the mask of its row the command's word is the row's match word (R82, R84). -/
def MaskMatch.Statement (i : Instr) : Prop := encode i &&& i.mnemonic.format.mask = i.mnemonic.matchWord

/-- The bits under a mask, one by one. -/
theorem and_eq_of_bits {w m v : Word} (h : ∀ i, i < 32 → (w.getLsbD i && m.getLsbD i) = v.getLsbD i) : w &&& m = v :=
  BitVec.eq_of_getLsbD_eq (fun i hi => by rw [BitVec.getLsbD_and]; exact h i hi)

theorem MaskMatch.enc8 (rd rs1 rs2 rs3 rs4 : Reg) : MaskMatch.Statement (.enc8 rd rs1 rs2 rs3 rs4) := by
  refine and_eq_of_bits (fun i hi => ?_)
  simp only [encode, wordOfFields_getLsbD, Instr.mnemonic, Mnemonic.format, Format.mask, Mnemonic.matchWord,
    Mnemonic.opcode]
  interval_cases i <;> simp

theorem MaskMatch.encw (rd rs1 rs2 rs3 rs4 : Reg) : MaskMatch.Statement (.encw rd rs1 rs2 rs3 rs4) := by
  refine and_eq_of_bits (fun i hi => ?_)
  simp only [encode, wordOfFields_getLsbD, Instr.mnemonic, Mnemonic.format, Format.mask, Mnemonic.matchWord,
    Mnemonic.opcode]
  interval_cases i <;> simp

theorem MaskMatch.dec8 (q : Group) (rs1 : Reg) : MaskMatch.Statement (.dec8 q rs1) := by
  cases q <;> exact and_eq_of_bits (fun i hi => by
    simp only [encode, wordOfFields_getLsbD, Instr.mnemonic, Mnemonic.format, Format.mask, Mnemonic.matchWord,
      Mnemonic.opcode]
    interval_cases i <;> simp [Group.bits])

theorem MaskMatch.decw (q : Group) (rs1 : Reg) : MaskMatch.Statement (.decw q rs1) := by
  cases q <;> exact and_eq_of_bits (fun i hi => by
    simp only [encode, wordOfFields_getLsbD, Instr.mnemonic, Mnemonic.format, Format.mask, Mnemonic.matchWord,
      Mnemonic.opcode]
    interval_cases i <;> simp [Group.bits])

theorem MaskMatch.todisp (rd rs1 : Reg) : MaskMatch.Statement (.todisp rd rs1) := by
  refine and_eq_of_bits (fun i hi => ?_)
  simp only [encode, wordOfFields_getLsbD, Instr.mnemonic, Mnemonic.format, Format.mask, Mnemonic.matchWord,
    Mnemonic.opcode]
  interval_cases i <;> simp

theorem MaskMatch.decd (q : Group) (rs1 : Reg) : MaskMatch.Statement (.decd q rs1) := by
  cases q <;> exact and_eq_of_bits (fun i hi => by
    simp only [encode, wordOfFields_getLsbD, Instr.mnemonic, Mnemonic.format, Format.mask, Mnemonic.matchWord,
      Mnemonic.opcode]
    interval_cases i <;> simp [Group.bits])

theorem MaskMatch.load (rs1 rs2 rs3 : Reg) (lay : Layout) : MaskMatch.Statement (.load rs1 rs2 rs3 lay) := by
  cases lay <;> exact and_eq_of_bits (fun i hi => by
    simp only [encode, wordOfFields_getLsbD, Instr.mnemonic, Mnemonic.format, Format.mask, Mnemonic.matchWord,
      Mnemonic.opcode]
    interval_cases i <;> simp [Layout.bits])

theorem MaskMatch.loadx : MaskMatch.Statement .loadx := rfl

theorem MaskMatch.getpix (rd rs1 rs2 : Reg) : MaskMatch.Statement (.getpix rd rs1 rs2) := by
  refine and_eq_of_bits (fun i hi => ?_)
  simp only [encode, wordOfFields_getLsbD, Instr.mnemonic, Mnemonic.format, Format.mask, Mnemonic.matchWord,
    Mnemonic.opcode]
  interval_cases i <;> simp

theorem MaskMatch.dims (rd rd2 : Reg) : MaskMatch.Statement (.dims rd rd2) := by
  refine and_eq_of_bits (fun i hi => ?_)
  simp only [encode, wordOfFields_getLsbD, Instr.mnemonic, Mnemonic.format, Format.mask, Mnemonic.matchWord,
    Mnemonic.opcode]
  interval_cases i <;> simp

theorem MaskMatch.exportDisp : MaskMatch.Statement .exportDisp := rfl

theorem MaskMatch.gray : MaskMatch.Statement .gray := rfl

theorem MaskMatch.inv : MaskMatch.Statement .inv := rfl

theorem MaskMatch.thr (imm8 : Byte) : MaskMatch.Statement (.thr imm8) := by
  refine and_eq_of_bits (fun i hi => ?_)
  simp only [encode, wordOfFields_getLsbD, Instr.mnemonic, Mnemonic.format, Format.mask, Mnemonic.matchWord,
    Mnemonic.opcode]
  interval_cases i <;> simp

theorem MaskMatch.hbuild : MaskMatch.Statement .hbuild := rfl

theorem MaskMatch.hcount (rd rs1 : Reg) (ch : Channel) : MaskMatch.Statement (.hcount rd rs1 ch) := by
  cases ch <;> exact and_eq_of_bits (fun i hi => by
    simp only [encode, wordOfFields_getLsbD, Instr.mnemonic, Mnemonic.format, Format.mask, Mnemonic.matchWord,
      Mnemonic.opcode]
    interval_cases i <;> simp [Channel.bits])

theorem MaskMatch.hlow (rd rd2 : Reg) (ch : Channel) : MaskMatch.Statement (.hlow rd rd2 ch) := by
  cases ch <;> exact and_eq_of_bits (fun i hi => by
    simp only [encode, wordOfFields_getLsbD, Instr.mnemonic, Mnemonic.format, Format.mask, Mnemonic.matchWord,
      Mnemonic.opcode]
    interval_cases i <;> simp [Channel.bits])

theorem MaskMatch.hhigh (rd rd2 : Reg) (ch : Channel) : MaskMatch.Statement (.hhigh rd rd2 ch) := by
  cases ch <;> exact and_eq_of_bits (fun i hi => by
    simp only [encode, wordOfFields_getLsbD, Instr.mnemonic, Mnemonic.format, Format.mask, Mnemonic.matchWord,
      Mnemonic.opcode]
    interval_cases i <;> simp [Channel.bits])

theorem MaskMatch.hcum (ch : Channel) : MaskMatch.Statement (.hcum ch) := by
  cases ch <;> rfl

end Sys2Proof.Laws
end

