-- ==== Sys2Proof/Machine/HostProgram.lean ====
section
/-! DEFINITION. The host-access notation of programs (30_encoding.md R90) as events. When the engine's turn comes is not the
program's choice (R250, R64): where a command's turn falls among the program's accesses is the model's argument (log 18). -/

namespace Sys2Proof.Machine

/-- One line of a program (R90), and where the engine's turn falls between lines. -/
inductive HostOp where
  /-- WR space off, v, n. -/
  | wr (sp : Space) (off : Nat) (v : Word) (n : Size)
  /-- RD space a, n. -/
  | rd (sp : Space) (off : Nat) (n : Size)
  /-- CMD with a command's encoding. -/
  | cmd (i : Instr)
  /-- WAIT, with the number of polls that find BUSY = 1 before the engine's turn (log 18). -/
  | wait (polls : Nat)
  /-- No line of R90: the engine's turn falls here, between two lines, as it may after a CMD without a WAIT (R250; log 18). -/
  | turn
deriving DecidableEq, Repr

/-- The host's access. -/
def hostAccess (sp : Space) (a : Nat) (n : Size) (d : Direction) : Event := .access ⟨.host, sp, a, n, d⟩

/-- The host's read of STATUS. -/
def readStatus : Event := hostAccess .reg 0x04 .four .read

/-- The events of one line. DESIGN CHOICE (log 18): R250 leaves open where the engine's turn falls. Here it falls where a `turn`
stands, else inside the next WAIT, after the polls that find BUSY = 1; an accepted CMD brings no turn of its own. -/
def HostOp.events : HostOp → List Event
  | .wr sp off v n => [hostAccess sp off n (.write v)]
  | .rd sp off n => [hostAccess sp off n .read]
  | .cmd i => [hostAccess .reg 0x00 .four (.write (encode i))]
  | .wait polls => List.replicate polls readStatus ++ [.engine, readStatus]
  | .turn => [.engine]

/-- The events of a program. -/
def programEvents (p : List HostOp) : List Event := p.flatMap HostOp.events

end Sys2Proof.Machine
end

