-- ==== Sys2Proof/Tests/Slice0.lean ====
section
/-! SUPPORT. Tests on small states, with results taken from the spec (95_test_vectors.md and the examples of the rules), and for
every obligation with hypotheses a named theorem that shows states and operands which meet them. -/

namespace Sys2Proof.Tests

open Sys2Proof.Machine

/-! ### Small states -/

/-- A machine of 16 pixels right after reset. -/
def base : State := State.resetWith 16

/-- `base` with the registers given. -/
def regs (a b c d e f g h : Word) : State := { base with x := #v[a, b, c, d, e, f, g, h] }

/-- `s` with SRC holding the bytes given from address 0 on. -/
def withSrc (s : State) (bytes : List Byte) : State := { s with src := bytes.zipIdx.map (fun q => (q.2, q.1)) }

/-- `s` with a w by h image of the pixels given. -/
def withImage (s : State) (w h : Word) (pixels : List Word) : State :=
  { s with imgValid := true, imgW := w, imgH := h, pix := pixels.zipIdx.map (fun q => (q.2, q.1)) }

/-- `s` with a histogram built, the bins of every channel as given and all else 0. -/
def withHist (s : State) (bins : List (Nat × Word)) : State :=
  let h : Bins := bins.foldl (fun h q => h.setBin q.1 q.2) zeroBins
  { s with histValid := true, hist := ⟨h, h, h⟩ }

/-- Does the step give a next state of which `f` is true? -/
def isNext (r : Result) (f : State → Bool) : Bool :=
  match r with
  | .next t => f t
  | .fault _ => false
  | .refused _ => false

/-- Did the command end with this code and ERRINFO? -/
def ended (t : State) (e : ErrCode) (info : Word) : Bool := t.err == e && t.errInfo == info && t.inflight == none

/-! ### Well-formed lines (R88): each check of `assemble` refuses an ill-formed line -/

theorem test_line_wrong_operands : (AsmLine.mk .gray [.reg 0]).assemble = .error .wrongOperands := by decide
theorem test_line_bad_register : (AsmLine.mk .todisp [.reg 8, .reg 0]).assemble = .error .badRegister := by decide
theorem test_line_bad_group : (AsmLine.mk .dec8 [.reg 1, .reg 0]).assemble = .error .badGroup := by decide
theorem test_line_bad_immediate : (AsmLine.mk .thr [.imm 256]).assemble = .error .badImmediate := by decide
theorem test_line_negative_immediate : (AsmLine.mk .thr [.imm (-1)]).assemble = .error .badImmediate := by decide
theorem test_line_bad_channel : (AsmLine.mk .hcum [.name .RGB]).assemble = .error .badChannel := by decide
theorem test_line_bad_layout : (AsmLine.mk .load [.reg 0, .reg 1, .reg 2, .name .R]).assemble = .error .badLayout := by decide
theorem test_line_refused : (AsmLine.mk .thr [.imm 256]).wellFormed = false := by decide

/-- The operand order of R88, and the word the spec gives (P3). -/
theorem test_line_accepted : (AsmLine.mk .hlow [.reg 6, .reg 7, .name .G]).assemble = .ok (.hlow 6 7 .g) ∧
    encode (.hlow 6 7 .g) = 0x6B700100#32 := by decide

/-! ### Decoding: for every command a word written out from its format (R82, R84), most significant field first -/

theorem test_decode_enc8 : decode (0b000001#6 ++ 0b100#3 ++ 0b000#3 ++ 0b001#3 ++ 0b010#3 ++ 0b011#3 ++ 0#11) =
    .ok (.enc8 4 0 1 2 3) := by decide
theorem test_decode_encw : decode (0b000010#6 ++ 0b111#3 ++ 0b000#3 ++ 0b001#3 ++ 0b010#3 ++ 0b011#3 ++ 0#11) =
    .ok (.encw 7 0 1 2 3) := by decide
theorem test_decode_dec8 : decode (0b000011#6 ++ 1#1 ++ 0#2 ++ 0b100#3 ++ 0#20) = .ok (.dec8 .hi 4) := by decide
theorem test_decode_decw : decode (0b000100#6 ++ 0#1 ++ 0#2 ++ 0b111#3 ++ 0#20) = .ok (.decw .lo 7) := by decide
theorem test_decode_todisp : decode (0b000101#6 ++ 0b101#3 ++ 0b100#3 ++ 0#20) = .ok (.todisp 5 4) := by decide
theorem test_decode_decd : decode (0b000110#6 ++ 0#1 ++ 0#2 ++ 0b101#3 ++ 0#20) = .ok (.decd .lo 5) := by decide
theorem test_decode_load : decode (0b001000#6 ++ 0#3 ++ 0b000#3 ++ 0b001#3 ++ 0b010#3 ++ 0#13 ++ 1#1) =
    .ok (.load 0 1 2 .rgba) := by decide
theorem test_decode_load_rgb : decode 0x20028000#32 = .ok (.load 0 1 2 .rgb) := by decide
theorem test_decode_loadx : decode (0b001001#6 ++ 0#26) = .ok .loadx := by decide
theorem test_decode_getpix : decode (0b001010#6 ++ 0b101#3 ++ 0b011#3 ++ 0b100#3 ++ 0#17) = .ok (.getpix 5 3 4) := by decide
theorem test_decode_dims : decode (0b001011#6 ++ 0b110#3 ++ 0b111#3 ++ 0#20) = .ok (.dims 6 7) := by decide
theorem test_decode_export : decode (0b001100#6 ++ 0#26) = .ok .exportDisp := by decide
theorem test_decode_gray : decode (0b010000#6 ++ 0#26) = .ok .gray := by decide
theorem test_decode_inv : decode (0b010001#6 ++ 0#26) = .ok .inv := by decide
theorem test_decode_thr : decode (0b010010#6 ++ 0#18 ++ 0b01100100#8) = .ok (.thr 100) := by decide
theorem test_decode_hbuild : decode (0b011000#6 ++ 0#26) = .ok .hbuild := by decide
theorem test_decode_hcount : decode (0b011001#6 ++ 0b001#3 ++ 0b000#3 ++ 0#10 ++ 0b10#2 ++ 0#8) =
    .ok (.hcount 1 0 .b) := by decide
theorem test_decode_hlow : decode (0b011010#6 ++ 0b010#3 ++ 0b011#3 ++ 0#10 ++ 0b01#2 ++ 0#8) = .ok (.hlow 2 3 .g) := by decide
theorem test_decode_hhigh : decode (0b011011#6 ++ 0b010#3 ++ 0b011#3 ++ 0#10 ++ 0b00#2 ++ 0#8) = .ok (.hhigh 2 3 .r) := by decide
theorem test_decode_hcum : decode (0b011100#6 ++ 0#16 ++ 0b10#2 ++ 0#8) = .ok (.hcum .b) := by decide

/-- 2.1: the illegal words of the spec's decode table, by case of R86. -/
theorem test_decode_illegal :
    [0x00000000#32, 0x1C000000#32, 0x34000000#32, 0x4C000000#32, 0x74000000#32, 0xFC000000#32, 0xFFFFFFFF#32].map decode =
      List.replicate 7 (.error .reservedOpcode) ∧
    [0x04000001#32, 0x04000400#32, 0x0C800000#32, 0x0D000000#32, 0x0E400001#32, 0x20800000#32, 0x20000002#32, 0x24000001#32,
      0x28010000#32, 0x2C080000#32, 0x48000100#32, 0x6C0F0100#32, 0x70000001#32].map decode =
      List.replicate 13 (.error .sbzBit) ∧
    [0x64000300#32, 0x70000300#32].map decode = List.replicate 2 (.error .reservedChannel) := by decide +kernel

/-- The host's two questions on one row. -/
theorem test_table_word : decodeTableWord 32 0x06029800 = some (.enc8 4 0 1 2 3) := by decide
theorem test_fetch_word : isNext (step (State.reset.withFetchWord 32 0x40000000)) (fun t => ended t .noImage 0#32) = true := by
  decide

/-! ### The codec (95_test_vectors.md 2.2) -/

theorem test_enc8 : isNext (exec (.enc8 4 0 1 2 3) (regs 0x100 0x1FF 0xFFFFFFFF 0x80 0 0 0 0))
    (fun t => t.readReg 4 == 0x00FFFF80#32 && ended t .ok 0#32) = true := by decide
theorem test_enc8_alias : isNext (exec (.enc8 0 0 0 0 0) (regs 0xAB 0 0 0 0 0 0 0))
    (fun t => t.readReg 0 == 0xABABABAB#32) = true := by decide
theorem test_encw : isNext (exec (.encw 4 0 1 2 3) (regs 765 256 255 0x12345 0 0 0 0))
    (fun t => t.readReg 4 == 0xFD00FF45#32) = true := by decide
theorem test_dec8 : isNext (exec (.dec8 .hi 4) (regs 0 0 0 0 0x12345678 0 0 0))
    (fun t => t.readReg 4 == 0x12#32 && t.readReg 5 == 0x34#32 && t.readReg 6 == 0x56#32 && t.readReg 7 == 0x78#32) = true := by
  decide
theorem test_decw : isNext (exec (.decw .lo 7) (regs 0 0 0 0 0 0 0 0xFF00ABFF))
    (fun t => t.readReg 0 == 0xFF#32 && t.readReg 1 == 0#32 && t.readReg 2 == 0xAB#32 && t.readReg 3 == 0xFF#32) = true := by
  decide
theorem test_todisp : isNext (exec (.todisp 5 4) (regs 0 0 0 0 0x12345678 0 0 0))
    (fun t => t.readReg 5 == 0x78123456#32 && t.readReg 4 == 0x12345678#32) = true := by decide
theorem test_decd : isNext (exec (.decd .lo 5) (regs 0 0 0 0 0 0x78123456 0 0))
    (fun t => t.readReg 0 == 0x78#32 && t.readReg 1 == 0x12#32 && t.readReg 2 == 0x34#32 && t.readReg 3 == 0x56#32) = true := by
  decide

/-! ### The image (95_test_vectors.md 2.3) -/

def srcBytes : List Byte := [0x0A, 0x14, 0x1E, 0x28, 0x32, 0x3C, 0x46, 0x50]

theorem test_load_rgb : isNext (exec (.load 0 1 2 .rgb) (withSrc (regs 2 1 6 0 0 0 0 0) srcBytes))
    (fun t => t.readPix 0 == 0x0A141EFF#32 && t.readPix 1 == 0x28323CFF#32 && t.imgW == 2#32 && t.imgH == 1#32 &&
      t.imgValid && ended t .ok 0#32) = true := by decide
/-- w * h * 4 = 2^32 exactly: a 32-bit product would wrap to the length 0. -/
theorem test_load_exact_product : isNext
    (exec (.load 0 1 2 .rgba) { regs 0x8000 0x8000 0 0 0 0 0 0 with maxPixels := 0xFFFFFFFF })
    (fun t => ended t .invalidBufferLength 0#32 && !t.imgValid) = true := by decide
theorem test_loadx : isNext (exec .loadx { withSrc base srcBytes with dec := ⟨false, 5#24, .rgba, 2#32, 1#32, 8#32⟩ })
    (fun t => t.readPix 0 == 0x0A141E28#32 && t.readPix 1 == 0x323C4650#32 && t.imgW == 2#32) = true := by decide
theorem test_loadx_failure : isNext (exec .loadx { base with dec := ⟨true, 0xFFFFFF#24, .rgb, 0#32, 0#32, 0#32⟩ })
    (fun t => ended t .decodeFailure 0x00FFFFFF#32) = true := by decide

def square (s : State) : State := withImage s 2#32 2#32 [0x01020304, 0x05060708, 0x090A0B0C, 0x0D0E0F10]

theorem test_getpix : isNext (exec (.getpix 5 3 4) (square (regs 0 0 0 0 1 0 0 0)))
    (fun t => t.readReg 5 == 0x090A0B0C#32) = true := by decide
theorem test_getpix_range : isNext (exec (.getpix 5 3 4) (square (regs 0 0 0 3 5 0 0 0)))
    (fun t => ended t .indexOutOfRange 3#32 && t.readReg 5 == 0#32) = true := by decide
theorem test_dims : isNext (exec (.dims 1 1) (withImage base 2#32 1#32 [0x0A141EFF, 0x28323CFF]))
    (fun t => t.readReg 1 == 1#32) = true := by decide
theorem test_export : isNext (exec .exportDisp (square base))
    (fun t => t.readDisp 0 == 0x04010203#32 && t.readDisp 3 == 0x100D0E0F#32 && t.readPix 0 == 0x01020304#32) = true := by decide

/-! ### Point operations (95_test_vectors.md 2.4) -/

def pixels : List Word := [0xFFFFFFFF, 0xFEFFFF07, 0x00010280, 0x65636409]

theorem test_gray : isNext (exec .gray (withImage base 4#32 1#32 pixels))
    (fun t => t.readPix 0 == 0xFFFFFFFF#32 && t.readPix 1 == 0xFEFEFE07#32 && t.readPix 2 == 0x01010180#32) = true := by decide
theorem test_inv : isNext (exec .inv (withImage base 4#32 1#32 pixels))
    (fun t => t.readPix 0 == 0x000000FF#32 && t.readPix 1 == 0x01000007#32 && t.readPix 3 == 0x9A9C9B09#32) = true := by decide
theorem test_thr : isNext (exec (.thr 100) (withImage base 4#32 1#32 pixels))
    (fun t => t.readPix 3 == 0xFF000009#32 && t.readPix 2 == 0x00000080#32) = true := by decide
theorem test_thr_255 : isNext (exec (.thr 255) (withImage base 4#32 1#32 pixels))
    (fun t => t.readPix 0 == 0x000000FF#32) = true := by decide

/-! ### Histograms (95_test_vectors.md 2.5) -/

theorem test_hbuild : isNext (exec .hbuild (withImage base 2#32 1#32 [0x0A141EFF, 0x0A281E00]))
    (fun t => t.readBin .r 10 == 2#32 && t.readBin .g 20 == 1#32 && t.readBin .b 30 == 2#32 && t.histValid) = true := by
  decide +kernel
theorem test_hcount : isNext (exec (.hcount 1 0 .r) (withHist (regs 10 0 0 0 0 0 0 0) [(10, 2)]))
    (fun t => t.readReg 1 == 2#32) = true := by decide +kernel
theorem test_hcount_range : isNext (exec (.hcount 1 0 .r) (withHist (regs 256 7 0 0 0 0 0 0) [(10, 2)]))
    (fun t => ended t .indexOutOfRange 0x100#32 && t.readReg 1 == 7#32) = true := by decide +kernel
theorem test_hlow : isNext (exec (.hlow 2 3 .g) (withHist base [(20, 1), (40, 3)]))
    (fun t => t.readReg 2 == 1#32 && t.readReg 3 == 20#32 && !t.empty) = true := by decide +kernel
theorem test_hlow_same_register : isNext (exec (.hlow 2 2 .g) (withHist base [(20, 1)]))
    (fun t => t.readReg 2 == 20#32) = true := by decide +kernel
theorem test_hhigh : isNext (exec (.hhigh 2 3 .g) (withHist base [(20, 1), (40, 3)]))
    (fun t => t.readReg 2 == 3#32 && t.readReg 3 == 40#32) = true := by decide +kernel
/-- H2: the bins 1, 3 hold 2, 1; after the first three steps of HCUM the bins 0..4 hold 0, 2, 2, 3, 0. -/
theorem test_hcum : [0, 1, 2, 3, 4].map (fun i => (cumulateUpTo ((withHist base [(1, 2), (3, 1)]).hist.get .r) 3).1.bin i) =
    [0#32, 2#32, 2#32, 3#32, 0#32] := by decide +kernel
/-- Sums of 2^31 + 2^31 and then 0 + 2^31: the first wraps and is the one kept. -/
theorem test_hcum_overflow :
    (cumulateUpTo ((withHist base [(0, 0x80000000), (1, 0x80000000), (2, 0x80000000)]).hist.get .r) 3).2 = some 1 := by
  decide +kernel

/-! ### The bus (95_test_vectors.md 2.6) -/

/-- The answer to one access on a state. -/
def answer (s : State) (sp : Space) (a : Nat) (n : Size) (d : Direction) : Option Reply :=
  (s.serve ⟨.host, sp, a, n, d⟩).responses.head?.map (·.reply)

def exported : State := { base with disp := [(0, 0xFF0A141E#32)] }

theorem test_read_disp : answer exported .disp 0 .four .read = some (.data 0xFF0A141E#32) ∧
    answer exported .disp 1 .one .read = some (.data 0x14#32) ∧
    answer exported .disp 2 .two .read = some (.data 0xFF0A#32) := by decide
theorem test_bus_errors : answer exported .disp 1 .two .read = some .busError ∧
    answer exported .disp 0 .four (.write 0#32) = some .busError ∧ answer base .reg 0x04 .two .read = some .busError ∧
    answer base .reg 0x18 .four .read = some .busError ∧ answer base .reg 0x54 .four .read = some .busError ∧
    answer base .src 64 .one .read = some .busError := by decide
theorem test_write_src : answer
    ((base.serve ⟨.host, .src, 0, .four, .write 0x281E140A#32⟩).serve ⟨.host, .src, 3, .one, .write 0xAB#32⟩) .src 0 .four .read =
      some (.data 0xAB1E140A#32) := by decide
theorem test_clear_lost : (State.serve { base with lost := true } ⟨.host, .reg, 0x04, .four, .write 0x10#32⟩).lost = false ∧
    (State.serve { base with lost := true } ⟨.host, .reg, 0x04, .four, .write 0xFFFFFFEF#32⟩).lost = true := by decide

/-- P5 (a): a register write while BUSY = 1 is dropped and sets LOST. (b): after the engine's turn it is stored. -/
theorem test_program_order :
    isNext (stepN 3 { regs 2 0 0 0 0 0 0 0 with events := programEvents [.cmd .gray, .wr .reg 0x20 9#32 .four, .turn] })
      (fun t => t.readReg 0 == 2#32 && t.lost && ended t .noImage 0#32) = true ∧
    isNext (stepN 4 { regs 2 0 0 0 0 0 0 0 with events := programEvents [.cmd .gray, .turn, .wr .reg 0x20 9#32 .four, .wait 0] })
      (fun t => t.readReg 0 == 9#32 && !t.lost) = true := by decide

/-! ### The hypotheses of the statements can be met

One theorem per obligation that has hypotheses, named after it. Each gives a state and operands that meet the hypotheses of every
clause, at a boundary of their range where there is one. -/

/-- `s` with a command word in flight and events to come. -/
def busyWith (s : State) (es : List Event) : State := { s with inflight := some 0x40000000#32, events := es }

/-- `s` with no command in flight and events to come. -/
def idleWith (s : State) (es : List Event) : State := { s with events := es }

theorem not_refused {m : Nat} {a : Access} (h : a.refused m = false) : ¬ a.MustRefuse m := Access.refused_eq_false.1 h

/-- A 2x1 image and a histogram of its two pixels. -/
def full : State :=
  let h := Bins.setBin zeroBins 10 2#32
  { withImage base 2#32 1#32 [0x0A0A0AFF, 0x0A0A0A00] with histValid := true, hist := ⟨h, h, h⟩ }

/-- A histogram of zeros. -/
def blank : State := { base with histValid := true }

theorem full_bins (c : Channel) (i : Nat) : full.readBin c i = if i = 10 then 2#32 else 0#32 := by
  have h : full.readBin c i = (Bins.setBin zeroBins 10 2#32).bin i := by cases c <;> rfl
  rw [h, Bins.bin_setBin _ _ _ _ (by decide), Bins.bin_zeroBins]
  simp only [eq_comm]

theorem full_binSum (c : Channel) : full.binSum c = 2 := by
  have h : full.binSum c = ((List.range 256).map (fun i => if 10 = i then 2 else 0)).sum := by
    rw [State.binSum]
    congr 1
    refine List.map_congr_left (fun i _ => ?_)
    rw [full_bins c i]
    by_cases e : i = 10
    · rw [if_pos e, if_pos e.symm]
      rfl
    · rw [if_neg e, if_neg (fun h => e h.symm)]
      rfl
  rw [h]
  decide +kernel

theorem full_inv : full.Inv where
  capacity := ⟨by decide, by decide⟩
  memories := ⟨by decide, by decide, by decide, by decide, by decide, by decide⟩
  image := ⟨fun _ => by decide, fun _ => by decide, fun _ => by decide, fun _ => by decide, fun h => absurd h (by decide)⟩
  hist := by
    refine ⟨fun _ c => ⟨10, by decide, ?_⟩, fun _ c _ => ?_, fun h => absurd h (by decide), rfl⟩
    · rw [full_bins c 10]
      decide
    · rw [full_binSum]
      decide
  result := ⟨fun _ => rfl, fun h => absurd h (by decide), fun _ => rfl⟩

theorem witness_EncodeOfDecodeIsTheWord : decode 0x480000FF#32 = .ok (.thr 255) := by decide

theorem witness_IllegalWordsAreReported : ∃ e, decode 0xFFFFFFFF#32 = .error e := ⟨.reservedOpcode, by decide⟩

theorem witness_StepRunsTheDecodedCommand : decode 0x40000000#32 = .ok .gray ∧
    (busyWith base [.engine]).inflight = some 0x40000000#32 ∧ (busyWith base [.engine]).events = [.engine] ∧
    (busyWith base []).inflight = some 0x40000000#32 ∧ (busyWith base []).events = [] := by decide

theorem witness_IdleEngineKeepsAllState : base.inflight = none ∧ base.events = [] ∧
    (idleWith base [.engine]).inflight = none ∧ (idleWith base [.engine]).events = [.engine] := by decide

theorem witness_CmdWriteStartsOrIsDropped : base.inReset = false ∧
    (idleWith base [.access (cmdWrite .host 0#32)]).inflight = none ∧
    (idleWith base [.access (cmdWrite .host 0#32)]).events = [.access (cmdWrite .host 0#32)] ∧
    (busyWith base [.access (cmdWrite .host 0#32)]).inflight = some 0x40000000#32 ∧
    (busyWith base [.access (cmdWrite .host 0#32)]).events = [.access (cmdWrite .host 0#32)] ∧
    (idleWith base [.access ⟨.host, .reg, 0x00, .four, .read⟩]).events = [.access ⟨.host, .reg, 0x00, .four, .read⟩] := by decide

/-- The last SRC byte, and the read-only register ERRINFO. -/
theorem witness_WritesWhileBusyAreDropped :
    ∀ a ∈ [Access.mk .host .src 63 .one (.write 1#32), Access.mk .decoder .reg 0x08 .four (.write 1#32)],
      (busyWith base [.access a]).inReset = false ∧ (busyWith base [.access a]).inflight = some 0x40000000#32 ∧
      ¬ a.MustRefuse (busyWith base [.access a]).maxPixels ∧ a.dir = .write 1#32 ∧ ¬ (a.space = .reg ∧ a.addr = 0x04) ∧
      (busyWith base [.access a]).events = [.access a] := by
  intro a ha
  simp only [List.mem_cons, List.not_mem_nil, or_false] at ha
  rcases ha with rfl | rfl <;>
    exact ⟨by decide, by decide, not_refused (by decide), by decide, by decide, by decide⟩

theorem witness_StatusWriteChangesOnlyLost : base.inReset = false ∧
    (busyWith base [.access ⟨.host, .reg, 0x04, .four, .write 0x10#32⟩]).events =
      [.access ⟨.host, .reg, 0x04, .four, .write 0x10#32⟩] := by decide

/-- Every kind of refused access at its boundary (MAX_PIXELS = 16), and the accesses just inside. -/
theorem witness_BusErrorsAreExactlyTheListedOnes :
    (∀ a ∈ [Access.mk .host .reg 0x04 .two .read, .mk .host .reg 0x18 .four .read, .mk .host .reg 0x1C .four .read,
      .mk .host .reg 0x54 .four .read, .mk .host .reg 0x100 .four .read, .mk .host .src 64 .one .read,
      .mk .host .src 1 .two .read, .mk .host .disp 0 .one (.write 0#32)], a.MustRefuse base.maxPixels) ∧
    (∀ a ∈ [Access.mk .host .reg 0x14 .four .read, .mk .host .reg 0x20 .four .read, .mk .host .reg 0x50 .four .read,
      .mk .host .src 63 .one .read, .mk .host .disp 60 .four .read], ¬ a.MustRefuse base.maxPixels) ∧
    base.inReset = false ∧
    (idleWith base [.access ⟨.host, .reg, 0x14, .four, .read⟩]).events = [.access ⟨.host, .reg, 0x14, .four, .read⟩] := by
  refine ⟨fun a ha => (Access.refused_iff _ a).1 ?_, fun a ha => not_refused ?_, rfl, rfl⟩
  · revert a
    decide
  · revert a
    decide

theorem witness_ReadsHaveNoSideEffect : (Access.mk .display .disp 0 .four .read).dir = .read ∧
    (busyWith base [.access ⟨.display, .disp, 0, .four, .read⟩]).events = [.access ⟨.display, .disp, 0, .four, .read⟩] := by decide

theorem witness_StatusReadShowsTheFields : base.inReset = false ∧
    (idleWith base [.access (statusPoll .host)]).events = [.access (statusPoll .host)] ∧
    (idleWith base [.access (statusPoll .host)]).inflight = none := by decide

theorem witness_ReadOnlyRegistersReadTheirFields : base.inReset = false ∧ base.inflight = none ∧
    (0x10, base.imgH) ∈ [(0x08, base.errInfo), (0x0C, base.imgW), (0x10, base.imgH)] ∧
    (idleWith base [.access ⟨.display, .reg, 0x10, .four, .read⟩]).events = [.access ⟨.display, .reg, 0x10, .four, .read⟩] ∧
    (idleWith base [.access ⟨.host, .reg, 0x14, .four, .read⟩]).events = [.access ⟨.host, .reg, 0x14, .four, .read⟩] ∧
    0x14 ∈ [0x08, 0x0C, 0x10, 0x14] ∧
    (idleWith base [.access ⟨.host, .reg, 0x14, .four, .write 1#32⟩]).events =
      [.access ⟨.host, .reg, 0x14, .four, .write 1#32⟩] := by decide

theorem witness_RegisterWriteThenReadReturnsTheValue : base.inReset = false ∧ base.inflight = none ∧
    (idleWith base [.access ⟨.host, .reg, 0x20 + 4 * (7 : Reg).val, .four, .write 5#32⟩,
      .access ⟨.decoder, .reg, 0x20 + 4 * (7 : Reg).val, .four, .read⟩]).events =
      [.access ⟨.host, .reg, 0x20 + 4 * (7 : Reg).val, .four, .write 5#32⟩,
        .access ⟨.decoder, .reg, 0x20 + 4 * (7 : Reg).val, .four, .read⟩] := by decide

theorem witness_DecoderPortKeepsItsFields : base.inReset = false ∧ base.inflight = none ∧
    (let v := 0xFFFFFFFF#32
     ((0x40 : Nat), 0xFFFFFF01#32, (⟨true, 0xFFFFFF#24, .rgb, 0#32, 0#32, 0#32⟩ : DecPort)) ∈
      [(0x40, 0xFFFFFF01#32, { base.dec with fail := v.getLsbD 0, code := v.extractLsb' 8 24 }),
        (0x44, 0x00000001#32, { base.dec with layout := if v.getLsbD 0 = true then .rgba else .rgb }),
        (0x48, 0xFFFFFFFF#32, { base.dec with w := v }), (0x4C, 0xFFFFFFFF#32, { base.dec with h := v }),
        (0x50, 0xFFFFFFFF#32, { base.dec with len := v })]) ∧
    (idleWith base [.access ⟨.decoder, .reg, 0x40, .four, .write 0xFFFFFFFF#32⟩,
      .access ⟨.host, .reg, 0x40, .four, .read⟩]).events =
      [.access ⟨.decoder, .reg, 0x40, .four, .write 0xFFFFFFFF#32⟩, .access ⟨.host, .reg, 0x40, .four, .read⟩] := by decide

/-- The last byte and the last word of SRC. -/
theorem witness_SrcWriteIsLittleEndian : base.inReset = false ∧ base.inflight = none ∧
    (63 % Size.one.bytes = 0 ∧ 63 + Size.one.bytes ≤ 4 * base.maxPixels) ∧
    (60 % Size.four.bytes = 0 ∧ 60 + Size.four.bytes ≤ 4 * base.maxPixels) ∧
    (idleWith base [.access ⟨.host, .src, 60, .four, .write 1#32⟩]).events = [.access ⟨.host, .src, 60, .four, .write 1#32⟩] := by
  decide

theorem witness_BusReadsAreLittleEndian : base.inReset = false ∧ base.inflight = none ∧
    62 % Size.two.bytes = 0 ∧ 62 + Size.two.bytes ≤ 4 * base.maxPixels ∧
    (idleWith base [.access ⟨.host, .src, 62, .two, .read⟩]).events = [.access ⟨.host, .src, 62, .two, .read⟩] ∧
    (idleWith base [.access ⟨.host, .disp, 62, .two, .read⟩]).events = [.access ⟨.host, .disp, 62, .two, .read⟩] := by decide

theorem witness_WideSrcWriteEqualsByteWrites : base.inReset = false ∧ base.inflight = none ∧ 60 % Size.four.bytes = 0 ∧
    60 + Size.four.bytes ≤ 4 * base.maxPixels := by decide

/-- A machine in reset. -/
def inResetWith (es : List Event) : State := { base with inReset := true, events := es }

theorem witness_AccessesInResetAreRefused : (inResetWith [.access (cmdWrite .host 0#32)]).inReset = true ∧
    (inResetWith [.access (cmdWrite .host 0#32)]).events = [.access (cmdWrite .host 0#32)] := by decide

theorem witness_ResetInputLeavesTheResetState : (busyWith base [.assertReset]).events = [.assertReset] ∧
    (inResetWith [.releaseReset]).inReset = true ∧ (inResetWith [.releaseReset]).events = [.releaseReset] := by decide

theorem witness_EveryCommandCompletes : (busyWith base []).events = [] ∧
    (busyWith base [.engine, .engine]).events = .engine :: [.engine] := by decide

/-- A command of each group that OnlyTheNamedCommandsWriteEachState names, and one outside it. -/
theorem witness_OnlyTheNamedCommandsWriteEachState : Instr.gray.mnemonic ∉ [Mnemonic.load, .loadx] ∧
    Instr.hbuild.mnemonic ∉ [Mnemonic.load, .loadx, .gray, .inv, .thr] ∧ Instr.gray.mnemonic ≠ .exportDisp ∧
    Instr.gray.mnemonic ≠ .hbuild ∧ Instr.gray.mnemonic ∉ [Mnemonic.hbuild, .hcum] ∧
    Instr.gray.mnemonic ∉ [Mnemonic.hlow, .hhigh] ∧
    Instr.gray.mnemonic ∈ [Mnemonic.load, .loadx, .exportDisp, .gray, .inv, .thr, .hbuild, .hcum] := by decide

theorem witness_BusyAccessesDoNotDisturbTheCommand : (busyWith base []).inReset = false ∧
    (busyWith base []).inflight = some 0x40000000#32 := by decide

theorem witness_ProtocolHostSeesOneAtomicStep :
    let es := .access (cmdWrite .host 0x40000000#32) ::
      (List.replicate 2 (.access (statusPoll .host)) ++ [.engine, .access (statusPoll .host)])
    (idleWith base es).inReset = false ∧ (idleWith base es).inflight = none ∧ (idleWith base es).events = es := by decide

theorem witness_EveryStepKeepsTheInvariant : full.Inv ∧ step full = .next full := ⟨full_inv, rfl⟩

theorem witness_ResetMeetsTheInvariant : (1 ≤ 1 ∧ 1 ≤ 2 ^ 32 - 1) ∧ 1 ≤ 2 ^ 32 - 1 ∧ 2 ^ 32 - 1 ≤ 2 ^ 32 - 1 := by decide

theorem witness_DecdWritesTheFourDisplayChannels : 255 < 256 ∧ 0 < 256 ∧
    ((regs 0xFF000001 0 0 0 0 0 0 0).readReg 0).toNat = 255 * 2 ^ 24 + 0 * 2 ^ 16 + 0 * 2 ^ 8 + 1 := by decide

theorem witness_CodecRoundTrips : ((regs 255 0 1 254 0 0 0 0).readReg 0).toNat = 255 ∧
    ((regs 255 0 1 254 0 0 0 0).readReg 1).toNat = 0 ∧ ((regs 255 0 1 254 0 0 0 0).readReg 2).toNat = 1 ∧
    ((regs 255 0 1 254 0 0 0 0).readReg 3).toNat = 254 ∧ 255 < 256 := by decide

/-- A load that fills the 16 pixels. -/
theorem witness_LoadBuildsTheImage : let s := regs 4 4 64 0 0 0 0 0
    1 ≤ (s.readReg 0).toNat ∧ 1 ≤ (s.readReg 1).toNat ∧ (s.readReg 0).toNat * (s.readReg 1).toNat ≤ s.maxPixels ∧
    (s.readReg 2).toNat = (s.readReg 0).toNat * (s.readReg 1).toNat * bytesPerPixel .rgba := by decide

/-- `base` with the decoder's declaration. -/
def declared (fail : Bool) (w h len : Word) (lay : Layout) : State := { base with dec := ⟨fail, 7#24, lay, w, h, len⟩ }

theorem witness_LoadxBuildsTheDeclaredImage : let s := declared false 16#32 1#32 48#32 .rgb
    s.dec.fail = false ∧ 1 ≤ s.dec.w.toNat ∧ 1 ≤ s.dec.h.toNat ∧ s.dec.w.toNat * s.dec.h.toNat ≤ s.maxPixels ∧
    s.dec.len.toNat = s.dec.w.toNat * s.dec.h.toNat * bytesPerPixel s.dec.layout := by decide

/-- LOAD from three registers, and LOADX from the decoder port; then width, height and length for each clause. -/
theorem witness_LoadChecksInOrder :
    (∃ rs1 rs2 rs3, Instr.load 0 1 2 .rgb = .load rs1 rs2 rs3 .rgb ∧ 4#32 = (regs 4 4 48 0 0 0 0 0).readReg rs1 ∧
      4#32 = (regs 4 4 48 0 0 0 0 0).readReg rs2 ∧ 48#32 = (regs 4 4 48 0 0 0 0 0).readReg rs3) ∧
    (declared false 4#32 4#32 48#32 .rgb).dec.fail = false ∧
    (0#32).toNat = 0 ∧ base.maxPixels < (17#32).toNat * (1#32).toNat ∧ (47#32).toNat % bytesPerPixel .rgb ≠ 0 ∧
    (45#32).toNat ≠ (4#32).toNat * (4#32).toNat * bytesPerPixel .rgb ∧
    (4#32).toNat * (4#32).toNat ≤ base.maxPixels ∧
    (48#32).toNat = (4#32).toNat * (4#32).toNat * bytesPerPixel .rgb :=
  ⟨⟨0, 1, 2, by decide⟩, by decide⟩

theorem witness_LoadxSurfacesTheDecoderFailure : (declared true 0#32 0#32 0#32 .rgb).dec.fail = true := by decide

/-- A 2x2 image, with 1 in x0 and 2 in x1. -/
def corner : State := square (regs 1 2 0 0 0 0 0 0)

/-- The last pixel, the column and the row just outside, and no image. -/
theorem witness_GetpixReadsTheCoordinate : base.imgValid = false ∧
    corner.imgValid = true ∧ (corner.readReg 0).toNat < corner.imgW.toNat ∧ (corner.readReg 0).toNat < corner.imgH.toNat ∧
    corner.imgW.toNat ≤ (corner.readReg 1).toNat ∧ corner.imgH.toNat ≤ (corner.readReg 1).toNat := by decide

theorem witness_DimsReturnsWidthThenHeight : base.imgValid = false ∧ (square base).imgValid = true ∧ (0 : Reg) ≠ 7 := by decide

theorem witness_ExportWritesTheDisplayWords : base.imgValid = false ∧ (square base).imgValid = true ∧
    3 < (square base).imgW.toNat * (square base).imgH.toNat := by decide

theorem witness_GrayAveragesTheColours : base.imgValid = false ∧ (square base).imgValid = true ∧
    3 < (square base).imgW.toNat * (square base).imgH.toNat := by decide

theorem witness_InvComplementsTheColours : base.imgValid = false ∧ (square base).imgValid = true ∧
    3 < (square base).imgW.toNat * (square base).imgH.toNat := by decide

theorem witness_ThrThresholdsEachColour : base.imgValid = false ∧ (square base).imgValid = true ∧
    3 < (square base).imgW.toNat * (square base).imgH.toNat := by decide

theorem witness_PointOperationsTwice : (square base).imgValid = true := rfl

theorem witness_HbuildCountsThePixels : base.imgValid = false ∧ full.imgValid = true ∧ full.Inv :=
  ⟨rfl, rfl, full_inv⟩

theorem witness_BuiltBinsSumToThePixelCount : full.Inv ∧ full.imgValid = true := ⟨full_inv, rfl⟩

/-- The last index in range and the first outside. -/
theorem witness_HcountReadsTheBin : base.histValid = false ∧ full.histValid = true ∧
    ({ full with x := #v[255, 256, 0, 0, 0, 0, 0, 0] } : State).histValid = true ∧
    (({ full with x := #v[255, 256, 0, 0, 0, 0, 0, 0] } : State).readReg 0).toNat ≤ 255 ∧
    255 < (({ full with x := #v[255, 256, 0, 0, 0, 0, 0, 0] } : State).readReg 1).toNat :=
  ⟨rfl, rfl, rfl, (by decide : (255#32).toNat ≤ 255), (by decide : 255 < (256#32).toNat)⟩

/-- A histogram with one non-zero bin, and one of zeros. -/
theorem witness_HlowFindsTheLowestBin : base.histValid = false ∧ full.histValid = true ∧ full.readBin .r 10 ≠ 0#32 ∧
    (∀ j, j < 10 → full.readBin .r j = 0#32) ∧ (blank).histValid = true ∧
    (∀ j, j < 256 → (blank).readBin .r j = 0#32) := by
  refine ⟨rfl, rfl, ?_, fun j hj => ?_, rfl, fun j _ => Bins.bin_zeroBins j⟩
  · rw [full_bins .r 10]
    decide
  · rw [full_bins .r j, if_neg (by omega)]

theorem witness_HhighFindsTheHighestBin : base.histValid = false ∧ full.histValid = true ∧ full.readBin .b 10 ≠ 0#32 ∧
    (∀ j, 10 < j → j < 256 → full.readBin .b j = 0#32) ∧ (blank).histValid = true ∧
    (∀ j, j < 256 → (blank).readBin .b j = 0#32) := by
  refine ⟨rfl, rfl, ?_, fun j h1 h2 => ?_, rfl, fun j _ => Bins.bin_zeroBins j⟩
  · rw [full_bins .b 10]
    decide
  · rw [full_bins .b j, if_neg (by omega)]

theorem witness_HistogramCommandsNeedAHistogram : base.histValid = false ∧ decode 0x70000000#32 = .ok (.hcum .r) ∧
    (Instr.hcum .r).mnemonic ∈ [Mnemonic.hcount, .hlow, .hhigh, .hcum] ∧ decode 0x64000300#32 = .error .reservedChannel := by
  decide

/-- Bins 0 and 1 of 2^31 each: the sum at 1 needs 33 bits. -/
def heavy : State := { base with
  histValid := true
  hist := ⟨Bins.setBin (Bins.setBin zeroBins 0 0x80000000#32) 1 0x80000000#32, zeroBins, zeroBins⟩ }

theorem heavy_bins : heavy.readBin .r 0 = 0x80000000#32 ∧ heavy.readBin .r 1 = 0x80000000#32 := by
  constructor
  · show (Bins.setBin _ 1 _).bin 0 = _
    rw [Bins.bin_setBin _ _ _ _ (by decide), if_neg (by decide), Bins.bin_setBin _ _ _ _ (by decide), if_pos rfl]
  · show (Bins.setBin _ 1 _).bin 1 = _
    rw [Bins.bin_setBin _ _ _ _ (by decide), if_pos rfl]

/-- No histogram; a histogram without overflow; and one whose first sum overflows. -/
theorem witness_HcumFormsThePrefixSums : base.histValid = false ∧ (blank).histValid = true ∧
    (∀ i, 1 ≤ i → i < 256 → (blank).cumSum .r i < 2 ^ 32) ∧
    heavy.histValid = true ∧ 2 ^ 32 ≤ heavy.cumSum .r 1 ∧ (∀ j, 1 ≤ j → j < 1 → heavy.cumSum .r j < 2 ^ 32) := by
  refine ⟨rfl, rfl, fun i _ _ => ?_, rfl, ?_, fun j h1 h2 => by omega⟩
  · have h : ∀ n : Word, n = 0#32 → ∀ m, n.toNat + m % 2 ^ 32 < 2 ^ 32 := by
      rintro _ rfl m
      simp only [BitVec.toNat_ofNat]
      omega
    exact h _ (Bins.bin_zeroBins i) _
  · rw [State.cumSum, State.prefixSum_eq, binsPrefix_zero, heavy_bins.2]
    have h : (heavy.hist.get .r).bin 0 = 0x80000000#32 := heavy_bins.1
    rw [h]
    decide

theorem witness_HcumTwiceAccumulatesTwice : heavy.histValid = true ∧ ∃ j, j < 255 ∧ heavy.readBin .r j ≠ 0#32 := by
  refine ⟨rfl, 0, by decide, ?_⟩
  rw [heavy_bins.1]
  decide

theorem witness_FirstHcumNeverOverflows : full.Inv ∧ full.imgValid = true ∧ full.histValid = true ∧ full.cumCnt.get .r = 0#2 :=
  ⟨full_inv, rfl, rfl, rfl⟩

theorem witness_HcumKeepsTheLowestBin : full.Inv ∧ full.histValid = true := ⟨full_inv, rfl⟩

end Sys2Proof.Tests
end

section
/-! The invariant of the machine (00_scope.md R6 to 70_reset_and_hazards.md R231): the state after reset meets it, and every
event, bus access and command keeps it. -/

namespace Sys2Proof.Machine

/-! ### The state after reset (R44, R230) -/

theorem State.resetWith_inv {m : Nat} (h : (State.resetWith m).CapacityLegal) : (State.resetWith m).Inv where
  capacity := h
  memories := ⟨Memory.wf_nil, Memory.wf_nil, Memory.wf_nil, nofun, nofun, nofun⟩
  image := ⟨nofun, nofun, nofun, nofun, fun _ => ⟨rfl, rfl⟩⟩
  hist := ⟨nofun, nofun, fun _ c => by cases c <;> rfl, rfl⟩
  result := ⟨fun _ => rfl, nofun, fun _ => rfl⟩

theorem State.reset_capacityLegal : State.reset.CapacityLegal :=
  ⟨Nat.le_max_left _ _, Nat.max_le.2 ⟨by decide, Nat.sub_le _ _⟩⟩

/-- Settles O29: the capacity is legal, and every other part holds of the idle machine without image and histogram. -/
theorem resetMeetsTheInvariant : Obligations.ResetMeetsTheInvariant :=
  ⟨State.resetWith_inv State.reset_capacityLegal, fun _ h1 h2 => State.resetWith_inv ⟨h1, h2⟩⟩

/-! ### A step with a command in flight (R16, R85) -/

theorem engineTurn_of_decode {s : State} {w : Word} {i : Instr} (hw : s.inflight = some w) (hd : decode w = .ok i) :
    engineTurn s = exec i s := by
  simp only [engineTurn, hw, perform, hd]

theorem step_nil {s : State} (h : s.events = []) : step s = engineTurn s := by
  rw [step, h]

theorem step_cons {s : State} {e : Event} {es : List Event} (h : s.events = e :: es) :
    step s = happen e { s with events := es } := by
  rw [step, h]

theorem step_engine {s : State} {es : List Event} (h : s.events = .engine :: es) :
    step s = engineTurn { s with events := es } :=
  step_cons h

/-- The 32 bits of a word survive being placed (R80). -/
theorem State.withFetchWord_word (s : State) (w : Word) :
    s.withFetchWord 32 w.toNat = { s with inflight := some w, inReset := false, events := .engine :: s.events } := by
  simp only [State.withFetchWord, Nat.mod_eq_of_lt w.isLt, BitVec.ofNat_toNat, BitVec.setWidth_eq]

/-- Settles O7: each of the three steps is the engine's turn with the word in flight, which is `exec` of what it decodes to. -/
theorem stepRunsTheDecodedCommand : Obligations.StepRunsTheDecodedCommand := by
  intro s w i es hd
  refine ⟨fun hw he => ?_, fun hw he => ?_, ?_⟩
  · exact (step_engine he).trans (engineTurn_of_decode hw hd)
  · exact (step_nil he).trans (engineTurn_of_decode hw hd)
  · rw [s.withFetchWord_word, step_engine rfl, engineTurn_of_decode rfl hd]

/-! ### Where an access to SRC that is not refused ends (R61, R63) -/

theorem Access.src_fits {m : Nat} {a : Access} (h : ¬ a.MustRefuse m) (hs : a.space = .src) :
    a.addr + a.size.bytes ≤ 4 * m := by
  by_contra hlt
  have hreg : a.space ≠ .reg := hs ▸ by decide
  exact h (.inr (.inl ⟨hreg, Nat.lt_of_not_le hlt⟩))

/-! ### Histograms (R162, R171, R179) -/

/-- The bins of a channel are exact when the image has fewer than 2^32 pixels (R163). -/
theorem State.buildHistograms_bin_toNat {s : State} (h : s.numPixels < 2 ^ 32) (c : Channel) (i : Nat) :
    ((s.buildHistograms.get c).bin i).toNat = s.pixelsWith c i := by
  rw [s.buildHistograms_bin, BitVec.toNat_ofNat, Nat.mod_eq_of_lt (Nat.lt_of_le_of_lt (s.pixelsWith_le c i) h)]

/-- The bins of a channel right after HBUILD sum to the number of pixels (R162). -/
theorem State.binSum_setBuilt {s : State} (h : s.numPixels < 2 ^ 32) (c : Channel) :
    (s.setBuilt s.buildHistograms).binSum c = s.numPixels := by
  simp only [State.binSum, State.readBin_setBuilt, State.buildHistograms_bin_toNat h, s.sum_pixelsWith]

theorem State.exists_bin_ne_zero {s : State} {c : Channel} (h : s.binSum c ≠ 0) : ∃ i, i < 256 ∧ s.readBin c i ≠ 0#32 := by
  by_contra hz
  push Not at hz
  refine h (List.sum_eq_zero fun n hn => ?_)
  obtain ⟨i, hi, rfl⟩ := List.mem_map.1 hn
  rw [hz i (List.mem_range.1 hi)]
  rfl

/-- A scan whose order holds a non-zero bin does not give the empty result (R171, R176). -/
theorem scanBins_not_empty {h : Bins} {order : List Nat} {i : Nat} (hi : i ∈ order) (h0 : h.bin i ≠ 0#32) :
    (scanBins h order).2.2 = false := by
  rcases scanBins_cases h order with ⟨_, _, _, _, e⟩ | ⟨hz, _⟩
  · rw [e]
  · exact absurd (hz i hi) h0

theorem cumulate_bin (h : Bins) {i : Nat} (hi : i < 256) : ((cumulate h).1.bin i).toNat = binsPrefix h i % 2 ^ 32 := by
  rw [cumulate, cumulateUpTo_bins h 255 (by decide), if_pos (Nat.le_of_lt_succ hi)]

/-- Cumulation does not empty a histogram (R173): a bin is the difference of two neighbouring cumulated bins modulo 2^32, so where
it is not zero one of them is not. -/
theorem exists_cumulate_bin_ne_zero {h : Bins} {i : Nat} (hi : i < 256) (h0 : h.bin i ≠ 0#32) :
    ∃ j, j < 256 ∧ (cumulate h).1.bin j ≠ 0#32 := by
  by_contra hz
  push Not at hz
  have sum_zero : ∀ j, j < 256 → binsPrefix h j % 2 ^ 32 = 0 := fun j hj => by
    rw [← cumulate_bin h hj, hz j hj]
    rfl
  have hlt := (h.bin i).isLt
  refine h0 (BitVec.eq_of_toNat_eq (?_ : _ = 0))
  cases i with
  | zero =>
    have h1 := sum_zero 0 hi
    rw [binsPrefix_zero] at h1
    omega
  | succ j =>
    have h1 := sum_zero j (by omega)
    have h2 := sum_zero (j + 1) hi
    rw [binsPrefix_succ] at h2
    omega

/-- The overflow that HCUM reports is at a bin 1, ..., 255 (R201). -/
theorem cumulate_overflow_range {h : Bins} {i : Nat} (e : (cumulate h).2 = some i) : 1 ≤ i ∧ i ≤ 255 := by
  rcases cumulateUpTo_overflow h 255 (by decide) with ⟨e', _⟩ | ⟨j, e', h1, h2, _⟩
  · exact nomatch e'.symm.trans e
  · cases e'.symm.trans e
    exact ⟨h1, h2⟩

theorem saturatingSucc_ne_zero (n : BitVec 2) : saturatingSucc n ≠ 0#2 := by
  revert n
  decide

/-! ### Updates that keep the invariant -/

/-- What the invariant says of ERRINFO after a result (R201). -/
def ErrCode.InfoLegal (e : ErrCode) (info : Word) : Prop :=
  (e = .ok → info = 0#32) ∧ (e = .countOverflow → 1 ≤ info.toNat ∧ info.toNat ≤ 255)

theorem ErrCode.infoLegal_ok : ErrCode.ok.InfoLegal 0#32 := ⟨fun _ => rfl, nofun⟩

namespace State.Inv

variable {s : State}

/-- The invariant does not read the registers, LOST, the decoder port and the model's own lists and counters, and of the
command in flight only that there is none in reset. -/
theorem frame (h : s.Inv) {x : Vector Word 8} {i : Option Word} {l : Bool} {d : DecPort} {es : List Event}
    {r : List Response} {n : Nat} (hi : s.inReset = true → i = none) :
    State.Inv { s with x := x, inflight := i, lost := l, dec := d, events := es, responses := r, draws := n } where
  capacity := h.capacity
  memories := { h.memories with }
  image := { h.image with }
  hist := { h.hist with }
  result := { h.result with reset_idle := hi }

theorem setReg (h : s.Inv) (i : Reg) (v : Word) : (s.setReg i v).Inv := h.frame h.result.reset_idle

theorem setGroup (h : s.Inv) (q : Group) (v0 v1 v2 v3 : Word) : (s.setGroup q v0 v1 v2 v3).Inv :=
  (((h.setReg _ v0).setReg _ v1).setReg _ v2).setReg _ v3

theorem answer (h : s.Inv) (a : Access) (r : Reply) : (s.answer a r).Inv := h.frame h.result.reset_idle

theorem finish (h : s.Inv) {e : ErrCode} {info : Word} (he : e.InfoLegal info) : (s.finish e info).Inv where
  capacity := h.capacity
  memories := { h.memories with }
  image := { h.image with }
  hist := { h.hist with }
  result := ⟨he.1, he.2, fun _ => rfl⟩

theorem complete (h : s.Inv) : s.complete.Inv := h.finish ErrCode.infoLegal_ok

/-- Of the errors only COUNT_OVERFLOW, which no command raises, needs a value of ERRINFO (R201, R203). -/
theorem raise (h : s.Inv) (e : ErrCode) (info : Word) (he : e ≠ .ok := by decide)
    (he' : e ≠ .countOverflow := by decide) : (s.raise e info).Inv :=
  h.finish ⟨fun e0 => absurd e0 he, fun e0 => absurd e0 he'⟩

theorem fillPix (h : s.Inv) {n : Nat} (hn : n ≤ s.maxPixels) (f : Nat → Word) : (s.fillPix n f).Inv where
  capacity := h.capacity
  memories := { h.memories with
    pix_wf := Memory.wf_fill h.memories.pix_wf n f
    pix_range := fun c hc => (Memory.mem_fill hc).elim (Nat.lt_of_lt_of_le · hn) (h.memories.pix_range c) }
  image := { h.image with
    written := fun hv k hk => by
      rw [State.fillPix_pix, Memory.lookup_fill]
      split
      · rfl
      · exact h.image.written hv k hk }
  hist := { h.hist with }
  result := { h.result with }

theorem fillDisp (h : s.Inv) {n : Nat} (hn : n ≤ s.maxPixels) (f : Nat → Word) : (s.fillDisp n f).Inv where
  capacity := h.capacity
  memories := { h.memories with
    disp_wf := Memory.wf_fill h.memories.disp_wf n f
    disp_range := fun c hc => (Memory.mem_fill hc).elim (Nat.lt_of_lt_of_le · hn) (h.memories.disp_range c) }
  image := { h.image with }
  hist := { h.hist with }
  result := { h.result with }

theorem writeSrc (h : s.Inv) {a : Nat} (ha : a < 4 * s.maxPixels) (v : Byte) : (s.writeSrc a v).Inv where
  capacity := h.capacity
  memories := { h.memories with
    src_wf := Memory.wf_write h.memories.src_wf a v
    src_range := fun c hc => (Memory.mem_write hc).elim (fun e => e ▸ ha) (h.memories.src_range c) }
  image := { h.image with }
  hist := { h.hist with }
  result := { h.result with }

/-- The dimensions of an image whose pixels are written (R120, R122). -/
theorem setDims (h : s.Inv) {w v : Word} (hw : 1 ≤ w.toNat) (hv : 1 ≤ v.toNat) (hn : w.toNat * v.toNat ≤ s.maxPixels)
    (hp : ∀ k, k < w.toNat * v.toNat → (Memory.lookup s.pix k).isSome = true) : (s.setDims w v).Inv where
  capacity := h.capacity
  memories := { h.memories with }
  image := ⟨fun _ => hw, fun _ => hv, fun _ => hn, fun _ => hp, nofun⟩
  hist := { h.hist with }
  result := { h.result with }

theorem setEmpty_false (h : s.Inv) : (s.setEmpty false).Inv where
  capacity := h.capacity
  memories := { h.memories with }
  image := { h.image with }
  hist := { h.hist with never_empty := rfl }
  result := { h.result with }

/-- A command with a precondition keeps the invariant when what it guards does. -/
theorem require (h : s.Inv) {v : Bool} {e : ErrCode} {k : State → State} (hk : v = true → (k s).Inv)
    (he : e ≠ .ok := by decide) (he' : e ≠ .countOverflow := by decide) : (s.require v e k).Inv := by
  rcases s.require_cases v e k with ⟨_, heq⟩ | ⟨hv, heq⟩ <;> rw [heq]
  · exact h.raise _ _ he he'
  · exact hk hv

/-! ### The reset input (R230, R231) -/

theorem toReset (h : s.Inv) : s.toReset.Inv where
  capacity := h.capacity
  memories := { (State.resetWith_inv h.capacity).memories with }
  image := { (State.resetWith_inv h.capacity).image with }
  hist := ⟨nofun, nofun, (State.resetWith_inv h.capacity).hist.unbuilt, rfl⟩
  result := { (State.resetWith_inv h.capacity).result with }

theorem assertReset (h : s.Inv) : s.assertReset.Inv where
  capacity := h.capacity
  memories := { h.toReset.memories with }
  image := { h.toReset.image with }
  hist := { h.toReset.hist with }
  result := { h.toReset.result with reset_idle := fun _ => rfl }

theorem releaseReset (h : s.Inv) : s.releaseReset.Inv := by
  unfold State.releaseReset
  split
  · exact h.toReset
  · exact h

/-! ### Serving an access (R62 to R67, R241) -/

theorem writeHostReg (h : s.Inv) (hr : s.inReset = false) (r : RegName) (v : Word) : (s.writeHostReg r v).Inv := by
  cases r <;> exact h.frame fun hr' => nomatch hr.symm.trans hr'

theorem writeSrcValue (h : s.Inv) {a : Nat} {n : Size} (ha : a + n.bytes ≤ 4 * s.maxPixels) (v : Word) :
    (s.writeSrcValue a n v).Inv := by
  refine (List.foldlRecOn (motive := fun t : State => t.Inv ∧ t.maxPixels = s.maxPixels) (List.range n.bytes) _
    ⟨h, rfl⟩ fun t ht j hj => ⟨ht.1.writeSrc ?_ _, ht.2⟩).1
  rw [ht.2]
  have := List.mem_range.1 hj
  omega

theorem memWrite (h : s.Inv) (hr : s.inReset = false) {sp : Space} {a : Nat} {n : Size}
    (ha : sp = .src → a + n.bytes ≤ 4 * s.maxPixels) (v : Word) : (s.memWrite sp a n v).Inv := by
  cases sp with
  | reg =>
    simp only [State.memWrite]
    cases regAt a with
    | none => exact h
    | some r => exact h.writeHostReg hr r v
  | src => exact h.writeSrcValue (ha rfl) v
  | disp => exact h

theorem serve (h : s.Inv) (a : Access) : (s.serve a).Inv := by
  cases hb : s.inflight with
  | some w =>
    obtain ⟨l, r, d, e⟩ := State.serve_busy_frame a hb
    rw [e]
    exact h.frame h.result.reset_idle
  | none =>
    by_cases hm : s.inReset = true ∨ a.MustRefuse s.maxPixels
    · rw [State.serve_refused hm]
      exact h.answer _ _
    · simp only [not_or, Bool.not_eq_true] at hm
      rw [State.serve_idle hm.1 hm.2 hb]
      cases a.dir with
      | read => exact h.answer _ _
      | write v => exact (h.memWrite hm.1 (Access.src_fits hm.2) v).answer _ _

/-! ### Commands (R120 to R128, R140, R161 to R179) -/

theorem numPixels_lt (h : s.Inv) (hv : s.imgValid = true) : s.numPixels < 2 ^ 32 :=
  Nat.lt_of_le_of_lt (h.image.fits hv) (Nat.lt_succ_of_le h.capacity.2)

theorem numPixels_pos (h : s.Inv) (hv : s.imgValid = true) : 0 < s.numPixels :=
  Nat.mul_pos (h.image.width_pos hv) (h.image.height_pos hv)

theorem loadCore (h : s.Inv) (w v len : Word) (lay : Layout) : (s.loadCore w v len lay).Inv := by
  rcases s.loadCore_cases w v len lay with ⟨_, e⟩ | ⟨_, _, _, e⟩ | ⟨_, _, _, _, e⟩ | ⟨hw, hv, hn, _, e⟩ <;> rw [e]
  · exact h.raise _ _
  · exact h.raise _ _
  · exact h.raise _ _
  · refine ((h.fillPix hn _).setDims hw hv hn fun k hk => ?_).complete
    rw [State.fillPix_pix, Memory.lookup_fill, if_pos hk]
    rfl

theorem pointOp (h : s.Inv) (f : Word → Word) : (s.pointOp f).Inv :=
  h.require fun hv => (h.fillPix (h.image.fits hv) _).complete

theorem setBuilt (h : s.Inv) (hv : s.imgValid = true) : (s.setBuilt s.buildHistograms).Inv where
  capacity := h.capacity
  memories := { h.memories with }
  image := { h.image with }
  hist :=
    { nonzero := fun _ c => State.exists_bin_ne_zero (by
        rw [State.binSum_setBuilt (h.numPixels_lt hv)]
        exact (h.numPixels_pos hv).ne')
      counted := fun _ c _ => by
        rw [State.binSum_setBuilt (h.numPixels_lt hv)]
        exact h.image.fits hv
      unbuilt := nofun
      never_empty := h.hist.never_empty }
  result := { h.result with }

theorem setCumulated (h : s.Inv) (hv : s.histValid = true) (c : Channel) :
    (s.setCumulated c (cumulate (s.hist.get c)).1 (saturatingSucc (s.cumCnt.get c))).Inv where
  capacity := h.capacity
  memories := { h.memories with }
  image := { h.image with }
  hist :=
    { nonzero := fun _ d => by
        obtain ⟨i, hi, h0⟩ := h.hist.nonzero hv d
        by_cases e : c = d
        · subst e
          simp only [State.readBin_setCumulated, if_true]
          exact exists_cumulate_bin_ne_zero hi h0
        · simp only [State.readBin_setCumulated, e, if_false]
          exact ⟨i, hi, h0⟩
      counted := fun _ d => by
        by_cases e : c = d
        · simp only [State.setCumulated_cumCnt, PerChannel.get_set, e, if_true]
          exact fun hz => absurd hz (saturatingSucc_ne_zero _)
        · simp only [State.setCumulated_cumCnt, PerChannel.get_set, State.binSum, State.readBin_setCumulated, e, if_false]
          exact h.hist.counted hv d
      unbuilt := fun hf => nomatch hv.symm.trans hf
      never_empty := h.hist.never_empty }
  result := { h.result with }

/-- HLOW and HHIGH find a bin, so EMPTY stays 0 (R173): their order holds every bin. -/
theorem scanInto (h : s.Inv) (rd rd2 : Reg) (c : Channel) {order : List Nat} (ho : ∀ i, i < 256 → i ∈ order) :
    (s.scanInto rd rd2 c order).Inv := by
  rcases s.scanInto_cases rd rd2 c order with ⟨_, e⟩ | ⟨hv, e⟩ <;> rw [e]
  · exact h.raise _ _
  · obtain ⟨i, hi, h0⟩ := h.hist.nonzero hv c
    rw [scanBins_not_empty (ho i hi) h0]
    exact ((h.setReg _ _).setReg _ _).setEmpty_false.complete

theorem execHcum (h : s.Inv) (c : Channel) {t : State} (ht : execHcum c s = .next t) : t.Inv := by
  rcases execHcum_cases s c with ⟨_, e⟩ | ⟨hv, e, info, e', hinfo⟩
  · cases e.symm.trans ht
    exact h.raise _ _
  · cases e'.symm.trans ht
    refine (h.setCumulated hv c).finish ?_
    rcases hinfo with ⟨_, rfl, rfl⟩ | ⟨i, ho, rfl, rfl⟩
    · exact ErrCode.infoLegal_ok
    · have hi := cumulate_overflow_range ho
      refine ⟨nofun, fun _ => ?_⟩
      rw [BitVec.toNat_ofNat]
      omega

theorem exec (h : s.Inv) (i : Instr) {t : State} (ht : exec i s = .next t) : t.Inv := by
  cases i with
  | enc8 | encw | todisp =>
    cases ht
    exact (h.setReg _ _).complete
  | dec8 | decw | decd =>
    cases ht
    exact (h.setGroup _ _ _ _ _).complete
  | load =>
    cases ht
    exact h.loadCore _ _ _ _
  | loadx =>
    cases ht
    split
    · exact h.raise _ _
    · exact h.loadCore _ _ _ _
  | getpix =>
    cases ht
    refine h.require fun _ => ?_
    dsimp only
    split
    · exact h.raise _ _
    · split
      · exact h.raise _ _
      · exact (h.setReg _ _).complete
  | dims =>
    cases ht
    exact h.require fun _ => ((h.setReg _ _).setReg _ _).complete
  | exportDisp =>
    cases ht
    exact h.require fun hv => (h.fillDisp (h.image.fits hv) _).complete
  | gray | inv | thr =>
    cases ht
    exact h.pointOp _
  | hbuild =>
    cases ht
    exact h.require fun hv => (h.setBuilt hv).complete
  | hcount =>
    cases ht
    refine h.require fun _ => ?_
    dsimp only
    split
    · exact h.raise _ _
    · exact (h.setReg _ _).complete
  | hlow =>
    cases ht
    exact h.scanInto _ _ _ fun _ => List.mem_range.2
  | hhigh =>
    cases ht
    exact h.scanInto _ _ _ fun _ hi => List.mem_reverse.2 (List.mem_range.2 hi)
  | hcum c => exact h.execHcum c ht

/-! ### Steps (R16, R250) -/

theorem perform (h : s.Inv) (w : Word) {t : State} (ht : perform w s = .next t) : t.Inv := by
  unfold Machine.perform at ht
  split at ht
  · exact h.exec _ ht
  · cases ht
    exact h.raise _ _

theorem engineTurn (h : s.Inv) {t : State} (ht : engineTurn s = .next t) : t.Inv := by
  unfold Machine.engineTurn at ht
  split at ht
  · exact h.perform _ ht
  · cases ht
    exact h

theorem happen (h : s.Inv) (e : Event) {t : State} (ht : happen e s = .next t) : t.Inv := by
  cases e with
  | access a =>
    cases ht
    exact h.serve a
  | engine => exact h.engineTurn ht
  | assertReset =>
    cases ht
    exact h.assertReset
  | releaseReset =>
    cases ht
    exact h.releaseReset

theorem step (h : s.Inv) {t : State} (ht : step s = .next t) : t.Inv := by
  cases he : s.events with
  | nil => exact h.engineTurn ((step_nil he).symm.trans ht)
  | cons e es => exact (h.frame h.result.reset_idle).happen e ((step_cons he).symm.trans ht)

end State.Inv

/-- Settles O28: the next event is an access, a reset edge or the engine's turn, and each keeps the invariant. -/
theorem everyStepKeepsTheInvariant : Obligations.EveryStepKeepsTheInvariant := fun _ _ h => h.step

end Sys2Proof.Machine
end

section
/-! The state's registers on the bus, the reset input and the writers of each state (10_state.md R20 to R44): what a served access
of REG or SRC leaves, with BUSY = 0 and with BUSY = 1, what the reset input leaves, and what each command may write. -/

namespace Sys2Proof.Machine

/-! ### Steps that serve an access of REG with BUSY = 0 (R24) -/

theorem step_access {s t : State} {a : Access} {es : List Event} (he : s.events = .access a :: es)
    (ht : State.serve { s with events := es } a = t) : step s = .next t :=
  ht ▸ step_cons he

theorem stepN_two {s t u : State} (h1 : step s = .next t) (h2 : step t = .next u) : stepN 2 s = .next u := by
  simp only [stepN, h1, h2]

theorem notMustRefuse_of_regAt {m off : Nat} {r : RegName} (ag : Agent) (d : Direction) (h : regAt off = some r) :
    ¬ (Access.mk ag .reg off .four d).MustRefuse m := by
  have hn : ¬ (off % 4 ≠ 0 ∨ 0x54 ≤ off ∨ off = 0x18 ∨ off = 0x1C) := fun h' => nomatch h.symm.trans (regAt_eq_none.2 h')
  exact notMustRefuse_reg ag d (by omega) (by omega) (by omega) (by omega)

theorem State.serve_readReg {s : State} {off : Nat} {r : RegName} (ag : Agent) (hr : s.inReset = false)
    (hb : s.inflight = none) (h : regAt off = some r) :
    s.serve ⟨ag, .reg, off, .four, .read⟩ = s.answer ⟨ag, .reg, off, .four, .read⟩ (.data (s.readHostReg r)) := by
  rw [State.serve_idle hr (notMustRefuse_of_regAt ag _ h) hb]
  simp only [State.memRead, h]

theorem State.serve_writeReg {s : State} {off : Nat} {r : RegName} (ag : Agent) (v : Word) (hr : s.inReset = false)
    (hb : s.inflight = none) (h : regAt off = some r) :
    s.serve ⟨ag, .reg, off, .four, .write v⟩ = (s.writeHostReg r v).answer ⟨ag, .reg, off, .four, .write v⟩ .done := by
  rw [State.serve_idle hr (notMustRefuse_of_regAt ag _ h) hb]
  simp only [State.memWrite, h]

theorem step_readReg {s : State} {ag : Agent} {off : Nat} {r : RegName} {es : List Event} (hr : s.inReset = false)
    (hb : s.inflight = none) (h : regAt off = some r) (he : s.events = .access ⟨ag, .reg, off, .four, .read⟩ :: es) :
    step s = .next (State.answer { s with events := es } ⟨ag, .reg, off, .four, .read⟩
      (.data (State.readHostReg { s with events := es } r))) :=
  step_access he (State.serve_readReg ag hr hb h)

theorem step_writeReg {s : State} {ag : Agent} {off : Nat} {r : RegName} {v : Word} {es : List Event}
    (hr : s.inReset = false) (hb : s.inflight = none) (h : regAt off = some r)
    (he : s.events = .access ⟨ag, .reg, off, .four, .write v⟩ :: es) :
    step s = .next ((State.writeHostReg { s with events := es } r v).answer ⟨ag, .reg, off, .four, .write v⟩ .done) :=
  step_access he (State.serve_writeReg ag v hr hb h)

theorem State.writeHostReg_inReset (s : State) (r : RegName) (v : Word) : (s.writeHostReg r v).inReset = s.inReset := by
  cases r <;> rfl

theorem State.writeHostReg_events (s : State) (r : RegName) (v : Word) : (s.writeHostReg r v).events = s.events := by
  cases r <;> rfl

theorem State.writeHostReg_inflight (s : State) {r : RegName} (v : Word) (h : r ≠ .cmd) :
    (s.writeHostReg r v).inflight = s.inflight := by
  cases r with
  | cmd => exact absurd rfl h
  | status | errInfo | imgW | imgH | hstat | x | decCtrl | decLayout | decW | decH | decLen => rfl

/-- A write of a register other than CMD starts no command, so that a read of the same register after it is served too. -/
theorem stepN_writeReg_readReg {s : State} {ag ag' : Agent} {off : Nat} {r : RegName} {v : Word} {es : List Event}
    (hr : s.inReset = false) (hb : s.inflight = none) (h : regAt off = some r) (hc : r ≠ .cmd)
    (he : s.events = .access ⟨ag, .reg, off, .four, .write v⟩ :: .access ⟨ag', .reg, off, .four, .read⟩ :: es) :
    stepN 2 s = .next (((State.writeHostReg { s with events := es } r v).answer ⟨ag, .reg, off, .four, .write v⟩
      .done).answer ⟨ag', .reg, off, .four, .read⟩
        (.data ((State.writeHostReg { s with events := es } r v).readHostReg r))) := by
  refine (stepN_two (step_writeReg hr hb h he) (step_readReg ((State.writeHostReg_inReset _ r v).trans hr)
    ((State.writeHostReg_inflight _ v hc).trans hb) h (State.writeHostReg_events _ r v))).trans ?_
  cases r <;> rfl

/-- Settles O15: x[i] is the register at 0x20 + 4 * i, and the write is `setReg`. -/
theorem registerWriteThenReadReturnsTheValue : Obligations.RegisterWriteThenReadReturnsTheValue := by
  intro s ag ag' i v es hr hb he
  have hread : (State.setReg { s with events := es } i v).readReg i = v := State.readReg_setReg_same _ i v
  refine ⟨_, stepN_writeReg_readReg hr hb (regAt_x i) nofun he, hread, fun r hri => ?_, ?_⟩
  · exact (State.readReg_setReg _ i r v).trans (if_neg fun e : i = r => hri (e ▸ List.mem_singleton_self i))
  · simp only [State.readHostReg, State.writeHostReg, hread]
    rfl

/-- Settles O16: each of the five writes is an update of its own fields of the port, which read back without the reserved bits. -/
theorem decoderPortKeepsItsFields : Obligations.DecoderPortKeepsItsFields := by
  intro s ag ag' off mask v port es hr hb hp he
  simp only [List.mem_cons, Prod.mk.injEq, List.not_mem_nil, or_false] at hp
  have hall : v &&& 0xFFFFFFFF#32 = v := BitVec.and_allOnes
  rcases hp with ⟨rfl, rfl, rfl⟩ | ⟨rfl, rfl, rfl⟩ | ⟨rfl, rfl, rfl⟩ | ⟨rfl, rfl, rfl⟩ | ⟨rfl, rfl, rfl⟩
  · rw [← DecPort.ctrlWord_setCtrl s.dec]
    exact stepN_writeReg_readReg (r := .decCtrl) hr hb rfl nofun he
  · rw [← DecPort.layoutWord_setLayout s.dec]
    exact stepN_writeReg_readReg (r := .decLayout) hr hb rfl nofun he
  · rw [hall]
    exact stepN_writeReg_readReg (r := .decW) hr hb rfl nofun he
  · rw [hall]
    exact stepN_writeReg_readReg (r := .decH) hr hb rfl nofun he
  · rw [hall]
    exact stepN_writeReg_readReg (r := .decLen) hr hb rfl nofun he

/-- Settles O59: the four registers are read as they are kept, and `writeHostReg` keeps them. -/
theorem readOnlyRegistersReadTheirFields : Obligations.ReadOnlyRegistersReadTheirFields := by
  intro s ag es hr hb
  refine ⟨fun p hp he => ?_, fun he => ?_, fun off hoff v he => ?_⟩
  · simp only [List.mem_cons, List.not_mem_nil, or_false] at hp
    rcases hp with rfl | rfl | rfl
    · exact step_readReg (r := .errInfo) hr hb rfl he
    · exact step_readReg (r := .imgW) hr hb rfl he
    · exact step_readReg (r := .imgH) hr hb rfl he
  · exact ⟨s.hstatWord, step_readReg (r := .hstat) hr hb rfl he, s.hstatWord_fields⟩
  · simp only [List.mem_cons, List.not_mem_nil, or_false] at hoff
    rcases hoff with rfl | rfl | rfl | rfl
    · exact step_writeReg (r := .errInfo) hr hb rfl he
    · exact step_writeReg (r := .imgW) hr hb rfl he
    · exact step_writeReg (r := .imgH) hr hb rfl he
    · exact step_writeReg (r := .hstat) hr hb rfl he

/-! ### Writes made while BUSY = 1, and writes of STATUS (R26, R31, R241) -/

theorem Access.isStatus_iff (a : Access) : a.isStatus = true ↔ a.space = .reg ∧ a.addr = 0x04 := by
  rw [Access.isStatus, decide_eq_true_eq, regAt_eq_status]

/-- With a command in flight a write other than to STATUS only sets LOST. -/
theorem State.serve_dropped {s : State} {a : Access} {v w : Word} (hr : s.inReset = false) (hb : s.inflight = some w)
    (h : ¬ a.MustRefuse s.maxPixels) (hd : a.dir = .write v) (hs : ¬ (a.space = .reg ∧ a.addr = 0x04)) :
    s.serve a = s.drop.answer a .done := by
  rw [State.serve_busy hr h hb]
  simp only [hd, State.busyWrite, mt a.isStatus_iff.1 hs, if_false, Bool.false_eq_true]

/-- STATUS is written whether a command is in flight or not. -/
theorem State.serve_statusWrite {s : State} (ag : Agent) (v : Word) (hr : s.inReset = false) :
    s.serve ⟨ag, .reg, 0x04, .four, .write v⟩ = (s.writeStatus v).answer ⟨ag, .reg, 0x04, .four, .write v⟩ .done := by
  cases hb : s.inflight with
  | none => exact State.serve_writeReg (r := .status) ag v hr hb rfl
  | some w => exact State.serve_busy hr (notMustRefuse_of_regAt (r := .status) ag _ rfl) hb

theorem State.writeStatus_eq (s : State) (v : Word) :
    s.writeStatus v = { s with lost := if v.getLsbD 4 then false else s.lost } := by
  unfold State.writeStatus
  cases v.getLsbD 4 <;> simp

/-- Settles O9: CMD is the register at offset 0; with BUSY = 1 the write is dropped like any other. -/
theorem cmdWriteStartsOrIsDropped : Obligations.CmdWriteStartsOrIsDropped := by
  intro s ag w es hr
  refine ⟨fun hb he => ?_, fun v hb he => ?_, fun hb he => ?_⟩
  · exact step_writeReg (r := .cmd) hr hb rfl he
  · exact step_access he (State.serve_dropped hr hb
      (notMustRefuse_of_regAt (r := .cmd) ag _ rfl) rfl fun h => nomatch h.2)
  · exact step_readReg (r := .cmd) hr hb rfl he

/-- Settles O10: such a write is `serve_dropped`. -/
theorem writesWhileBusyAreDropped : Obligations.WritesWhileBusyAreDropped := by
  intro s a v w es hr hb h hd hs he
  exact step_access he (State.serve_dropped hr hb h hd hs)

/-- Settles O11: with and without a command in flight the write is `writeStatus`. -/
theorem statusWriteChangesOnlyLost : Obligations.StatusWriteChangesOnlyLost := by
  intro s ag v es hr he
  refine step_access he ((State.serve_statusWrite (s := { s with events := es }) ag v hr).trans ?_)
  rw [State.writeStatus_eq]
  rfl

/-! ### The fields of STATUS (R26, R200) -/

theorem State.statusWord_fields (s : State) : s.statusWord.extractLsb' 5 3 = 0#3 ∧
    s.statusWord.extractLsb' 8 4 = s.err.code ∧ s.statusWord.extractLsb' 12 20 = 0#20 := by
  refine ⟨?_, ?_, ?_⟩ <;>
    · apply BitVec.eq_of_getLsbD_eq
      intro i hi
      rw [BitVec.getLsbD_extractLsb', State.statusWord_getLsbD]
      interval_cases i <;> simp

/-- The numbers of R200. -/
theorem ErrCode.mem_codes (e : ErrCode) : (e, e.code.toNat) ∈
    [(ErrCode.ok, 0), (.invalidBufferLength, 1), (.indexOutOfRange, 2), (.decodeFailure, 3), (.noImage, 4), (.noHistogram, 5),
      (.illegalCommand, 6), (.invalidDimensions, 7), (.capacityExceeded, 8), (.countOverflow, 9)] := by
  cases e <;> decide

theorem busyStatus_busy (free : Word) : (busyStatus free).getLsbD 0 = true := by
  simp [busyStatus]

/-- Settles O14: the poll reads the STATUS word with BUSY = 0, and a free value with bit 0 set with BUSY = 1. -/
theorem statusReadShowsTheFields : Obligations.StatusReadShowsTheFields := by
  intro s ag es hr he
  cases hb : s.inflight with
  | none =>
    refine ⟨_, s.statusWord, step_access he (State.serve_statusPoll_idle ag hr hb), rfl, ?_, fun _ => ?_⟩
    · rw [State.statusWord_getLsbD, if_pos rfl, State.busy, hb]
      decide
    · obtain ⟨hlow, herr, hhigh⟩ := s.statusWord_fields
      rw [herr]
      refine ⟨?_, ?_, ?_, ?_, hlow, s.err.mem_codes, hhigh⟩ <;> exact s.statusWord_getLsbD _
  | some w =>
    refine ⟨_, _, step_access he (State.serve_statusPoll_busy ag hr hb), rfl, ?_, nofun⟩
    simp only [busyStatus_busy, ne_eq, reduceCtorEq, not_false_eq_true]

/-! ### Writes to SRC (R38, R65) -/

/-- Settles O17: the write is `writeSrcValue`, whose bytes and frame are known. -/
theorem srcWriteIsLittleEndian : Obligations.SrcWriteIsLittleEndian := by
  intro s ag a n v es hr hb ha hm he
  refine ⟨_, step_access he (State.serve_idle hr (notMustRefuse_src ag _ ha hm) hb), ?_, ?_, ?_⟩
  · intro j hj
    simp only [State.memWrite, State.readSrc_answer, State.readSrc_writeSrcValue]
    rw [if_pos (by omega), Nat.add_sub_cancel_left, byteOf]
  · intro b hout
    simp only [State.memWrite, State.readSrc_answer, State.readSrc_writeSrcValue]
    rw [if_neg (by omega)]
    rfl
  · simp only [State.memWrite]
    rw [State.writeSrcValue_frame]
    rfl

/-! ### The reset input (R44, R230) -/

namespace State.ControlReset

/-- R44 leaves the registers and the bins unspecified, and says nothing of the level of the reset input, of MAX_PIXELS and of the
model's own lists and counters. -/
theorem frame {t : State} (h : t.ControlReset) {x : Vector Word 8} {b : PerChannel Bins} {l : Bool} {es : List Event}
    {r : List Response} {e d : Nat} :
    State.ControlReset { t with x := x, hist := b, inReset := l, events := es, responses := r, epoch := e, draws := d } := h

theorem statusWord {t : State} (h : t.ControlReset) : t.statusWord = 0#32 := by
  obtain ⟨hbusy, himg, hhist, hempty, hlost, herr, -⟩ := h
  simp only [State.statusWord, State.busy, hbusy, himg, hhist, hempty, hlost, herr]
  decide

theorem hstatWord {t : State} (h : t.ControlReset) : t.hstatWord = 0#32 := by
  obtain ⟨-, -, -, -, -, -, -, -, -, hcum, -⟩ := h
  simp only [State.hstatWord, hcum]
  decide

theorem resetWith (m : Nat) : (State.resetWith m).ControlReset :=
  ⟨rfl, rfl, rfl, rfl, rfl, rfl, rfl, rfl, rfl, rfl, rfl, rfl, rfl, rfl⟩

theorem toReset (s : State) : s.toReset.ControlReset := (resetWith s.maxPixels).frame

theorem assertReset (s : State) : s.assertReset.ControlReset := (toReset s).frame

end State.ControlReset

/-- Settles O21: both edges lead to `toReset`. -/
theorem resetInputLeavesTheResetState : Obligations.ResetInputLeavesTheResetState := by
  refine fun s es => ⟨fun he => ?_, fun hr he => ?_⟩
  · exact ⟨_, step_cons he, State.ControlReset.assertReset _, rfl, rfl, rfl⟩
  · have hrel : State.releaseReset { s with events := es } = State.toReset { s with events := es } := if_pos hr
    exact ⟨_, (step_cons he).trans (congrArg Host.Outcome.next hrel), State.ControlReset.toReset _, rfl, rfl, rfl⟩

/-- Settles O22: the state after reset is one of R44's, and in those STATUS and HSTAT are 0. -/
theorem resetStateIsAsSpecified : Obligations.ResetStateIsAsSpecified :=
  ⟨rfl, fun m =>
    have h := State.ControlReset.resetWith m
    ⟨h, rfl, rfl, h.statusWord, h.hstatWord⟩⟩

/-! ### Which commands write which state (R164, R218) -/

/-- What a command with the mnemonic `m` may have written between `s` and `t`: every state that another command owns is in `t` as
in `s`. -/
structure State.WrittenBy (m : Mnemonic) (s t : State) : Prop where
  image : m ∉ [.load, .loadx] → s.SameImage t
  pix : m ∉ [.load, .loadx, .gray, .inv, .thr] → t.pix = s.pix
  disp : m ≠ .exportDisp → t.disp = s.disp
  histValid : m ≠ .hbuild → t.histValid = s.histValid
  hist : m ∉ [.hbuild, .hcum] → t.hist = s.hist ∧ t.cumCnt = s.cumCnt
  empty : m ∉ [.hlow, .hhigh] → t.empty = s.empty
  regs : m ∈ [.load, .loadx, .exportDisp, .gray, .inv, .thr, .hbuild, .hcum] → t.x = s.x
  src : t.src = s.src
  rest : s.SameRest t

namespace State.WrittenBy

variable {m : Mnemonic} {s t : State}

theorem refl (m : Mnemonic) (s : State) : s.WrittenBy m s where
  image _ := ⟨rfl, rfl, rfl⟩
  pix _ := rfl
  disp _ := rfl
  histValid _ := rfl
  hist _ := ⟨rfl, rfl⟩
  empty _ := rfl
  regs _ := rfl
  src := rfl
  rest := ⟨rfl, rfl, rfl, rfl, rfl, rfl, rfl, rfl⟩

theorem finish (h : s.WrittenBy m t) (e : ErrCode) (info : Word) : s.WrittenBy m (t.finish e info) := { h with }

theorem complete (h : s.WrittenBy m t) : s.WrittenBy m t.complete := h.finish _ _

theorem raise (m : Mnemonic) (s : State) (e : ErrCode) (info : Word) : s.WrittenBy m (s.raise e info) :=
  (refl m s).finish e info

theorem setReg (h : s.WrittenBy m t) (i : Reg) (v : Word)
    (hm : m ∉ [.load, .loadx, .exportDisp, .gray, .inv, .thr, .hbuild, .hcum] := by simp [Instr.mnemonic]) :
    s.WrittenBy m (t.setReg i v) :=
  { h with regs := fun hm' => absurd hm' hm }

theorem setGroup (h : s.WrittenBy m t) (q : Group) (v0 v1 v2 v3 : Word)
    (hm : m ∉ [.load, .loadx, .exportDisp, .gray, .inv, .thr, .hbuild, .hcum] := by simp [Instr.mnemonic]) :
    s.WrittenBy m (t.setGroup q v0 v1 v2 v3) :=
  (((h.setReg _ v0 hm).setReg _ v1 hm).setReg _ v2 hm).setReg _ v3 hm

theorem fillPix (h : s.WrittenBy m t) (n : Nat) (f : Nat → Word) (hm : m ∈ [.load, .loadx, .gray, .inv, .thr]) :
    s.WrittenBy m (t.fillPix n f) :=
  { h with pix := fun hm' => absurd hm hm' }

theorem setDims (h : s.WrittenBy m t) (w v : Word) (hm : m ∈ [.load, .loadx]) : s.WrittenBy m (t.setDims w v) :=
  { h with image := fun hm' => absurd hm hm' }

theorem fillDisp (h : s.WrittenBy .exportDisp t) (n : Nat) (f : Nat → Word) : s.WrittenBy .exportDisp (t.fillDisp n f) :=
  { h with disp := fun hm => absurd rfl hm }

theorem setEmpty (h : s.WrittenBy m t) (b : Bool) (hm : m ∈ [.hlow, .hhigh]) : s.WrittenBy m (t.setEmpty b) :=
  { h with empty := fun hm' => absurd hm hm' }

theorem setBuilt (h : s.WrittenBy .hbuild t) (b : PerChannel Bins) : s.WrittenBy .hbuild (t.setBuilt b) :=
  { h with
    histValid := fun hm => absurd rfl hm
    hist := fun hm => absurd (by decide) hm }

theorem setCumulated (h : s.WrittenBy .hcum t) (c : Channel) (b : Bins) (n : BitVec 2) :
    s.WrittenBy .hcum (t.setCumulated c b n) :=
  { h with hist := fun hm => absurd (by decide) hm }

/-- A command with a precondition writes what it guards, or an error. -/
theorem require {v : Bool} {e : ErrCode} {k : State → State} (hk : s.WrittenBy m (k s)) :
    s.WrittenBy m (s.require v e k) := by
  rcases s.require_cases v e k with ⟨_, heq⟩ | ⟨_, heq⟩ <;> rw [heq]
  · exact raise m s _ _
  · exact hk

theorem loadCore (s : State) (w v len : Word) (lay : Layout) (hm : m ∈ [.load, .loadx]) :
    s.WrittenBy m (s.loadCore w v len lay) := by
  have hp : m ∈ [.load, .loadx, .gray, .inv, .thr] := List.mem_append_left [Mnemonic.gray, .inv, .thr] hm
  rcases s.loadCore_cases w v len lay with ⟨_, e⟩ | ⟨_, _, _, e⟩ | ⟨_, _, _, _, e⟩ | ⟨_, _, _, _, e⟩ <;> rw [e]
  · exact raise m s _ _
  · exact raise m s _ _
  · exact raise m s _ _
  · exact (((refl m s).fillPix _ _ hp).setDims w v hm).complete

theorem pointOp (s : State) (f : Word → Word) (hm : m ∈ [.load, .loadx, .gray, .inv, .thr]) :
    s.WrittenBy m (s.pointOp f) :=
  require ((refl m s).fillPix _ _ hm).complete

theorem scanInto (s : State) (rd rd2 : Reg) (c : Channel) (order : List Nat)
    (hx : m ∉ [.load, .loadx, .exportDisp, .gray, .inv, .thr, .hbuild, .hcum]) (hm : m ∈ [.hlow, .hhigh]) :
    s.WrittenBy m (s.scanInto rd rd2 c order) :=
  require ((((refl m s).setReg _ _ hx).setReg _ _ hx).setEmpty _ hm).complete

theorem exec (i : Instr) (s : State) {t : State} (ht : exec i s = .next t) : s.WrittenBy i.mnemonic t := by
  cases i with
  | enc8 | encw | todisp =>
    cases ht
    exact ((refl _ s).setReg _ _).complete
  | dec8 | decw | decd =>
    cases ht
    exact ((refl _ s).setGroup _ _ _ _ _).complete
  | load =>
    cases ht
    exact loadCore s _ _ _ _ (by simp [Instr.mnemonic])
  | loadx =>
    cases ht
    split
    · exact raise _ s _ _
    · exact loadCore s _ _ _ _ (by decide)
  | getpix =>
    cases ht
    refine require ?_
    dsimp only
    split
    · exact raise _ s _ _
    · split
      · exact raise _ s _ _
      · exact ((refl _ s).setReg _ _).complete
  | dims =>
    cases ht
    exact require (((refl _ s).setReg _ _).setReg _ _).complete
  | exportDisp =>
    cases ht
    exact require ((refl _ s).fillDisp _ _).complete
  | gray | inv | thr =>
    cases ht
    exact pointOp s _ (by simp [Instr.mnemonic])
  | hbuild =>
    cases ht
    exact require ((refl _ s).setBuilt _).complete
  | hcount =>
    cases ht
    refine require ?_
    dsimp only
    split
    · exact raise _ s _ _
    · exact ((refl _ s).setReg _ _).complete
  | hlow | hhigh =>
    cases ht
    exact scanInto s _ _ _ _ (by simp [Instr.mnemonic]) (by simp [Instr.mnemonic])
  | hcum c =>
    rcases execHcum_cases s c with ⟨_, e⟩ | ⟨_, e, info, e', _⟩
    · cases e.symm.trans ht
      exact raise _ s _ _
    · cases e'.symm.trans ht
      exact ((refl _ s).setCumulated c _ _).finish e info

end State.WrittenBy

/-- Settles O25: the frame of each update a command is made of. -/
theorem onlyTheNamedCommandsWriteEachState : Obligations.OnlyTheNamedCommandsWriteEachState := by
  intro i s
  obtain ⟨u, e, info, h⟩ := exec_finish i s
  have hw := State.WrittenBy.exec i s h
  exact ⟨_, h, hw.image, hw.pix, hw.disp, hw.histValid, hw.hist, hw.empty, hw.regs, hw.src, hw.rest⟩

/-! ### Steps that never stop (R27, R203, R205) -/

theorem engineTurn_next (s : State) : ∃ t, engineTurn s = .next t ∧ t.inflight = none := by
  unfold engineTurn
  split
  · exact perform_next _ s
  · next hw => exact ⟨s, rfl, hw⟩

theorem happen_next (e : Event) (s : State) : ∃ t, happen e s = .next t := by
  cases e with
  | engine =>
    obtain ⟨t, ht, _⟩ := engineTurn_next s
    exact ⟨t, ht⟩
  | access | assertReset | releaseReset => exact ⟨_, rfl⟩

theorem step_next (s : State) : ∃ t, step s = .next t := by
  cases he : s.events with
  | nil =>
    obtain ⟨t, ht, _⟩ := engineTurn_next s
    exact ⟨t, (step_nil he).trans ht⟩
  | cons e es =>
    obtain ⟨t, ht⟩ := happen_next e { s with events := es }
    exact ⟨t, (step_cons he).trans ht⟩

/-- Settles O23: every command ends in `finish`, and each event is one that has a next state. -/
theorem everyCommandCompletes : Obligations.EveryCommandCompletes := by
  refine ⟨fun i s => ?_, step_next, fun s es he => ?_⟩
  · obtain ⟨u, e, info, h⟩ := exec_finish i s
    exact ⟨_, h, rfl⟩
  · rcases he with he | he
    · rw [step_nil he]
      exact engineTurn_next s
    · rw [step_engine he]
      exact engineTurn_next _

end Sys2Proof.Machine
end

section
/-! The bus and its memories (20_memory.md R60 to R76, 70_reset_and_hazards.md R240): which accesses get a bus error, what a read
leaves and returns, how a wide write of SRC splits into byte writes, and what a host sees that polls until its command is done. -/

namespace Sys2Proof.Machine

/-! ### Answers (R62, R63, R67) -/

theorem State.memWrite_responses (s : State) (sp : Space) (a : Nat) (n : Size) (v : Word) :
    (s.memWrite sp a n v).responses = s.responses := by
  obtain ⟨x, i, l, d, m, e⟩ := s.memWrite_frame sp a n v
  rw [e]

theorem State.busyWrite_responses (s : State) (a : Access) (v : Word) : (s.busyWrite a v).responses = s.responses := by
  unfold State.busyWrite
  split <;> rfl

/-- An access that R63 does not list gets one answer, and it is no bus error. -/
theorem State.serve_responses {s : State} {a : Access} (hr : s.inReset = false) (h : ¬ a.MustRefuse s.maxPixels) :
    ∃ r, (s.serve a).responses = ⟨a, r⟩ :: s.responses ∧ r ≠ .busError := by
  cases hb : s.inflight with
  | none =>
    rw [State.serve_idle hr h hb]
    cases a.dir with
    | read => exact ⟨_, rfl, nofun⟩
    | write v => exact ⟨.done, congrArg _ (s.memWrite_responses ..), nofun⟩
  | some w =>
    rw [State.serve_busy hr h hb]
    cases a.dir with
    | read => exact ⟨_, rfl, nofun⟩
    | write v => exact ⟨.done, congrArg _ (s.busyWrite_responses a v), nofun⟩

/-- A read leaves its answer and at most one free value fewer, whether it is refused, served or made while BUSY = 1. -/
theorem State.serve_read {a : Access} (s : State) (hd : a.dir = .read) :
    ∃ r n, s.serve a = { s with responses := ⟨a, r⟩ :: s.responses, draws := n } := by
  by_cases h : s.inReset = true ∨ a.MustRefuse s.maxPixels
  · exact ⟨_, _, State.serve_refused h⟩
  · simp only [not_or, Bool.not_eq_true] at h
    obtain ⟨hr, hm⟩ := h
    rcases s.inflight.eq_none_or_eq_some with hb | ⟨w, hb⟩
    · rw [State.serve_idle hr hm hb, hd]
      exact ⟨_, _, rfl⟩
    · rw [State.serve_busy hr hm hb, hd]
      exact ⟨_, _, rfl⟩

/-- Settles O12: a listed access is `serve_refused`, any other is answered otherwise (`serve_responses`). -/
theorem busErrorsAreExactlyTheListedOnes : Obligations.BusErrorsAreExactlyTheListedOnes := by
  intro s a es he
  refine ⟨fun hm => step_access he (State.serve_refused (.inr hm)), fun hr hm => ?_⟩
  obtain ⟨r, hresp, hne⟩ := State.serve_responses (s := { s with events := es }) hr hm
  exact ⟨_, r, step_access he rfl, hresp, hne⟩

/-- Settles O13: the frame of a read is `serve_read`. -/
theorem readsHaveNoSideEffect : Obligations.ReadsHaveNoSideEffect := by
  intro s a es hd he
  obtain ⟨r, n, h⟩ := State.serve_read { s with events := es } hd
  exact ⟨r, n, step_access he h⟩

/-- Settles O18: a served read is the assembled bytes, of SRC or of the word of DISP they lie in. -/
theorem busReadsAreLittleEndian : Obligations.BusReadsAreLittleEndian := by
  intro s ag a n es hr hb ha hm
  refine ⟨fun he => ?_, fun he => ?_⟩
  · exact ⟨_, assemble n (fun j => s.readSrc (a + j)),
      step_access he (State.serve_idle hr (notMustRefuse_src ag _ ha hm) hb), rfl, assemble_toNat n _⟩
  · exact ⟨_, assemble n (fun j => s.dispByte (a + j)),
      step_access he (State.serve_idle hr (notMustRefuse_disp ag ha hm) hb), rfl, s.dispRead_toNat a n ha⟩

/-! ### A wide write of SRC as byte writes (R76) -/

/-- The byte write that stores byte `j` of a value whose lowest byte goes to address `a`. -/
def srcByteWrite (ag : Agent) (a : Nat) (v : Word) (j : Nat) : Access := ⟨ag, .src, a + j, .one, .write (v >>> (8 * j))⟩

/-- SRC after the bytes `js` of a value were stored, in the list's order. -/
def Memory.writeBytes (a : Nat) (v : Word) (js : List Nat) (m : List Host.Cell) : List Host.Cell :=
  js.foldl (fun m j => Memory.write m (a + j) (byteOf v j)) m

theorem byteOf_ushiftRight (v : Word) (j : Nat) : byteOf (v >>> (8 * j)) 0 = byteOf v j := by
  apply BitVec.eq_of_toNat_eq
  rw [byteOf_toNat, byteOf_toNat, BitVec.toNat_ushiftRight, Nat.shiftRight_eq_div_pow, Nat.mul_zero, Nat.pow_zero, Nat.div_one]

theorem State.foldl_writeSrc (s : State) (a : Nat) (v : Word) (js : List Nat) :
    js.foldl (fun t j => t.writeSrc (a + j) (byteOf v j)) s = { s with src := Memory.writeBytes a v js s.src } := by
  induction js generalizing s with
  | nil => rfl
  | cons j js ih => exact ih _

theorem State.writeSrcValue_eq (s : State) (a : Nat) (n : Size) (v : Word) :
    s.writeSrcValue a n v = { s with src := Memory.writeBytes a v (List.range n.bytes) s.src } :=
  s.foldl_writeSrc a v _

theorem State.serve_srcByteWrite {s : State} {a j : Nat} (ag : Agent) (v : Word) (hr : s.inReset = false)
    (hb : s.inflight = none) (hj : a + j < 4 * s.maxPixels) :
    s.serve (srcByteWrite ag a v j) = (s.writeSrc (a + j) (byteOf v j)).answer (srcByteWrite ag a v j) .done := by
  rw [srcByteWrite, State.serve_idle hr (notMustRefuse_src ag _ (Nat.mod_one _) hj) hb, ← byteOf_ushiftRight v j]
  rfl

theorem stepN_one {s t : State} (h : step s = .next t) : stepN 1 s = .next t := by
  simp only [stepN, h]

/-- Byte writes made one after the other with BUSY = 0 leave their bytes in SRC and their answers. -/
theorem stepN_srcByteWrites {s : State} {a : Nat} (ag : Agent) (v : Word) (js : List Nat) (hr : s.inReset = false)
    (hb : s.inflight = none) (hjs : ∀ j ∈ js, a + j < 4 * s.maxPixels) :
    ∃ r, stepN js.length { s with events := js.map fun j => .access (srcByteWrite ag a v j) } =
      .next { s with src := Memory.writeBytes a v js s.src, events := [], responses := r } := by
  induction js generalizing s with
  | nil => exact ⟨s.responses, rfl⟩
  | cons j js ih =>
    obtain ⟨hj, hjs'⟩ := List.forall_mem_cons.1 hjs
    obtain ⟨r, h⟩ := ih (s := (s.writeSrc (a + j) (byteOf v j)).answer (srcByteWrite ag a v j) .done) hr hb hjs'
    refine ⟨r, (stepN_access rfl).trans (Eq.trans ?_ h)⟩
    exact congrArg (stepN js.length) (State.serve_srcByteWrite ag v hr hb hj)

/-- Settles O19: both sides leave the bytes of the value in SRC in address order. -/
theorem wideSrcWriteEqualsByteWrites : Obligations.WideSrcWriteEqualsByteWrites := by
  intro s ag a n v hr hb ha hm
  have hjs : ∀ j ∈ List.range n.bytes, a + j < 4 * s.maxPixels := by
    intro j hj
    have := List.mem_range.1 hj
    omega
  obtain ⟨r, hu⟩ := stepN_srcByteWrites ag v (List.range n.bytes) hr hb hjs
  rw [List.length_range] at hu
  refine ⟨_, _, stepN_one (step_access rfl (State.serve_idle hr (notMustRefuse_src ag _ ha hm) hb)), hu, ?_⟩
  simp only [State.memWrite, State.writeSrcValue_eq]
  rfl

/-! ### A host that keeps the protocol (R70, R240) -/

theorem perform_sameRest {w : Word} {s t : State} (h : perform w s = .next t) : s.SameRest t := by
  unfold perform at h
  split at h
  · exact (State.WrittenBy.exec _ s h).rest
  · cases h
    exact ⟨rfl, rfl, rfl, rfl, rfl, rfl, rfl, rfl⟩

theorem perform_idle {w : Word} {s t : State} (h : perform w s = .next t) : t.inflight = none := by
  obtain ⟨u, hu, hidle⟩ := perform_next w s
  exact Host.Outcome.next.inj (hu.symm.trans h) ▸ hidle

/-- The engine's turn performs the word in flight as it stands on the state before the word was written, whatever was answered
since then. -/
theorem engineTurn_withHost {w : Word} {s u : State} (h : perform w s = .next u) (l : Bool) (es : List Event)
    (r : List Response) (d : Nat) :
    engineTurn (State.withHost l es r d { s with inflight := some w }) = .next (u.withHost l es r d) :=
  (perform_inflight w (s.withHost l es r d) (some w)).trans (perform_withHost w s u l es r d h)

/-- Polls of STATUS made while a command is in flight all read BUSY = 1, and leave only their answers and used-up free values. -/
theorem stepN_busyPolls {s : State} {w : Word} (ag : Agent) (polls m : Nat) (l : Bool) (es : List Event) (r : List Response)
    (d : Nat) (hr : s.inReset = false) (hb : s.inflight = some w) :
    ∃ (vs : List Word) (d' : Nat), vs.length = polls ∧ (∀ x ∈ vs, x.getLsbD 0 = true) ∧
      stepN (polls + m) (s.withHost l (List.replicate polls (.access (statusPoll ag)) ++ es) r d) =
        stepN m (s.withHost l es (vs.map (fun x => ⟨statusPoll ag, .data x⟩) ++ r) d') := by
  induction polls generalizing r d with
  | zero => exact ⟨[], d, rfl, nofun, congrArg (stepN · _) (Nat.zero_add m)⟩
  | succ k ih =>
    have hpoll := State.serve_statusPoll_busy (s := s.withHost l (List.replicate k (.access (statusPoll ag)) ++ es) r d) ag hr hb
    obtain ⟨vs, d', hlen, hbusy, h⟩ := ih (⟨statusPoll ag, .data (busyStatus (Config.busyRead d))⟩ :: r) (d + 1)
    refine ⟨vs ++ [busyStatus (Config.busyRead d)], d', by simp [hlen], ?_, ?_⟩
    · exact List.forall_mem_append.2 ⟨hbusy, List.forall_mem_singleton.2 (busyStatus_busy _)⟩
    · rw [Nat.add_right_comm, List.map_append, List.append_assoc]
      exact (stepN_access rfl).trans ((congrArg (stepN (k + m)) hpoll).trans h)

theorem State.statusWord_idle {s : State} (h : s.inflight = none) : s.statusWord.getLsbD 0 = false := by
  rw [State.statusWord_getLsbD, if_pos rfl, State.busy, h]
  rfl

/-- The engine's turn and a poll after it: the poll finds the state that the word's meaning leaves. -/
theorem stepN_engine_poll {w : Word} {s u : State} (ag : Agent) (hr : s.inReset = false) (h : perform w s = .next u)
    (r : List Response) (d : Nat) :
    stepN 2 (State.withHost s.lost [.engine, .access (statusPoll ag)] r d { s with inflight := some w }) =
      .next { u with events := [], responses := ⟨statusPoll ag, .data u.statusWord⟩ :: r, draws := d } := by
  obtain ⟨-, hlost, hreset, -⟩ := perform_sameRest h
  have hidle : u.inflight = none := perform_idle h
  have hengine := engineTurn_withHost h s.lost [.access (statusPoll ag)] r d
  have hpoll := State.serve_statusPoll_idle (s := u.withHost s.lost [] r d) ag (hreset.trans hr) hidle
  rw [← hlost] at hengine hpoll ⊢
  exact stepN_two ((step_engine rfl).trans hengine) (step_access rfl hpoll)

/-- Settles O27: the CMD write puts the word in flight, the polls before the engine's turn find it there, and the engine's turn
is the word's meaning on the state before. -/
theorem protocolHostSeesOneAtomicStep : Obligations.ProtocolHostSeesOneAtomicStep := by
  intro s ag w polls hr hb he
  obtain ⟨u, hu, hidle⟩ := perform_next w s
  have hcmd := State.serve_cmdWrite (s := { s with
    events := List.replicate polls (.access (statusPoll ag)) ++ [.engine, .access (statusPoll ag)] }) ag w hr hb
  obtain ⟨vs, d, hlen, hbusy, hpolls⟩ := stepN_busyPolls (s := { s with inflight := some w }) ag polls 2 s.lost
    [.engine, .access (statusPoll ag)] (⟨cmdWrite ag w, .done⟩ :: s.responses) s.draws hr rfl
  have hrun :=
    calc stepN (polls + 3) s
      _ = stepN (polls + 2) _ := (stepN_access he).trans (congrArg (stepN (polls + 2)) hcmd)
      _ = stepN 2 _ := hpolls
      _ = .next _ := stepN_engine_poll ag hr hu _ d
  exact ⟨_, u, d, vs, u.statusWord, hrun, hu, rfl, rfl, hlen, hbusy, rfl, State.statusWord_idle hidle⟩

end Sys2Proof.Machine
end

section
/-! The command word (30_encoding.md R81 to R88): what a word that matches a row of the opcode map holds, the two round trips
between words and commands, which words are illegal, and which assembler lines are accepted. -/

namespace Sys2Proof

/-! ### A word and its fields (R81) -/

theorem wordOfFields_fields {w : Word} (h : w.extractLsb' 10 1 = 0#1) :
    wordOfFields (w.extractLsb' 26 6) (w.extractLsb' 23 3) (w.extractLsb' 20 3) (w.extractLsb' 17 3)
      (w.extractLsb' 14 3) (w.extractLsb' 11 3) (w.extractLsb' 8 2) (w.extractLsb' 0 8) = w := by
  have h10 : w[10] = false := by simpa using congrArg (·.getLsbD 0) h
  refine BitVec.eq_of_getLsbD_eq fun i hi => ?_
  rw [wordOfFields_getLsbD]
  interval_cases i <;> simp [h10]

/-- A word is assembled from its own fields and from no others; z10 is its bit without a field. -/
theorem wordOfFields_eq_iff {op : BitVec 6} {rd rs1 rs2 rs3 rs4 : BitVec 3} {ch : BitVec 2} {imm8 : BitVec 8} {w : Word} :
    wordOfFields op rd rs1 rs2 rs3 rs4 ch imm8 = w ↔
      op = w.extractLsb' 26 6 ∧ rd = w.extractLsb' 23 3 ∧ rs1 = w.extractLsb' 20 3 ∧ rs2 = w.extractLsb' 17 3 ∧
      rs3 = w.extractLsb' 14 3 ∧ rs4 = w.extractLsb' 11 3 ∧ w.extractLsb' 10 1 = 0#1 ∧ ch = w.extractLsb' 8 2 ∧
      imm8 = w.extractLsb' 0 8 := by
  constructor
  · rintro rfl
    simp [BitVec.eq_of_getLsbD_eq_iff, wordOfFields_getLsbD]
  · rintro ⟨rfl, rfl, rfl, rfl, rfl, rfl, h, rfl, rfl⟩
    exact wordOfFields_fields h

theorem fieldOp_toNat (w : Word) : (fieldOp w).toNat = w.toNat / 2 ^ 26 := by
  have := w.isLt
  rw [fieldOp, BitVec.extractLsb'_toNat, Nat.shiftRight_eq_div_pow]
  omega

/-- A group is its rd field when the two low bits of the field are 0 (R82, F-DEC). -/
theorem bits_fieldGroup {w : Word} (h : w.extractLsb' 23 3 &&& 3#3 = 0#3) : (fieldGroup w).bits = w.extractLsb' 23 3 := by
  have hq : w.getLsbD 25 = (w.extractLsb' 23 3).getLsbD 2 := by simp
  rw [fieldGroup, hq]
  clear hq
  generalize w.extractLsb' 23 3 = v at *
  revert v
  decide

/-- A layout is its imm8 field when the seven high bits of the field are 0 (R82, F-LOAD). -/
theorem bits_fieldLayout {w : Word} (h : w.extractLsb' 0 8 &&& 0xFE#8 = 0#8) :
    (fieldLayout w).bits = w.extractLsb' 0 8 := by
  have hlay : w.getLsbD 0 = (w.extractLsb' 0 8).getLsbD 0 := by simp
  rw [fieldLayout, hlay]
  clear hlay
  generalize w.extractLsb' 0 8 = v at *
  revert v
  decide

@[simp] theorem fieldGroup_wordOfFields (op : BitVec 6) (q : Group) (rs1 rs2 rs3 rs4 : BitVec 3) (ch : BitVec 2)
    (imm8 : BitVec 8) : fieldGroup (wordOfFields op q.bits rs1 rs2 rs3 rs4 ch imm8) = q := by
  rw [fieldGroup, wordOfFields_getLsbD]
  cases q <;> rfl

@[simp] theorem fieldLayout_wordOfFields (op : BitVec 6) (rd rs1 rs2 rs3 rs4 : BitVec 3) (ch : BitVec 2) (lay : Layout) :
    fieldLayout (wordOfFields op rd rs1 rs2 rs3 rs4 ch lay.bits) = lay := by
  rw [fieldLayout, wordOfFields_getLsbD]
  cases lay <;> rfl

/-! ### A word under a mask (R82, R84) -/

/-- The field of a masked word is the word's field under the mask's field. -/
theorem field_of_and_eq {w mask v : Word} (h : w &&& mask = v) (s n : Nat) :
    w.extractLsb' s n &&& mask.extractLsb' s n = v.extractLsb' s n := by
  rw [← h, BitVec.extractLsb'_and]

theorem field_eq_of_and_eq {w mask v : Word} (h : w &&& mask = v) {s n : Nat}
    (hm : mask.extractLsb' s n = BitVec.allOnes n) : w.extractLsb' s n = v.extractLsb' s n := by
  rw [← field_of_and_eq h, hm, BitVec.and_allOnes]

theorem wordOfFields_zero_eq_iff {op : BitVec 6} {v : Word} :
    wordOfFields op 0 0 0 0 0 0 0 = v ↔ op = v.extractLsb' 26 6 ∧ v &&& 0x03FFFFFF#32 = 0#32 := by
  constructor
  · rintro rfl
    refine ⟨(wordOfFields_op ..).symm, ?_⟩
    revert op
    decide
  · rintro ⟨hop, h⟩
    have zero (s n : Nat) (hm : (0x03FFFFFF#32).extractLsb' s n = BitVec.allOnes n) : v.extractLsb' s n = 0#n :=
      (field_eq_of_and_eq h hm).trans BitVec.extractLsb'_zero
    simp (disch := decide) [wordOfFields_eq_iff, hop, zero]

/-- R84's mask and match test is the opcode together with the should-be-zero bits (R82). -/
theorem and_mask_eq_matchWord_iff {w : Word} {m : Mnemonic} : w &&& m.format.mask = m.matchWord ↔
    m.opcode = fieldOp w ∧ w &&& m.format.mask &&& 0x03FFFFFF#32 = 0#32 := by
  have hop : (w &&& m.format.mask).extractLsb' 26 6 = fieldOp w := by
    rw [BitVec.extractLsb'_and, mask_opcode]
    exact BitVec.and_allOnes
  rw [eq_comm, matchWord_eq, wordOfFields_zero_eq_iff, hop]

/-! ### The operands of a word (R83) -/

theorem withChannel_eq_ok_iff {w : Word} {mk : Channel → Instr} {i : Instr} :
    withChannel w mk = .ok i ↔ ∃ c : Channel, c.bits = w.extractLsb' 8 2 ∧ mk c = i := by
  constructor
  · intro h
    unfold withChannel at h
    split at h
    · exact ⟨_, bits_of_fieldChannel ‹_›, Except.ok.inj h⟩
    · cases h
  · rintro ⟨c, hc, rfl⟩
    rw [withChannel, fieldChannel_of_bits hc.symm]

theorem withChannel_isOk_iff {w : Word} {mk : Channel → Instr} :
    (∃ i, withChannel w mk = .ok i) ↔ w.extractLsb' 8 2 ≠ 3#2 := by
  rw [withChannel, Ne, ← fieldChannel_eq_none]
  cases fieldChannel w <;> simp

theorem operandsOf_mnemonic {m : Mnemonic} {w : Word} {i : Instr} (h : operandsOf m w = .ok i) : i.mnemonic = m := by
  cases m with
  | hcount | hlow | hhigh | hcum =>
    obtain ⟨c, -, rfl⟩ := withChannel_eq_ok_iff.1 h
    rfl
  | _ =>
    cases h
    rfl

/-- The only operand that can be refused is the channel 3 (R86 (c)). -/
theorem operandsOf_isOk_iff {m : Mnemonic} {w : Word} :
    (∃ i, operandsOf m w = .ok i) ↔ (m.hasChannel = true → w.extractLsb' 8 2 ≠ 3#2) := by
  cases m with
  | hcount | hlow | hhigh | hcum => exact withChannel_isOk_iff.trans (imp_iff_right rfl).symm
  | _ => exact ⟨nofun, fun _ => ⟨_, rfl⟩⟩

theorem operandsOf_isError_iff {m : Mnemonic} {w : Word} :
    (∃ e, operandsOf m w = .error e) ↔ m.hasChannel = true ∧ w.extractLsb' 8 2 = 3#2 := by
  have h := (operandsOf_isOk_iff (m := m) (w := w)).not
  rw [Classical.not_imp, not_not] at h
  rw [← h]
  cases operandsOf m w <;> simp

/-- The fields of a command's word hold its operands. -/
theorem operandsOf_encode (i : Instr) : operandsOf i.mnemonic (encode i) = .ok i := by
  cases i with
  | hcount | hlow | hhigh | hcum =>
    refine withChannel_eq_ok_iff.2 ⟨_, (wordOfFields_ch ..).symm, ?_⟩
    simp [encode, fieldRd, fieldRs1]
  | _ => simp [encode, Instr.mnemonic, operandsOf, fieldRd, fieldRs1, fieldRs2, fieldRs3, fieldRs4, fieldImm8]

/-- A word that matches a row is the word of the command that its operands give: its other fields are 0 by the mask (R82). -/
theorem encode_eq_of_operandsOf {m : Mnemonic} {w : Word} {i : Instr} (h : w &&& m.format.mask = m.matchWord)
    (ho : operandsOf m w = .ok i) : encode i = w := by
  have hop : m.opcode = w.extractLsb' 26 6 := (and_mask_eq_matchWord_iff.1 h).1
  have zero (s n : Nat) (hm : m.format.mask.extractLsb' s n = BitVec.allOnes n)
      (hv : m.matchWord.extractLsb' s n = 0#n) : w.extractLsb' s n = 0#n :=
    (field_eq_of_and_eq h hm).trans hv
  cases m with
  | enc8 | encw | todisp | getpix | dims | loadx | exportDisp | gray | inv | thr | hbuild =>
    cases ho
    simp (disch := decide) [encode, wordOfFields_eq_iff, Instr.mnemonic, hop, zero, fieldImm8]
  | dec8 | decw | decd =>
    have hq := bits_fieldGroup (field_of_and_eq h 23 3)
    cases ho
    simp (disch := decide) [encode, wordOfFields_eq_iff, Instr.mnemonic, hop, zero, hq]
  | load =>
    have hlay := bits_fieldLayout (field_of_and_eq h 0 8)
    cases ho
    simp (disch := decide) [encode, wordOfFields_eq_iff, Instr.mnemonic, hop, zero, hlay]
  | hcount | hlow | hhigh | hcum =>
    obtain ⟨c, hc, rfl⟩ := withChannel_eq_ok_iff.1 ho
    simp (disch := decide) [encode, wordOfFields_eq_iff, Instr.mnemonic, hop, zero, hc]

/-! ### Decoding a word that matches a row (R84, R85) -/

theorem decode_of_match {w : Word} {m : Mnemonic} (h : w &&& m.format.mask = m.matchWord) :
    decode w = operandsOf m w := by
  obtain ⟨hop, hsbz⟩ := and_mask_eq_matchWord_iff.1 h
  simp [decode, selectMnemonic_eq_some.2 hop, hsbz]

/-- A legal word matches the row of the command it decodes to. -/
theorem match_of_decode {w : Word} {i : Instr} (h : decode w = .ok i) :
    w &&& i.mnemonic.format.mask = i.mnemonic.matchWord ∧ operandsOf i.mnemonic w = .ok i := by
  unfold decode at h
  split at h
  · cases h
  · split at h
    · cases h
    next m hop hsbz =>
      rw [operandsOf_mnemonic h]
      exact ⟨and_mask_eq_matchWord_iff.2 ⟨selectMnemonic_eq_some.1 hop, not_not.1 hsbz⟩, h⟩

theorem encode_and_mask (i : Instr) : encode i &&& i.mnemonic.format.mask = i.mnemonic.matchWord := by
  cases i with
  | enc8 => exact Laws.MaskMatch.enc8 ..
  | encw => exact Laws.MaskMatch.encw ..
  | dec8 => exact Laws.MaskMatch.dec8 ..
  | decw => exact Laws.MaskMatch.decw ..
  | todisp => exact Laws.MaskMatch.todisp ..
  | decd => exact Laws.MaskMatch.decd ..
  | load => exact Laws.MaskMatch.load ..
  | loadx => exact Laws.MaskMatch.loadx
  | getpix => exact Laws.MaskMatch.getpix ..
  | dims => exact Laws.MaskMatch.dims ..
  | exportDisp => exact Laws.MaskMatch.exportDisp
  | gray => exact Laws.MaskMatch.gray
  | inv => exact Laws.MaskMatch.inv
  | thr => exact Laws.MaskMatch.thr ..
  | hbuild => exact Laws.MaskMatch.hbuild
  | hcount => exact Laws.MaskMatch.hcount ..
  | hlow => exact Laws.MaskMatch.hlow ..
  | hhigh => exact Laws.MaskMatch.hhigh ..
  | hcum => exact Laws.MaskMatch.hcum ..

theorem decode_encode (i : Instr) : decode (encode i) = .ok i :=
  (decode_of_match (encode_and_mask i)).trans (operandsOf_encode i)

/-- Settles O1: a command's word matches the row of the command, and its fields hold the command's operands. -/
theorem decodeOfEncodeIsTheCommand : Obligations.DecodeOfEncodeIsTheCommand := decode_encode

/-- Settles O2: the fields that hold no operand of the command are 0 by the mask of its row. -/
theorem encodeOfDecodeIsTheWord : Obligations.EncodeOfDecodeIsTheWord := by
  intro w i h
  obtain ⟨hmatch, hops⟩ := match_of_decode h
  exact encode_eq_of_operandsOf hmatch hops

/-! ### Which command a word selects (R84) -/

/-- R84: mask and match select the command, and the channel is not 3. -/
theorem selects_iff {w : Word} {m : Mnemonic} : (∃ i, decode w = .ok i ∧ i.mnemonic = m) ↔
    w &&& m.format.mask = m.matchWord ∧ (m.hasChannel = true → w.extractLsb' 8 2 ≠ 3#2) := by
  rw [← operandsOf_isOk_iff]
  constructor
  · rintro ⟨i, hd, rfl⟩
    obtain ⟨hmatch, hops⟩ := match_of_decode hd
    exact ⟨hmatch, i, hops⟩
  · rintro ⟨hmatch, i, hops⟩
    exact ⟨i, (decode_of_match hmatch).trans hops, operandsOf_mnemonic hops⟩

theorem hasChannel_iff {m : Mnemonic} : m.hasChannel = true ↔ m ∈ [.hcount, .hlow, .hhigh, .hcum] := by
  cases m <;> decide

/-- Settles O3: each row of the table has the mask and the match word of its command, by which R84 selects it. -/
theorem maskAndMatchSelectTheCommand : Obligations.MaskAndMatchSelectTheCommand := by
  unfold Obligations.MaskAndMatchSelectTheCommand
  intro table
  have hrows : ∀ row ∈ table, row.2 = (row.1.format.mask, row.1.matchWord) := by decide
  refine ⟨fun m => by cases m <;> decide, fun w row hrow => ?_⟩
  rw [hrows row hrow, ← hasChannel_iff]
  exact selects_iff

/-! ### Which words are illegal (R86) -/

theorem selectMnemonic_eq_none_iff {op : BitVec 6} : selectMnemonic op = none ↔
    op.toNat ∈ [0x00, 0x07, 0x0D, 0x0E, 0x0F, 0x13, 0x14, 0x15, 0x16, 0x17] ∨ 0x1D ≤ op.toNat := by
  revert op
  decide

theorem decode_isError_iff {w : Word} : (∃ e, decode w = .error e) ↔
    selectMnemonic (fieldOp w) = none ∨ ∃ m : Mnemonic, m.opcode = fieldOp w ∧
      (w &&& m.format.mask &&& 0x03FFFFFF#32 ≠ 0#32 ∨ m.hasChannel = true ∧ w.extractLsb' 8 2 = 3#2) := by
  simp only [← selectMnemonic_eq_some, ← operandsOf_isError_iff, decode]
  cases selectMnemonic (fieldOp w) with
  | none => simp
  | some m => by_cases hsbz : w &&& m.format.mask &&& 0x03FFFFFF#32 = 0#32 <;> simp [hsbz]

/-- Settles O4: the three cases of R86 are the three ways in which the decoder fails, and then `perform` reports the word. -/
theorem illegalWordsAreReported : Obligations.IllegalWordsAreReported := by
  refine fun w => ⟨?_, fun s ⟨e, he⟩ => ?_⟩
  · rw [decode_isError_iff, selectMnemonic_eq_none_iff]
    simp only [← BitVec.toNat_inj, fieldOp_toNat]
  · rw [Machine.perform, he]
    rfl

/-- Settles O5: the decoder evaluated on each word. -/
theorem specWordsDecode : Obligations.SpecWordsDecode :=
  ⟨by decide, by decide, by decide, by decide⟩

/-! ### The lines of the assembler (R88) -/

theorem EncodableOperands.length_eq : ∀ {ks : List OperandKind} {os : List AsmOperand}, EncodableOperands ks os →
    os.length = ks.length
  | [], [], _ => rfl
  | _ :: _, _ :: _, ⟨_, h⟩ => congrArg (· + 1) h.length_eq

theorem AsmLine.length_eq_of_wellFormed {m : Mnemonic} {os : List AsmOperand} (h : (AsmLine.mk m os).wellFormed = true) :
    os.length = m.operandKinds.length := by
  unfold AsmLine.wellFormed AsmLine.assemble at h
  split at h
  case h_20 => cases h
  all_goals
    subst_vars
    rfl

/-- Lines of the wrong length are refused; the others are read operand by operand. -/
theorem AsmLine.wellFormed_iff (m : Mnemonic) (os : List AsmOperand) :
    (AsmLine.mk m os).wellFormed = true ↔ EncodableOperands m.operandKinds os := by
  by_cases hlen : os.length = m.operandKinds.length
  case neg => exact iff_of_false (mt AsmLine.length_eq_of_wellFormed hlen) (mt EncodableOperands.length_eq hlen)
  cases m with
  | loadx | exportDisp | gray | inv | hbuild =>
    match os, hlen with
    | [], _ => exact ⟨fun _ => trivial, fun _ => rfl⟩
  | thr | hcum =>
    match os, hlen with
    | [a], _ =>
      simp [AsmLine.wellFormed, AsmLine.assemble, isSome_bind, isSome_pure, -bind_pure_comp, EncodableOperands,
        Mnemonic.operandKinds, AsmOperand.toImm8_ok, AsmOperand.toChannel_ok]
  | dec8 | decw | decd | todisp | dims =>
    match os, hlen with
    | [a, b], _ =>
      simp [AsmLine.wellFormed, AsmLine.assemble, isSome_bind, isSome_pure, -bind_pure_comp, EncodableOperands,
        Mnemonic.operandKinds, AsmOperand.toReg_ok, AsmOperand.toGroup_ok]
  | getpix | hcount | hlow | hhigh =>
    match os, hlen with
    | [a, b, c], _ =>
      simp [AsmLine.wellFormed, AsmLine.assemble, isSome_bind, isSome_pure, -bind_pure_comp, EncodableOperands,
        Mnemonic.operandKinds, AsmOperand.toReg_ok, AsmOperand.toChannel_ok]
  | load =>
    match os, hlen with
    | [a, b, c, d], _ =>
      simp [AsmLine.wellFormed, AsmLine.assemble, isSome_bind, isSome_pure, -bind_pure_comp, EncodableOperands,
        Mnemonic.operandKinds, AsmOperand.toReg_ok, AsmOperand.toLayout_ok]
  | enc8 | encw =>
    match os, hlen with
    | [a, b, c, d, e], _ =>
      simp [AsmLine.wellFormed, AsmLine.assemble, isSome_bind, isSome_pure, -bind_pure_comp, EncodableOperands,
        Mnemonic.operandKinds, AsmOperand.toReg_ok]

/-- Each operand that R88 writes for a command is read back. -/
theorem Instr.assemble_line (i : Instr) : i.line.assemble = .ok i := by
  cases i with
  | loadx | exportDisp | gray | inv | hbuild => rfl
  | _ =>
    simp only [Instr.line, AsmLine.assemble, Reg.toReg_operand, Group.toGroup_operand, Channel.toChannel_operand,
      Layout.toLayout_operand, AsmOperand.toImm8_imm]
    rfl

/-- Settles O6: a line is read operand by operand, and an operand is read exactly when a command word can hold it. -/
theorem assemblerRefusesTheUnencodable : Obligations.AssemblerRefusesTheUnencodable :=
  ⟨AsmLine.wellFormed_iff, Instr.assemble_line⟩

end Sys2Proof
end

section
/-! The codec (40_codec.md R100 to R111): what a command that writes one register or one group and completes leaves, the six
codec commands in this form, and their round trips. -/

namespace Sys2Proof.Machine

/-! ### Every command's row (R82, R84) -/

theorem encodedAs (i : Instr) : EncodedAs i.mnemonic i := ⟨rfl, encode_and_mask i, decode_encode i⟩

/-! ### Commands that write registers and complete (R103, R203) -/

theorem State.completed_complete (s : State) : s.complete.Completed := ⟨rfl, rfl, rfl⟩

/-- Completing after a write of registers leaves everything but these registers and the result. -/
theorem State.onlyRegs_complete {s : State} {x : Vector Word 8} {ds : List Reg}
    (h : s.SameRegsBut { s with x := x } ds) : s.OnlyRegs (State.complete { s with x := x }) ds :=
  ⟨h, fun _ => ⟨rfl, rfl, rfl⟩, ⟨rfl, rfl, rfl⟩, ⟨rfl, rfl, rfl⟩, rfl, rfl, rfl, rfl, rfl, rfl, rfl, rfl, rfl⟩

theorem State.sameRegsBut_setReg (s : State) (rd : Reg) (v : Word) : s.SameRegsBut (s.setReg rd v) [rd] := by
  intro r hr
  rw [State.readReg_setReg, if_neg (List.ne_of_not_mem_cons hr).symm]

theorem State.onlyRegs_setReg_complete (s : State) (rd : Reg) (v : Word) : s.OnlyRegs (s.setReg rd v).complete [rd] :=
  State.onlyRegs_complete (s.sameRegsBut_setReg rd v)

/-- A command that writes one register and completes. -/
theorem exec_setReg_complete {i : Instr} {s : State} {rd : Reg} {v : Word} {n : Nat}
    (h : exec i s = .next (s.setReg rd v).complete) (hv : v.toNat = n) :
    ∃ t, exec i s = .next t ∧ t.Completed ∧ (t.readReg rd).toNat = n ∧ s.OnlyRegs t [rd] := by
  refine ⟨_, h, State.completed_complete _, ?_, s.onlyRegs_setReg_complete rd v⟩
  rw [State.complete_eq, State.readReg_finish, State.readReg_setReg_same, hv]

/-! ### Channels written to a group (R82, R106) -/

@[simp] theorem groupReg_inj {q : Group} {j k : Fin 4} : groupReg q j = groupReg q k ↔ j = k := by
  cases q <;> simp [groupReg, Fin.ext_iff]

/-- The four channel values of `p`, zero-extended, written to the registers of a group. -/
def State.setChannels (s : State) (q : Group) (p : Quad) : State :=
  s.setGroup q (widen p.c0) (widen p.c1) (widen p.c2) (widen p.c3)

/-- The registers of a group. -/
abbrev groupRegs (q : Group) : List Reg := [groupReg q 0, groupReg q 1, groupReg q 2, groupReg q 3]

theorem State.setChannels_readReg (s : State) (q : Group) (p : Quad) :
    (s.setChannels q p).readReg (groupReg q 0) = widen p.c0 ∧ (s.setChannels q p).readReg (groupReg q 1) = widen p.c1 ∧
    (s.setChannels q p).readReg (groupReg q 2) = widen p.c2 ∧ (s.setChannels q p).readReg (groupReg q 3) = widen p.c3 := by
  simp [State.setChannels, State.readReg_setGroup]

theorem State.sameRegsBut_setChannels (s : State) (q : Group) (p : Quad) :
    s.SameRegsBut (s.setChannels q p) (groupRegs q) := by
  intro r hr
  simp only [List.mem_cons, List.not_mem_nil, or_false, not_or, eq_comm (a := r)] at hr
  obtain ⟨h0, h1, h2, h3⟩ := hr
  rw [State.setChannels, State.readReg_setGroup, if_neg h0, if_neg h1, if_neg h2, if_neg h3]

/-- A command that writes the four values of `p` to a group and completes. -/
theorem exec_setChannels_complete {i : Instr} {s : State} {q : Group} {p : Quad}
    (h : exec i s = .next (s.setChannels q p).complete) :
    ∃ t, exec i s = .next t ∧ t.Completed ∧
      (t.readReg (groupReg q 0)).toNat = p.c0.toNat ∧ (t.readReg (groupReg q 1)).toNat = p.c1.toNat ∧
      (t.readReg (groupReg q 2)).toNat = p.c2.toNat ∧ (t.readReg (groupReg q 3)).toNat = p.c3.toNat ∧
      s.OnlyRegs t (groupRegs q) := by
  obtain ⟨h0, h1, h2, h3⟩ := s.setChannels_readReg q p
  refine ⟨_, h, State.completed_complete _, ?_, ?_, ?_, ?_, State.onlyRegs_complete (s.sameRegsBut_setChannels q p)⟩ <;>
    simp only [State.complete_eq, State.readReg_finish, h0, h1, h2, h3, widen_toNat]

/-! ### The meanings of the codec commands (R104 to R109) -/

theorem exec_enc8 (rd rs1 rs2 rs3 rs4 : Reg) (s : State) : exec (.enc8 rd rs1 rs2 rs3 rs4) s =
    .next (s.setReg rd (pack (s.narrow rs1) (s.narrow rs2) (s.narrow rs3) (s.narrow rs4))).complete := rfl

theorem exec_encw (rd rs1 rs2 rs3 rs4 : Reg) (s : State) :
    exec (.encw rd rs1 rs2 rs3 rs4) s = exec (.enc8 rd rs1 rs2 rs3 rs4) s := by
  simp only [exec, execEncw, execEnc8, State.wideLow_wide]

theorem exec_dec8 (q : Group) (rs1 : Reg) (s : State) :
    exec (.dec8 q rs1) s = .next (s.setChannels q (unpack (s.readReg rs1))).complete := rfl

theorem exec_decw (q : Group) (rs1 : Reg) (s : State) : exec (.decw q rs1) s = exec (.dec8 q rs1) s := by
  simp only [exec, execDecw, execDec8, widenWide_eq]

theorem exec_todisp (rd rs1 : Reg) (s : State) :
    exec (.todisp rd rs1) s = .next (s.setReg rd (displayWord (s.readReg rs1))).complete := rfl

theorem exec_decd (q : Group) (rs1 : Reg) (s : State) :
    exec (.decd q rs1) s = .next (s.setChannels q (undisplay (s.readReg rs1))).complete := rfl

/-- Settles O30: the word written is `pack` of the sources' low bytes. -/
theorem enc8PacksTheLowBytes : Obligations.Enc8PacksTheLowBytes := by
  intro rd rs1 rs2 rs3 rs4 s
  refine ⟨encodedAs _, exec_setReg_complete (exec_enc8 ..) ?_⟩
  simp only [pack_toNat, State.narrow_toNat]

/-- Settles O31: ENCW is ENC8, and the low byte of the wide value is the low byte of the source. -/
theorem encwPacksTheLowBytesOfTheWideValues : Obligations.EncwPacksTheLowBytesOfTheWideValues := by
  intro rd rs1 rs2 rs3 rs4 s
  have hlow (n : Nat) : n % 2 ^ 16 % 256 = n % 256 := Nat.mod_mod_of_dvd n (by decide)
  refine ⟨encodedAs _, ?_⟩
  rw [exec_encw]
  simp only [hlow]
  exact (enc8PacksTheLowBytes rd rs1 rs2 rs3 rs4 s).2

/-- Settles O32: the group gets `unpack` of the word the source held before the command. -/
theorem dec8WritesTheFourChannels : Obligations.Dec8WritesTheFourChannels := by
  intro q rs1 s
  have h := exec_setChannels_complete (exec_dec8 q rs1 s)
  simp only [unpack_red, unpack_green, unpack_blue, unpack_alpha] at h
  exact ⟨encodedAs _, h⟩

/-- Settles O33: DECW is DEC8. -/
theorem decwWritesTheFourChannels : Obligations.DecwWritesTheFourChannels := by
  intro q rs1 s
  refine ⟨encodedAs _, ?_⟩
  rw [exec_decw]
  exact (dec8WritesTheFourChannels q rs1 s).2

/-- Settles O34: the word written is `displayWord` of the source. -/
theorem todispReordersTheChannels : Obligations.TodispReordersTheChannels :=
  fun rd rs1 s => ⟨encodedAs _, exec_setReg_complete (exec_todisp rd rs1 s) (displayWord_toNat _)⟩

/-! ### The channels of a word given as a number (R100, R102) -/

theorem channels_of_toNat {w : Word} {r g b a : Nat} (h : w.toNat = storageNat r g b a) (hg : g < 256) (hb : b < 256)
    (ha : a < 256) : redOf w = r ∧ greenOf w = g ∧ blueOf w = b ∧ alphaOf w = a := by
  simp only [redOf, greenOf, blueOf, alphaOf, h, storageNat]
  omega

/-- Settles O35: `undisplay` cuts the word where `unpack` does, and names the parts a, r, g, b. -/
theorem decdWritesTheFourDisplayChannels : Obligations.DecdWritesTheFourDisplayChannels := by
  intro q rs1 s a r g b _ hr hg hb hw
  have h := exec_setChannels_complete (exec_decd q rs1 s)
  obtain ⟨h0, h1, h2, h3⟩ := undisplay_toNat (s.readReg rs1)
  obtain ⟨ha', hr', hg', hb'⟩ := channels_of_toNat hw hr hg hb
  rw [h0, h1, h2, h3, ha', hr', hg', hb'] at h
  exact ⟨encodedAs _, h⟩

/-- Settles O37: the wide variants have the meanings of the narrow ones. -/
theorem precisionVariantsAgree : Obligations.PrecisionVariantsAgree :=
  fun s => ⟨fun rd rs1 rs2 rs3 rs4 => (exec_encw rd rs1 rs2 rs3 rs4 s).symm, fun q rs1 => (exec_decw q rs1 s).symm⟩

/-! ### The round trips (R110) -/

/-- ENC8 packs sources that are channel values as they are. -/
theorem exec_enc8_of_channels {rd rs1 rs2 rs3 rs4 : Reg} {s : State} (h1 : (s.readReg rs1).toNat < 256)
    (h2 : (s.readReg rs2).toNat < 256) (h3 : (s.readReg rs3).toNat < 256) (h4 : (s.readReg rs4).toNat < 256) :
    ∃ t, exec (.enc8 rd rs1 rs2 rs3 rs4) s = .next t ∧ (t.readReg rd).toNat =
      storageNat (s.readReg rs1).toNat (s.readReg rs2).toNat (s.readReg rs3).toNat (s.readReg rs4).toNat := by
  obtain ⟨-, t, ht, -, hrd, -⟩ := enc8PacksTheLowBytes rd rs1 rs2 rs3 rs4 s
  rw [Nat.mod_eq_of_lt h1, Nat.mod_eq_of_lt h2, Nat.mod_eq_of_lt h3, Nat.mod_eq_of_lt h4] at hrd
  exact ⟨t, ht, hrd⟩

/-- Settles O36: the encoded word's channels are the sources (`channels_of_toNat`), under either variant (R111), and TODISP
writes them in the order in which DECD reads them. -/
theorem codecRoundTrips : Obligations.CodecRoundTrips := by
  rintro s r g b a hr hg hb ha rfl rfl rfl rfl
  obtain ⟨t, ht, hword⟩ := exec_enc8_of_channels (rd := 4) hr hg hb ha
  obtain ⟨hred, hgreen, hblue, halpha⟩ := channels_of_toNat hword hg hb ha
  constructor
  · intro enc henc dec hdec
    have henc8 : exec enc s = exec (.enc8 4 0 1 2 3) s := by
      obtain rfl | rfl := List.mem_pair.1 henc
      · rfl
      · exact exec_encw ..
    have hdec8 : exec dec t = exec (.dec8 .hi 4) t := by
      obtain rfl | rfl := List.mem_pair.1 hdec
      · rfl
      · exact exec_decw ..
    obtain ⟨-, u, hu, -, h4, h5, h6, h7, -⟩ := dec8WritesTheFourChannels .hi 4 t
    exact ⟨t, u, henc8.trans ht, hdec8.trans hu, h4.trans hred, h5.trans hgreen, h6.trans hblue, h7.trans halpha⟩
  · obtain ⟨-, u, hu, -, h5, -⟩ := todispReordersTheChannels 5 4 t
    rw [hred, hgreen, hblue, halpha] at h5
    obtain ⟨-, v, hv, -, h0, h1, h2, h3, -⟩ := decdWritesTheFourDisplayChannels .lo 5 u _ _ _ _ ha hr hg hb h5
    exact ⟨t, u, v, ht, hu, hv, h0, h1, h2, h3⟩

end Sys2Proof.Machine
end

section
/-! The image commands (41_image.md R122 to R128): the load core clause by clause, what a load, GETPIX, DIMS and EXPORT leave,
and the error each raises. -/

namespace Sys2Proof.Machine

/-! ### The load core (R122) -/

section LoadCore

variable {s : State} {w h len : Word} {lay : Layout}

theorem State.loadCore_zero (hz : w.toNat = 0 ∨ h.toNat = 0) :
    s.loadCore w h len lay = s.afterError .invalidDimensions 0#32 := by
  obtain ⟨_, e⟩ | later := s.loadCore_cases w h len lay
  · exact e
  · omega

theorem State.loadCore_exceeds (hw : 1 ≤ w.toNat) (hh : 1 ≤ h.toNat) (hn : s.maxPixels < w.toNat * h.toNat) :
    s.loadCore w h len lay = s.afterError .capacityExceeded 0#32 := by
  obtain zero | ⟨_, _, _, e⟩ | later := s.loadCore_cases w h len lay
  · omega
  · exact e
  · omega

theorem State.loadCore_badLength (hw : 1 ≤ w.toNat) (hh : 1 ≤ h.toNat) (hn : w.toNat * h.toNat ≤ s.maxPixels)
    (hl : len.toNat ≠ w.toNat * h.toNat * bytesPerPixel lay) :
    s.loadCore w h len lay = s.afterError .invalidBufferLength len := by
  obtain zero | exceeds | ⟨_, _, _, _, e⟩ | ⟨_, _, _, right_len, _⟩ := s.loadCore_cases w h len lay
  · omega
  · omega
  · exact e
  · exact absurd right_len hl

theorem State.loadCore_builds (hw : 1 ≤ w.toNat) (hh : 1 ≤ h.toNat) (hn : w.toNat * h.toNat ≤ s.maxPixels)
    (hl : len.toNat = w.toNat * h.toNat * bytesPerPixel lay) : s.loadCore w h len lay =
      ((s.fillPix (w.toNat * h.toNat) (s.pixelFromBytes lay)).setDims w h).complete := by
  obtain zero | exceeds | ⟨_, _, _, wrong_len, _⟩ | ⟨_, _, _, _, e⟩ := s.loadCore_cases w h len lay
  · omega
  · omega
  · exact absurd hl wrong_len
  · exact e

/-- What the writes of a load leave, whatever the dimensions (R121, R122). -/
theorem State.loaded_fillPix_setDims (s : State) (w h : Word) (lay : Layout) :
    s.Loaded ((s.fillPix (w.toNat * h.toNat) (s.pixelFromBytes lay)).setDims w h).complete w h lay := by
  refine ⟨State.completed_complete _, rfl, rfl, rfl, fun k hk => ?pixel, fun _ _ => rfl, fun k hk => ?outside,
    fun _ => ⟨rfl, rfl⟩, ⟨rfl, rfl, rfl⟩, rfl, rfl, rfl, rfl, rfl, rfl, rfl, rfl, rfl⟩ <;>
    rw [State.complete_eq, State.readPix_finish, State.readPix_setDims, State.readPix_fillPix]
  case pixel =>
    rw [if_pos hk]
    exact s.pixelFromBytes_toNat lay k
  case outside => exact if_neg (Nat.not_lt.2 hk)

theorem State.loaded_loadCore (hw : 1 ≤ w.toNat) (hh : 1 ≤ h.toNat) (hn : w.toNat * h.toNat ≤ s.maxPixels)
    (hl : len.toNat = w.toNat * h.toNat * bytesPerPixel lay) : s.Loaded (s.loadCore w h len lay) w h lay := by
  rw [State.loadCore_builds hw hh hn hl]
  exact s.loaded_fillPix_setDims w h lay

end LoadCore

/-! ### LOAD and LOADX (R124, R125) -/

theorem exec_load (rs1 rs2 rs3 : Reg) (lay : Layout) (s : State) : exec (.load rs1 rs2 rs3 lay) s =
    .next (s.loadCore (s.readReg rs1) (s.readReg rs2) (s.readReg rs3) lay) := rfl

theorem exec_loadx_of_failure {s : State} (hf : s.dec.fail = true) :
    exec .loadx s = .next (s.afterError .decodeFailure (s.dec.code.zeroExtend 32)) :=
  congrArg Host.Outcome.next (if_pos hf)

theorem exec_loadx_of_success {s : State} (hf : s.dec.fail = false) :
    exec .loadx s = .next (s.loadCore s.dec.w s.dec.h s.dec.len s.dec.layout) :=
  congrArg Host.Outcome.next (if_neg (ne_true_of_eq_false hf))

/-- Settles O40: either command is the load core, and each clause is one of its four ways to end; a length that is no multiple
of the pixel size is not the exact length. -/
theorem loadChecksInOrder : Obligations.LoadChecksInOrder := by
  intro s i w h len lay hi
  have hexec : exec i s = .next (s.loadCore w h len lay) := by
    obtain ⟨rs1, rs2, rs3, rfl, rfl, rfl, rfl⟩ | ⟨rfl, hf, rfl, rfl, rfl, rfl⟩ := hi
    · exact exec_load ..
    · exact exec_loadx_of_success hf
  rw [hexec]
  refine ⟨fun hz => ?zero, fun hw hh hn => ?exceeds, fun hw hh hn hl => ?badLength, fun hw hh hn hl => ?builds⟩
  case zero => rw [State.loadCore_zero hz]
  case exceeds => rw [State.loadCore_exceeds hw hh hn]
  case badLength =>
    have hne : len.toNat ≠ w.toNat * h.toNat * bytesPerPixel lay :=
      hl.elim (fun hmod heq => hmod (heq ▸ Nat.mul_mod_left ..)) id
    rw [State.loadCore_badLength hw hh hn hne]
  case builds => exact ⟨_, rfl, State.loaded_loadCore hw hh hn hl⟩

/-- Settles O38: LOAD is the load core on three registers, and its checks pass. -/
theorem loadBuildsTheImage : Obligations.LoadBuildsTheImage :=
  fun rs1 rs2 rs3 lay s hw hh hn hl =>
    ⟨encodedAs _, _, exec_load rs1 rs2 rs3 lay s, State.loaded_loadCore hw hh hn hl⟩

/-- Settles O39: LOADX is the load core on the decoder port, and its checks pass. -/
theorem loadxBuildsTheDeclaredImage : Obligations.LoadxBuildsTheDeclaredImage :=
  fun _ hf hw hh hn hl => ⟨encodedAs _, _, exec_loadx_of_success hf, State.loaded_loadCore hw hh hn hl⟩

/-- Settles O41: the failure is tested before the load core runs, and its 24-bit code is zero-extended. -/
theorem loadxSurfacesTheDecoderFailure : Obligations.LoadxSurfacesTheDecoderFailure :=
  fun _ hf => ⟨_, exec_loadx_of_failure hf, BitVec.toNat_setWidth_of_le (by decide)⟩

/-! ### Commands that need an image (R126, R127, R128) -/

theorem State.require_noImage {s : State} (hv : s.imgValid = false) (k : State → State) :
    s.require s.imgValid .noImage k = s.afterError .noImage 0#32 := by
  rw [hv, State.require_false]
  rfl

theorem State.require_image {s : State} (hv : s.imgValid = true) (e : ErrCode) (k : State → State) :
    s.require s.imgValid e k = k s := by
  rw [hv, State.require_true]

/-! ### GETPIX (R126) -/

theorem exec_getpix_noImage {s : State} (rd rs1 rs2 : Reg) (hv : s.imgValid = false) :
    exec (.getpix rd rs1 rs2) s = .next (s.afterError .noImage 0#32) :=
  congrArg Host.Outcome.next (State.require_noImage hv _)

/-- With an image, the column is checked first, then the row. -/
theorem exec_getpix_image {s : State} (rd rs1 rs2 : Reg) (hv : s.imgValid = true) : exec (.getpix rd rs1 rs2) s = .next
    (if s.imgW.toNat ≤ (s.readReg rs1).toNat then s.afterError .indexOutOfRange (s.readReg rs1)
     else if s.imgH.toNat ≤ (s.readReg rs2).toNat then s.afterError .indexOutOfRange (s.readReg rs2)
     else (s.setReg rd (s.readPix ((s.readReg rs2).toNat * s.imgW.toNat + (s.readReg rs1).toNat))).complete) :=
  congrArg Host.Outcome.next (State.require_image hv _ _)

/-- Settles O42: the checks in their order, and inside both bounds one register is written. -/
theorem getpixReadsTheCoordinate : Obligations.GetpixReadsTheCoordinate := by
  intro rd rs1 rs2 s
  refine ⟨encodedAs _, exec_getpix_noImage rd rs1 rs2, fun hv hx hy => ?inside, fun hv hx => ?column, fun hv hx hy => ?row⟩
  case inside =>
    have hexec := exec_getpix_image rd rs1 rs2 hv
    rw [if_neg (Nat.not_le.2 hx), if_neg (Nat.not_le.2 hy)] at hexec
    obtain ⟨t, ht, hc, hr, ho⟩ := exec_setReg_complete hexec rfl
    exact ⟨t, ht, hc, BitVec.eq_of_toNat_eq hr, ho⟩
  case column => rw [exec_getpix_image rd rs1 rs2 hv, if_pos hx]
  case row => rw [exec_getpix_image rd rs1 rs2 hv, if_neg (Nat.not_le.2 hx), if_pos hy]

/-! ### DIMS (R128) -/

theorem exec_dims_noImage {s : State} (rd rd2 : Reg) (hv : s.imgValid = false) :
    exec (.dims rd rd2) s = .next (s.afterError .noImage 0#32) :=
  congrArg Host.Outcome.next (State.require_noImage hv _)

theorem exec_dims_image {s : State} (rd rd2 : Reg) (hv : s.imgValid = true) :
    exec (.dims rd rd2) s = .next ((s.setReg rd s.imgW).setReg rd2 s.imgH).complete :=
  congrArg Host.Outcome.next (State.require_image hv _ _)

theorem State.sameRegsBut_setReg_setReg (s : State) (i j : Reg) (u v : Word) :
    s.SameRegsBut ((s.setReg i u).setReg j v) [i, j] := by
  intro r hr
  obtain ⟨hi, hj⟩ := not_or.1 (mt List.mem_cons.2 hr)
  calc ((s.setReg i u).setReg j v).readReg r
      = (s.setReg i u).readReg r := State.sameRegsBut_setReg _ j v r hj
    _ = s.readReg r := s.sameRegsBut_setReg i u r (mt List.mem_singleton.1 hi)

/-- Settles O43: the second write leaves the first one's register alone when it is another. -/
theorem dimsReturnsWidthThenHeight : Obligations.DimsReturnsWidthThenHeight := by
  intro rd rd2 s
  refine ⟨encodedAs _, exec_dims_noImage rd rd2, fun hv => ⟨_, exec_dims_image rd rd2 hv, State.completed_complete _, ?height,
    fun hne => ?width, State.onlyRegs_complete (s.sameRegsBut_setReg_setReg rd rd2 _ _)⟩⟩ <;>
    rw [State.complete_eq, State.readReg_finish]
  case height => exact State.readReg_setReg_same _ rd2 _
  case width => rw [State.readReg_setReg, if_neg hne.symm, State.readReg_setReg_same]

/-! ### EXPORT (R127) -/

theorem exec_exportDisp_noImage {s : State} (hv : s.imgValid = false) :
    exec .exportDisp s = .next (s.afterError .noImage 0#32) :=
  congrArg Host.Outcome.next (State.require_noImage hv _)

theorem exec_exportDisp_image {s : State} (hv : s.imgValid = true) :
    exec .exportDisp s = .next (s.fillDisp s.numPixels (fun k => displayWord (s.readPix k))).complete :=
  congrArg Host.Outcome.next (State.require_image hv _ _)

theorem State.readDisp_fillDisp_complete (s : State) (n : Nat) (f : Nat → Word) (k : Nat) :
    (s.fillDisp n f).complete.readDisp k = if k < n then f k else s.readDisp k := by
  rw [State.complete_eq, State.readDisp_finish, State.readDisp_fillDisp]

theorem State.onlyDisp_fillDisp_complete (s : State) (n : Nat) (f : Nat → Word) :
    s.OnlyDisp (s.fillDisp n f).complete n := by
  refine ⟨fun _ _ => rfl, fun k hk => ?_, fun _ => ⟨rfl, rfl⟩, ⟨rfl, rfl, rfl⟩, ⟨rfl, rfl, rfl⟩, rfl, rfl, rfl, rfl, rfl, rfl,
    rfl, rfl, rfl⟩
  rw [State.readDisp_fillDisp_complete, if_neg (Nat.not_lt.2 hk)]

/-- Settles O44: the fill writes `displayWord` of each pixel below N. -/
theorem exportWritesTheDisplayWords : Obligations.ExportWritesTheDisplayWords := by
  intro s
  refine ⟨encodedAs _, exec_exportDisp_noImage, fun hv => ⟨_, exec_exportDisp_image hv, State.completed_complete _,
    fun k hk => ?_, s.onlyDisp_fillDisp_complete _ _⟩⟩
  have hk' : k < s.numPixels := hk
  rw [State.readDisp_fillDisp_complete, if_pos hk', displayWord_toNat]

end Sys2Proof.Machine
end

section
/-! The point operations (42_point_ops.md R140 to R145): what rewriting every pixel leaves and what two rewrites in a row amount
to, the three pixel functions applied twice, and the commands in these terms. -/

namespace Sys2Proof.Machine

/-! ### Rewriting every pixel (R140) -/

theorem State.pointOp_noImage {s : State} (hv : s.imgValid = false) (f : Word → Word) :
    s.pointOp f = s.afterError .noImage 0#32 := State.require_noImage hv _

theorem State.pointOp_image {s : State} (hv : s.imgValid = true) (f : Word → Word) :
    s.pointOp f = (s.fillPix s.numPixels (fun k => f (s.readPix k))).complete := State.require_image hv _ _

theorem State.readPix_fillPix_complete (s : State) (n : Nat) (f : Nat → Word) (k : Nat) :
    (s.fillPix n f).complete.readPix k = if k < n then f k else s.readPix k := by
  rw [State.complete_eq, State.readPix_finish, State.readPix_fillPix]

theorem State.readPix_pointOp {s : State} (hv : s.imgValid = true) (f : Word → Word) (k : Nat) :
    (s.pointOp f).readPix k = if k < s.numPixels then f (s.readPix k) else s.readPix k := by
  rw [State.pointOp_image hv, State.readPix_fillPix_complete]

theorem State.onlyPix_fillPix_complete (s : State) (n : Nat) (f : Nat → Word) :
    s.OnlyPix (s.fillPix n f).complete n := by
  refine ⟨fun _ _ => rfl, fun k hk => ?_, fun _ => ⟨rfl, rfl⟩, ⟨rfl, rfl, rfl⟩, ⟨rfl, rfl, rfl⟩, rfl, rfl, rfl, rfl, rfl, rfl,
    rfl, rfl, rfl⟩
  rw [State.readPix_fillPix_complete, if_neg (Nat.not_lt.2 hk)]

theorem State.onlyPix_pointOp {s : State} (hv : s.imgValid = true) (f : Word → Word) :
    s.OnlyPix (s.pointOp f) s.numPixels := by
  rw [State.pointOp_image hv]
  exact s.onlyPix_fillPix_complete _ _

theorem State.completed_pointOp {s : State} (hv : s.imgValid = true) (f : Word → Word) : (s.pointOp f).Completed := by
  rw [State.pointOp_image hv]
  exact State.completed_complete _

/-! ### Two rewrites in a row -/

/-- A fill overwrites an earlier fill of the same addresses, also in the list that stands for the memory. -/
theorem Memory.fill_fill {α : Type} (m : List (Nat × α)) (n : Nat) (f g : Nat → α) :
    Memory.fill (Memory.fill m n f) n g = Memory.fill m n g := by
  have hnew : ((List.range n).map (fun k => (k, f k))).filter (fun c => n ≤ c.1) = [] := by
    rw [List.filter_eq_nil_iff]
    simp
  simp only [Memory.fill, List.filter_append, hnew, List.nil_append, List.filter_filter, Bool.and_self]

theorem Memory.fill_congr {α : Type} (m : List (Nat × α)) {n : Nat} {f g : Nat → α} (h : ∀ k, k < n → f k = g k) :
    Memory.fill m n f = Memory.fill m n g := by
  have hnew : (List.range n).map (fun k => (k, f k)) = (List.range n).map (fun k => (k, g k)) :=
    List.map_congr_left fun k hk => by rw [h k (List.mem_range.1 hk)]
  rw [Memory.fill, Memory.fill, hnew]

/-- Two point operations in a row are the one that composes their pixel functions. -/
theorem State.pointOp_pointOp {s : State} (hv : s.imgValid = true) (f g : Word → Word) :
    (s.pointOp f).pointOp g = s.pointOp (g ∘ f) := by
  rw [State.pointOp_image hv f, State.pointOp_image hv (g ∘ f)]
  refine (State.pointOp_image (s := (s.fillPix _ _).complete) hv g).trans ?_
  refine congrArg (fun m => State.complete { s with pix := m })
    ((Memory.fill_fill ..).trans (Memory.fill_congr _ fun k hk => ?_))
  rw [State.readPix_fillPix_complete, if_pos hk, Function.comp_apply]

/-! ### The pixel functions (R143 to R145) -/

theorem grayPixel_grayPixel (w : Word) : grayPixel (grayPixel w) = grayPixel w := by
  have hr := redOf_lt w
  have hg := greenOf_lt w
  have hb := blueOf_lt w
  obtain ⟨hred, hgreen, hblue, halpha⟩ := channels_of_toNat (grayPixel_toNat w) (by omega) (by omega) (alphaOf_lt w)
  apply BitVec.eq_of_toNat_eq
  rw [grayPixel_toNat (grayPixel w), hred, hgreen, hblue, halpha, grayPixel_toNat w]
  have hmean (l : Nat) : (l + l + l) / 3 = l := by omega
  simp only [hmean]

/-- 255 - c inverts each bit of the channel. -/
theorem wideLow_sub_wideChannel (c : Byte) : wideLow (255 - wideChannel c) = c ^^^ 0xFF#8 := by
  have hc := c.isLt
  show _ = c ^^^ BitVec.allOnes 8
  apply BitVec.eq_of_toNat_eq
  rw [BitVec.xor_allOnes, BitVec.toNat_not, wideLow_toNat, BitVec.toNat_sub, wideChannel_toNat]
  show (2 ^ 16 - _ + 255) % 2 ^ 16 % 256 = _
  omega

/-- R144: on the three colour bytes the mask is 0xFF, on alpha it is 0. -/
theorem invPixel_eq_xor (w : Word) : invPixel w = w ^^^ 0xFFFFFF00#32 := by
  have hunpack : unpack (w ^^^ 0xFFFFFF00#32) =
      ⟨(unpack w).c0 ^^^ 0xFF#8, (unpack w).c1 ^^^ 0xFF#8, (unpack w).c2 ^^^ 0xFF#8, (unpack w).c3 ^^^ 0#8⟩ := by
    simp only [unpack, BitVec.extractLsb'_xor]
    rfl
  rw [← pack_unpack (w ^^^ _), hunpack]
  simp only [invPixel, wideLow_sub_wideChannel, BitVec.xor_zero]

theorem invPixel_invPixel (w : Word) : invPixel (invPixel w) = w := by
  rw [invPixel_eq_xor, invPixel_eq_xor, BitVec.xor_assoc, BitVec.xor_self, BitVec.xor_zero]

theorem thresholdChannel_thresholdChannel (limit c : Byte) :
    thresholdChannel limit (thresholdChannel limit c) = thresholdChannel limit c := by
  have hc := c.isLt
  by_cases h : limit.toNat < c.toNat
  · have hlimit : limit.toNat < (255#8).toNat := Nat.lt_of_lt_of_le h (Nat.le_of_lt_succ hc)
    rw [thresholdChannel, thresholdChannel, if_pos h, if_pos hlimit]
  · have hlimit : ¬ limit.toNat < (0#8).toNat := Nat.not_lt_zero _
    rw [thresholdChannel, thresholdChannel, if_neg h, if_neg hlimit]

theorem thrPixel_thrPixel (limit : Byte) (w : Word) : thrPixel limit (thrPixel limit w) = thrPixel limit w := by
  simp only [thrPixel, unpack_pack, thresholdChannel_thresholdChannel]

/-! ### GRAY, INV and THR -/

theorem exec_gray (s : State) : exec .gray s = .next (s.pointOp grayPixel) := rfl

theorem exec_inv (s : State) : exec .inv s = .next (s.pointOp invPixel) := rfl

theorem exec_thr (limit : Byte) (s : State) : exec (.thr limit) s = .next (s.pointOp (thrPixel limit)) := rfl

section PointOp

variable {i : Instr} {f : Word → Word} {s : State}

theorem exec_pointOp_noImage (h : exec i s = .next (s.pointOp f)) (hv : s.imgValid = false) :
    exec i s = .next (s.afterError .noImage 0#32) := by
  rw [h, State.pointOp_noImage hv]

theorem exec_pointOp_image (h : exec i s = .next (s.pointOp f)) (hv : s.imgValid = true) :
    ∃ t, exec i s = .next t ∧ t.Completed ∧
      (∀ k, k < s.imgW.toNat * s.imgH.toNat → t.readPix k = f (s.readPix k)) ∧
      s.OnlyPix t (s.imgW.toNat * s.imgH.toNat) :=
  ⟨_, h, State.completed_pointOp hv f, fun k hk => (State.readPix_pointOp hv f k).trans (if_pos hk),
    State.onlyPix_pointOp hv f⟩

end PointOp

/-- Settles O45: each pixel becomes `grayPixel` of it, whose wide sum never wraps. -/
theorem grayAveragesTheColours : Obligations.GrayAveragesTheColours := by
  intro s
  refine ⟨encodedAs _, exec_pointOp_noImage (exec_gray s), fun hv => ?_⟩
  obtain ⟨t, ht, hc, hpix, ho⟩ := exec_pointOp_image (exec_gray s) hv
  exact ⟨t, ht, hc, fun k hk => hpix k hk ▸ grayPixel_toNat _, ho⟩

/-- Settles O46: each pixel becomes `invPixel` of it, in both of its forms. -/
theorem invComplementsTheColours : Obligations.InvComplementsTheColours := by
  intro s
  refine ⟨encodedAs _, exec_pointOp_noImage (exec_inv s), fun hv => ?_⟩
  obtain ⟨t, ht, hc, hpix, ho⟩ := exec_pointOp_image (exec_inv s) hv
  exact ⟨t, ht, hc, fun k hk => hpix k hk ▸ ⟨invPixel_toNat _, invPixel_eq_xor _⟩, ho⟩

/-- Settles O47: each pixel becomes `thrPixel` of it. -/
theorem thrThresholdsEachColour : Obligations.ThrThresholdsEachColour := by
  intro limit s
  refine ⟨encodedAs _, exec_pointOp_noImage (exec_thr limit s), fun hv => ?_⟩
  obtain ⟨t, ht, hc, hpix, ho⟩ := exec_pointOp_image (exec_thr limit s) hv
  exact ⟨t, ht, hc, fun k hk => hpix k hk ▸ thrPixel_toNat limit _, ho⟩

/-- A point operation whose pixel function is idempotent gives the same state the second time. -/
theorem exec_pointOp_twice {i : Instr} {f : Word → Word} {s : State} (h : ∀ s, exec i s = .next (s.pointOp f))
    (hf : ∀ w, f (f w) = f w) (hv : s.imgValid = true) : ∃ t u, exec i s = .next t ∧ exec i t = .next u ∧ u = t := by
  refine ⟨_, _, h s, h _, ?_⟩
  rw [State.pointOp_pointOp hv, show f ∘ f = f from funext hf]

/-- Settles O48: the pixel functions of GRAY and THR are idempotent, and that of INV is its own inverse. -/
theorem pointOperationsTwice : Obligations.PointOperationsTwice := by
  refine fun s limit hv => ⟨fun i hi => ?idempotent, _, _, exec_inv s, exec_inv _, fun k => ?inverse⟩
  case idempotent =>
    obtain rfl | rfl := List.mem_pair.1 hi
    · exact exec_pointOp_twice exec_gray grayPixel_grayPixel hv
    · exact exec_pointOp_twice (exec_thr limit) (thrPixel_thrPixel limit) hv
  case inverse =>
    rw [State.pointOp_pointOp hv, State.readPix_pointOp hv, Function.comp_apply, invPixel_invPixel, ite_self]

end Sys2Proof.Machine
end

section
/-! The histogram commands (43_histogram.md R160 to R181): the precondition NO_HISTOGRAM, what HBUILD counts, what a scan and
HCOUNT read, and the running sums of HCUM, once and twice. -/

namespace Sys2Proof.Machine

/-! ### Commands that need a histogram (R161) -/

theorem State.require_noHistogram {s : State} (hv : s.histValid = false) (k : State → State) :
    s.require s.histValid .noHistogram k = s.afterError .noHistogram 0#32 := by
  rw [hv, State.require_false]
  rfl

theorem State.require_histogram {s : State} (hv : s.histValid = true) (e : ErrCode) (k : State → State) :
    s.require s.histValid e k = k s := by
  rw [hv, State.require_true]

theorem exec_noHistogram {i : Instr} {s : State} (hv : s.histValid = false)
    (hi : i.mnemonic ∈ [.hcount, .hlow, .hhigh, .hcum]) : exec i s = .next (s.afterError .noHistogram 0#32) := by
  cases i with
  | hcount | hlow | hhigh | hcum => exact congrArg Host.Outcome.next (State.require_noHistogram hv _)
  | _ => simp [Instr.mnemonic] at hi

theorem perform_of_decode {w : Word} {i : Instr} (hd : decode w = .ok i) (s : State) : perform w s = exec i s := by
  simp only [perform, hd]

/-- Settles O54: a legal word is its command, which needs a histogram; an illegal word reaches no command. -/
theorem histogramCommandsNeedAHistogram : Obligations.HistogramCommandsNeedAHistogram :=
  fun w s hv => ⟨fun _ hd hi => (perform_of_decode hd s).trans (exec_noHistogram hv hi),
    fun e he => (illegalWordsAreReported w).2 s ⟨e, he⟩⟩

/-! ### HCOUNT (R170) -/

theorem exec_hcount_histogram {s : State} (rd rs1 : Reg) (c : Channel) (hv : s.histValid = true) :
    exec (.hcount rd rs1 c) s = .next
      (if 255 < (s.readReg rs1).toNat then s.afterError .indexOutOfRange (s.readReg rs1)
       else (s.setReg rd (s.readBin c (s.readReg rs1).toNat)).complete) :=
  congrArg Host.Outcome.next (State.require_histogram hv _ _)

/-- Settles O51: the index is checked first, and below 256 one register is written. -/
theorem hcountReadsTheBin : Obligations.HcountReadsTheBin := by
  intro rd rs1 c s
  refine ⟨encodedAs _, fun hv => exec_noHistogram hv (by simp [Instr.mnemonic]), fun hv hi => ?inside, fun hv hi => ?outside⟩
  case inside =>
    have hexec := exec_hcount_histogram rd rs1 c hv
    rw [if_neg (Nat.not_lt.2 hi)] at hexec
    obtain ⟨t, ht, hc, hr, ho⟩ := exec_setReg_complete hexec rfl
    exact ⟨t, ht, hc, BitVec.eq_of_toNat_eq hr, ho⟩
  case outside => rw [exec_hcount_histogram rd rs1 c hv, if_pos hi]

/-! ### HLOW and HHIGH (R171, R174 to R176) -/

theorem exec_hlow (rd rd2 : Reg) (c : Channel) (s : State) :
    exec (.hlow rd rd2 c) s = .next (s.scanInto rd rd2 c upward) := rfl

theorem exec_hhigh (rd rd2 : Reg) (c : Channel) (s : State) :
    exec (.hhigh rd rd2 c) s = .next (s.scanInto rd rd2 c upward.reverse) := rfl

section Scan

variable {i : Instr} {s : State} {rd rd2 : Reg} {c : Channel} {order : List Nat}

/-- A command that scans a histogram writes the count first and the intensity second, then EMPTY. -/
theorem exec_scanInto (h : exec i s = .next (s.scanInto rd rd2 c order)) (hv : s.histValid = true)
    {count intensity : Word} {isEmpty : Bool} (hscan : scanBins (s.hist.get c) order = (count, intensity, isEmpty)) :
    ∃ t, exec i s = .next t ∧ t.Completed ∧ t.readReg rd2 = intensity ∧ (rd ≠ rd2 → t.readReg rd = count) ∧
      t.empty = isEmpty ∧ s.OnlyRegsAndEmpty t [rd, rd2] := by
  have hscanInto : s.scanInto rd rd2 c order =
      (((s.setReg rd count).setReg rd2 intensity).setEmpty isEmpty).complete := by
    rw [State.scanInto, State.require_histogram hv, hscan]
  refine ⟨_, h.trans (congrArg Host.Outcome.next hscanInto), State.completed_complete _, ?intensity, fun hne => ?count, rfl,
    s.sameRegsBut_setReg_setReg rd rd2 _ _, fun _ => ⟨rfl, rfl, rfl⟩, ⟨rfl, rfl, rfl⟩, ⟨rfl, rfl, rfl⟩,
    rfl, rfl, rfl, rfl, rfl, rfl, rfl, rfl⟩ <;>
    rw [State.complete_eq, State.readReg_finish, State.readReg_setEmpty]
  case intensity => exact State.readReg_setReg_same _ rd2 _
  case count => rw [State.readReg_setReg, if_neg hne.symm, State.readReg_setReg_same]

theorem exec_scanInto_found (h : exec i s = .next (s.scanInto rd rd2 c order)) (hv : s.histValid = true) {n : Nat}
    (hn : n < 256) (hscan : scanBins (s.hist.get c) order = (s.readBin c n, BitVec.ofNat 32 n, false)) :
    ∃ t, exec i s = .next t ∧ t.Completed ∧ (t.readReg rd2).toNat = n ∧ (rd ≠ rd2 → t.readReg rd = s.readBin c n) ∧
      t.empty = false ∧ s.OnlyRegsAndEmpty t [rd, rd2] := by
  obtain ⟨t, ht, hc, hrd2, rest⟩ := exec_scanInto h hv hscan
  refine ⟨t, ht, hc, ?_, rest⟩
  rw [hrd2, BitVec.toNat_ofNat]
  omega

/-- The empty result, 0 and 0, is in both registers also when they are one (R176). -/
theorem exec_scanInto_empty (h : exec i s = .next (s.scanInto rd rd2 c order)) (hv : s.histValid = true)
    (ho : ∀ j ∈ order, j < 256) (hz : ∀ j, j < 256 → s.readBin c j = 0#32) :
    ∃ t, exec i s = .next t ∧ t.Completed ∧ t.readReg rd = 0#32 ∧ t.readReg rd2 = 0#32 ∧ t.empty = true ∧
      s.OnlyRegsAndEmpty t [rd, rd2] := by
  obtain ⟨t, ht, hc, hrd2, hrd, rest⟩ := exec_scanInto h hv (scanBins_empty ho hz)
  refine ⟨t, ht, hc, ?_, hrd2, rest⟩
  by_cases e : rd = rd2
  · rw [e, hrd2]
  · exact hrd e

end Scan

/-- Settles O52: the upward scan stops at the lowest non-zero bin, or finds none. -/
theorem hlowFindsTheLowestBin : Obligations.HlowFindsTheLowestBin :=
  fun rd rd2 c s => ⟨encodedAs _, fun hv => exec_noHistogram hv (by simp [Instr.mnemonic]),
    fun hv _ hn h0 hlow => exec_scanInto_found (exec_hlow rd rd2 c s) hv hn (scanBins_upward hn h0 hlow),
    fun hv => exec_scanInto_empty (exec_hlow rd rd2 c s) hv fun _ => lt_of_mem_upward⟩

/-- Settles O53: the downward scan stops at the highest non-zero bin, or finds none. -/
theorem hhighFindsTheHighestBin : Obligations.HhighFindsTheHighestBin :=
  fun rd rd2 c s => ⟨encodedAs _, fun hv => exec_noHistogram hv (by simp [Instr.mnemonic]),
    fun hv _ hn h0 hhigh => exec_scanInto_found (exec_hhigh rd rd2 c s) hv hn (scanBins_downward hn h0 hhigh),
    fun hv => exec_scanInto_empty (exec_hhigh rd rd2 c s) hv fun _ hj => lt_of_mem_upward (List.mem_reverse.1 hj)⟩

/-! ### HBUILD (R162, R163) -/

/-- The frame of a command that writes only the histograms, their validity and counts, and its result. -/
theorem State.onlyHist_finish (s : State) (h : PerChannel Bins) (v : Bool) (n : PerChannel (BitVec 2)) (e : ErrCode)
    (info : Word) : s.OnlyHist (State.finish { s with hist := h, histValid := v, cumCnt := n } e info) :=
  ⟨fun _ _ => rfl, fun _ => ⟨rfl, rfl, rfl⟩, ⟨rfl, rfl, rfl⟩, rfl, rfl, rfl, rfl, rfl, rfl, rfl, rfl, rfl⟩

theorem exec_hbuild_noImage {s : State} (hv : s.imgValid = false) : exec .hbuild s = .next (s.afterError .noImage 0#32) :=
  congrArg Host.Outcome.next (State.require_noImage hv _)

theorem exec_hbuild_image {s : State} (hv : s.imgValid = true) :
    exec .hbuild s = .next (s.setBuilt s.buildHistograms).complete :=
  congrArg Host.Outcome.next (State.require_image hv _ _)

/-- Settles O49: each bin is the number of pixels with its value modulo 2^32, and the image has fewer pixels than that. -/
theorem hbuildCountsThePixels : Obligations.HbuildCountsThePixels := by
  refine fun s => ⟨encodedAs _, exec_hbuild_noImage, fun hv => ⟨_, exec_hbuild_image hv, State.completed_complete _, rfl,
    fun c => by cases c <;> rfl, fun c i _ => ?modulo, fun hinv c i _ => ?exact, s.onlyHist_finish _ _ _ _ _⟩⟩ <;>
    rw [State.complete_eq, State.readBin_finish, State.readBin_setBuilt]
  case modulo => rw [s.buildHistograms_bin, BitVec.toNat_ofNat]
  case exact => exact State.buildHistograms_bin_toNat (hinv.numPixels_lt hv) c i

/-- Settles O50: every pixel is counted once in each channel (`State.binSum_setBuilt`). -/
theorem builtBinsSumToThePixelCount : Obligations.BuiltBinsSumToThePixelCount :=
  fun _ hinv hv => ⟨_, exec_hbuild_image hv, State.binSum_setBuilt (hinv.numPixels_lt hv)⟩

/-! ### The sums HCUM forms (R172, R179, R180) -/

theorem State.prefixSum_zero (s : State) (c : Channel) : s.prefixSum c 0 = (s.readBin c 0).toNat :=
  binsPrefix_zero _

theorem State.prefixSum_succ (s : State) (c : Channel) (i : Nat) :
    s.prefixSum c (i + 1) = s.prefixSum c i + (s.readBin c (i + 1)).toNat :=
  binsPrefix_succ _ i

theorem State.prefixSum_monotone (s : State) (c : Channel) : Monotone (s.prefixSum c) :=
  monotone_nat_of_le_succ fun i => s.prefixSum_succ c i ▸ Nat.le_add_right _ _

theorem State.prefixSum_le_binSum (s : State) (c : Channel) {i : Nat} (hi : i < 256) : s.prefixSum c i ≤ s.binSum c :=
  s.prefixSum_monotone c (Nat.le_of_lt_succ hi : i ≤ 255)

theorem State.cumSum_le_prefixSum (s : State) (c : Channel) {i : Nat} (hi : 1 ≤ i) : s.cumSum c i ≤ s.prefixSum c i := by
  obtain ⟨j, rfl⟩ := Nat.exists_eq_add_of_le' hi
  rw [s.prefixSum_succ, Nat.add_comm (s.prefixSum c j)]
  exact Nat.add_le_add_left (Nat.mod_le _ _) _

/-- Each term of the double sum grows by its bin, and the new term is the new bin. -/
theorem State.doubleSum_succ (s : State) (c : Channel) (i : Nat) :
    s.doubleSum c (i + 1) = s.doubleSum c i + s.prefixSum c (i + 1) := by
  have hterms : (List.range (i + 1)).map (fun j => (i + 1 - j + 1) * (s.readBin c j).toNat) =
      (List.range (i + 1)).map (fun j => (i - j + 1) * (s.readBin c j).toNat + (s.readBin c j).toNat) := by
    refine List.map_congr_left fun j hj => ?_
    have hj := List.mem_range.1 hj
    rw [show i + 1 - j + 1 = i - j + 1 + 1 by omega, Nat.succ_mul]
  rw [s.prefixSum_succ, State.doubleSum, List.range_succ, List.map_append, List.sum_append, hterms, List.sum_map_add,
    Nat.add_assoc]
  simp [State.doubleSum, State.prefixSum]

theorem State.doubleSum_zero (s : State) (c : Channel) : s.doubleSum c 0 = (s.readBin c 0).toNat := by
  simp [State.doubleSum]

/-! ### A channel that holds the running sums of another state's (R179) -/

/-- The bins of channel `c` in `t` are the running sums of those in `s`, modulo 2^32. -/
def State.Cumulated (s t : State) (c : Channel) : Prop :=
  ∀ i, i < 256 → (t.readBin c i).toNat = s.prefixSum c i % 2 ^ 32

theorem State.cumulated_setCumulated_finish (s : State) (c : Channel) (n : BitVec 2) (e : ErrCode) (info : Word) :
    s.Cumulated ((s.setCumulated c (cumulate (s.hist.get c)).1 n).finish e info) c := by
  intro i hi
  rw [State.readBin_finish, State.readBin_setCumulated, if_pos rfl]
  exact cumulate_bin _ hi

namespace State.Cumulated

variable {s t u : State} {c : Channel}

theorem readBin_zero (h : s.Cumulated t c) : t.readBin c 0 = s.readBin c 0 := by
  apply BitVec.eq_of_toNat_eq
  rw [h 0 (by decide), s.prefixSum_zero, Nat.mod_eq_of_lt (s.readBin c 0).isLt]

/-- A running sum is the one before it and the bin of its own. -/
theorem readBin_succ (h : s.Cumulated t c) {i : Nat} (hi : i + 1 < 256) :
    t.readBin c (i + 1) = t.readBin c i + s.readBin c (i + 1) := by
  apply BitVec.eq_of_toNat_eq
  rw [BitVec.toNat_add, h (i + 1) hi, h i (Nat.lt_of_succ_lt hi), s.prefixSum_succ, Nat.mod_add_mod]

/-- The running sums below the first non-zero bin are 0. -/
theorem readBin_eq_zero (h : s.Cumulated t c) {n : Nat} (hn : n ≤ 256) (hz : ∀ j, j < n → s.readBin c j = 0#32) (i : Nat)
    (hi : i < n) : t.readBin c i = 0#32 := by
  induction i with
  | zero => rw [h.readBin_zero, hz 0 hi]
  | succ i ih => rw [h.readBin_succ (by omega), ih (by omega), hz (i + 1) hi, BitVec.add_zero]

/-- The running sum at the first non-zero bin is that bin. -/
theorem readBin_lowest (h : s.Cumulated t c) {n : Nat} (hn : n < 256) (hz : ∀ j, j < n → s.readBin c j = 0#32) :
    t.readBin c n = s.readBin c n := by
  cases n with
  | zero => exact h.readBin_zero
  | succ n => rw [h.readBin_succ hn, h.readBin_eq_zero (Nat.le_of_lt hn) hz n n.lt_succ_self, BitVec.zero_add]

/-- Where the running sums are 0, so are the bins: each is a difference of two neighbouring sums. -/
theorem eq_zero_of_readBin (h : s.Cumulated t c) {n : Nat} (hn : n ≤ 256) (hz : ∀ j, j < n → t.readBin c j = 0#32) (i : Nat)
    (hi : i < n) : s.readBin c i = 0#32 := by
  cases i with
  | zero => rw [← h.readBin_zero, hz 0 hi]
  | succ i => rw [← hz (i + 1) hi, h.readBin_succ (by omega), hz i (by omega), BitVec.zero_add]

/-- The running sums of the running sums are the double sums (R180). -/
theorem doubleSum (hst : s.Cumulated t c) (htu : t.Cumulated u c) (i : Nat) (hi : i < 256) :
    (u.readBin c i).toNat = s.doubleSum c i % 2 ^ 32 := by
  induction i with
  | zero => rw [htu.readBin_zero, hst 0 hi, s.prefixSum_zero, s.doubleSum_zero]
  | succ i ih =>
    rw [htu.readBin_succ hi, BitVec.toNat_add, ih (Nat.lt_of_succ_lt hi), hst (i + 1) hi, s.doubleSum_succ, ← Nat.add_mod]

/-- Cumulating twice differs from cumulating once, unless every bin below 255 is 0 (R180): equal results at i + 1 leave no room
for the sum at i. -/
theorem exists_ne (hst : s.Cumulated t c) (htu : t.Cumulated u c) {j : Nat} (hj : j < 255) (h0 : s.readBin c j ≠ 0#32) :
    ∃ i, i < 256 ∧ u.readBin c i ≠ t.readBin c i := by
  by_contra heq
  push Not at heq
  refine h0 (hst.eq_zero_of_readBin (n := 255) (by decide) (fun i hi => ?_) j hj)
  have hsum := htu.readBin_succ (Nat.succ_lt_succ hi)
  rw [heq (i + 1) (Nat.succ_lt_succ hi), heq i (Nat.lt_succ_of_lt hi)] at hsum
  exact BitVec.self_eq_add_left.1 hsum

end State.Cumulated

/-! ### HCUM (R172, R173, R179) -/

/-- What HCUM writes, and how it ends: with OK when no sum needs more than 32 bits, else with the lowest bin whose sum does. -/
theorem exec_hcum_histogram {s : State} (c : Channel) (hv : s.histValid = true) : ∃ e info, exec (.hcum c) s =
      .next ((s.setCumulated c (cumulate (s.hist.get c)).1 (saturatingSucc (s.cumCnt.get c))).finish e info) ∧
    ((∀ i, 1 ≤ i → i < 256 → s.cumSum c i < 2 ^ 32) ∧ e = .ok ∧ info = 0#32 ∨
      ∃ i, 1 ≤ i ∧ i < 256 ∧ 2 ^ 32 ≤ s.cumSum c i ∧ (∀ j, 1 ≤ j → j < i → s.cumSum c j < 2 ^ 32) ∧
        e = .countOverflow ∧ info.toNat = i) := by
  obtain ⟨hf, -⟩ | ⟨-, e, info, hexec, hend⟩ := execHcum_cases s c
  · exact nomatch hv.symm.trans hf
  refine ⟨e, info, hexec, ?_⟩
  obtain ⟨hnone, hlow⟩ | ⟨i, hsome, h1, h2, hover, hlow⟩ := cumulateUpTo_overflow (s.hist.get c) 255 (by decide) <;>
    obtain ⟨hnone', rfl, rfl⟩ | ⟨j, hsome', rfl, rfl⟩ := hend
  · exact .inl ⟨fun i h1 h2 => hlow i h1 (Nat.le_of_lt_succ h2), rfl, rfl⟩
  · exact nomatch hnone.symm.trans hsome'
  · exact nomatch hnone'.symm.trans hsome
  · cases hsome'.symm.trans hsome
    refine .inr ⟨i, h1, Nat.lt_succ_of_le h2, hover, hlow, rfl, ?_⟩
    rw [BitVec.toNat_ofNat]
    omega

/-- Settles O55: the updated channel is `cumulate` of its bins, and the first overflow is unique. -/
theorem hcumFormsThePrefixSums : Obligations.HcumFormsThePrefixSums := by
  refine fun c s => ⟨encodedAs _, fun hv => exec_noHistogram hv (by simp [Instr.mnemonic]), fun hv => ?_⟩
  obtain ⟨e, info, hexec, hend⟩ := exec_hcum_histogram c hv
  refine ⟨_, hexec, s.cumulated_setCumulated_finish c _ e info, fun d hd => ⟨?otherBins, ?otherCount⟩, ?count, hv,
    s.onlyHist_finish _ _ _ _ _, fun hall => ?exact, fun i h1 h2 hover hlow => ?overflow⟩
  case otherBins => exact (PerChannel.get_set ..).trans (if_neg hd.symm)
  case otherCount => exact (PerChannel.get_set ..).trans (if_neg hd.symm)
  case count =>
    rw [← saturatingSucc_toNat]
    exact congrArg _ ((PerChannel.get_set ..).trans (if_pos rfl))
  case exact =>
    obtain ⟨-, rfl, rfl⟩ | ⟨i, h1, h2, hover, -⟩ := hend
    · exact ⟨rfl, rfl, rfl⟩
    · exact absurd (hall i h1 h2) (Nat.not_lt.2 hover)
  case overflow =>
    obtain ⟨hall, -⟩ | ⟨j, h1', -, hover', hlow', rfl, hinfo⟩ := hend
    · exact absurd (hall i h1 h2) (Nat.not_lt.2 hover)
    · obtain hlt | rfl | hlt := Nat.lt_trichotomy i j
      · exact absurd (hlow' i h1 hlt) (Nat.not_lt.2 hover)
      · exact ⟨rfl, hinfo, rfl⟩
      · exact absurd (hlow j h1' hlt) (Nat.not_lt.2 hover')

/-- Settles O56: the second HCUM takes the running sums of the first one's. -/
theorem hcumTwiceAccumulatesTwice : Obligations.HcumTwiceAccumulatesTwice := by
  intro c s hv
  obtain ⟨t, ht, hst, -, hcount, hvt, -⟩ := (hcumFormsThePrefixSums c s).2.2 hv
  obtain ⟨u, hu, htu, -, hcount', -⟩ := (hcumFormsThePrefixSums c t).2.2 hvt
  refine ⟨t, u, ht, hu, State.Cumulated.doubleSum hst htu, fun ⟨j, hj, h0⟩ => State.Cumulated.exists_ne hst htu hj h0, ?_⟩
  omega

/-- HCUM of a channel whose bins sum to less than 2^32: the running sums are exact and none overflows (R172). -/
theorem exec_hcum_of_binSum_lt {s : State} {c : Channel} (hv : s.histValid = true) (hlt : s.binSum c < 2 ^ 32) :
    ∃ t, exec (.hcum c) s = .next t ∧ t.Completed ∧ ∀ i, i < 256 → (t.readBin c i).toNat = s.prefixSum c i := by
  have hsum : ∀ i, i < 256 → s.prefixSum c i < 2 ^ 32 := fun i hi => Nat.lt_of_le_of_lt (s.prefixSum_le_binSum c hi) hlt
  obtain ⟨t, ht, hst, -, -, -, -, hcompleted, -⟩ := (hcumFormsThePrefixSums c s).2.2 hv
  refine ⟨t, ht, hcompleted fun i h1 h2 => Nat.lt_of_le_of_lt (s.cumSum_le_prefixSum c h1) (hsum i h2), fun i hi => ?_⟩
  rw [hst i hi, Nat.mod_eq_of_lt (hsum i hi)]

/-- Settles O57: the bins sum to the pixel count right after HBUILD, and to at most MAX_PIXELS until the next HCUM. -/
theorem firstHcumNeverOverflows : Obligations.FirstHcumNeverOverflows := by
  refine fun c s hinv => ⟨fun hv => ?built, fun hv hcount => ?fresh⟩
  case built =>
    have hN := hinv.numPixels_lt hv
    have hsum : (s.setBuilt s.buildHistograms).complete.binSum c = s.numPixels := State.binSum_setBuilt hN c
    obtain ⟨u, hu, hcompleted, hbins⟩ :=
      exec_hcum_of_binSum_lt (s := (s.setBuilt s.buildHistograms).complete) rfl (hsum.trans_lt hN)
    exact ⟨_, u, exec_hbuild_image hv, hu, hcompleted, fun i hi =>
      ⟨hbins i hi, (State.prefixSum_le_binSum _ c hi).trans_eq hsum, Nat.le_pred_of_lt hN⟩⟩
  case fresh =>
    have hsum := hinv.hist.counted hv c hcount
    have hlt : s.binSum c < 2 ^ 32 := Nat.lt_of_le_of_lt hsum (Nat.lt_succ_of_le hinv.capacity.2)
    obtain ⟨t, ht, hcompleted, hbins⟩ := exec_hcum_of_binSum_lt hv hlt
    exact ⟨t, ht, hcompleted, fun i hi => ⟨hbins i hi, (s.prefixSum_le_binSum c hi).trans hsum⟩⟩

/-! ### HCUM and the lowest bin (R173) -/

/-- The invariant gives the bin that HLOW finds. -/
theorem State.Inv.exists_lowest_bin {s : State} (hinv : s.Inv) (hv : s.histValid = true) (c : Channel) :
    ∃ n, n < 256 ∧ s.readBin c n ≠ 0#32 ∧ ∀ j, j < n → s.readBin c j = 0#32 := by
  have hex := hinv.hist.nonzero hv c
  obtain ⟨hn, h0⟩ := Nat.find_spec hex
  refine ⟨Nat.find hex, hn, h0, fun j hj => ?_⟩
  by_contra hne
  exact Nat.find_min hex hj ⟨hj.trans hn, hne⟩

/-- HCUM of any channel keeps a channel's bins up to the lowest non-zero one. -/
theorem exec_hcum_keeps_lowest {s : State} {c : Channel} {n : Nat} (d : Channel) (hv : s.histValid = true) (hn : n < 256)
    (hz : ∀ j, j < n → s.readBin c j = 0#32) : ∃ u, exec (.hcum d) s = .next u ∧ u.histValid = true ∧
      u.readBin c n = s.readBin c n ∧ ∀ j, j < n → u.readBin c j = 0#32 := by
  obtain ⟨u, hu, hsu, hother, -, hvu, -⟩ := (hcumFormsThePrefixSums d s).2.2 hv
  refine ⟨u, hu, hvu, ?_⟩
  by_cases hcd : c = d
  · subst hcd
    exact ⟨State.Cumulated.readBin_lowest hsu hn hz, State.Cumulated.readBin_eq_zero hsu (Nat.le_of_lt hn) hz⟩
  · have hbins : ∀ j, u.readBin c j = s.readBin c j := fun j => congrArg (Bins.bin · j) (hother c hcd).1
    exact ⟨hbins n, fun j hj => (hbins j).trans (hz j hj)⟩

/-- Settles O58: the lowest non-zero bin and its count are the same before and after, so HLOW finds the same. -/
theorem hcumKeepsTheLowestBin : Obligations.HcumKeepsTheLowestBin := by
  intro rd rd2 c d s hinv hv
  obtain ⟨n, hn, h0, hz⟩ := hinv.exists_lowest_bin hv c
  obtain ⟨u, hu, hvu, hsame, hzu⟩ := exec_hcum_keeps_lowest d hv hn hz
  obtain ⟨t, ht, -, hrd2, hrd, hempty, -⟩ := (hlowFindsTheLowestBin rd rd2 c s).2.2.1 hv n hn h0 hz
  obtain ⟨v, hv', -, hrd2', hrd', hempty', -⟩ := (hlowFindsTheLowestBin rd rd2 c u).2.2.1 hvu n hn (hsame ▸ h0) hzu
  have hintensity : v.readReg rd2 = t.readReg rd2 := BitVec.eq_of_toNat_eq (hrd2'.trans hrd2.symm)
  refine ⟨t, u, v, ht, hu, hv', ?_, hintensity, hempty, hempty'⟩
  by_cases hne : rd = rd2
  · exact hne ▸ hintensity
  · rw [hrd' hne, hrd hne, hsame]

end Sys2Proof.Machine
end

section
/-! How a command ends (60_exceptions.md R203, R217): it completes, raises precisely, or, HCUM only, reports an overflow and keeps
what it wrote; without a command the engine is idle. -/

namespace Sys2Proof.Machine

/-! ### The idle engine (R217) -/

theorem engineTurn_idle {s : State} (hw : s.inflight = none) : engineTurn s = .next s := by
  rw [engineTurn, hw]

/-- Settles O8: both steps are the engine's turn, with no command in flight. -/
theorem idleEngineKeepsAllState : Obligations.IdleEngineKeepsAllState :=
  fun _ _ hw => ⟨fun he => (step_nil he).trans (engineTurn_idle hw), fun he => (step_engine he).trans (engineTurn_idle hw)⟩

/-! ### Commands that complete or raise (R203) -/

/-- `t` is how a command that never reports leaves `s`: completed, or as `s` was but for an error other than COUNT_OVERFLOW. -/
def State.CompletesOrRaises (s t : State) : Prop :=
  t.Completed ∨ ∃ e info, e ≠ .ok ∧ e ≠ .countOverflow ∧ t = s.afterError e info

namespace State.CompletesOrRaises

variable {s : State}

theorem complete (s t : State) : s.CompletesOrRaises t.complete := .inl t.completed_complete

theorem raise (s : State) (e : ErrCode) (info : Word) (he : e ≠ .ok := by decide)
    (he' : e ≠ .countOverflow := by decide) : s.CompletesOrRaises (s.raise e info) :=
  .inr ⟨e, info, he, he', rfl⟩

/-- A command with a precondition ends as what it guards does, or raises. -/
theorem require {v : Bool} {e : ErrCode} {k : State → State} (hk : s.CompletesOrRaises (k s))
    (he : e ≠ .ok := by decide) (he' : e ≠ .countOverflow := by decide) : s.CompletesOrRaises (s.require v e k) := by
  rcases s.require_cases v e k with ⟨_, heq⟩ | ⟨_, heq⟩ <;> rw [heq]
  · exact raise s _ _ he he'
  · exact hk

theorem loadCore (s : State) (w h len : Word) (lay : Layout) : s.CompletesOrRaises (s.loadCore w h len lay) := by
  rcases s.loadCore_cases w h len lay with ⟨_, e⟩ | ⟨_, _, _, e⟩ | ⟨_, _, _, _, e⟩ | ⟨_, _, _, _, e⟩ <;> rw [e]
  · exact raise s _ _
  · exact raise s _ _
  · exact raise s _ _
  · exact complete s _

/-- Every command but HCUM, which alone reports (R179). -/
theorem exec {i : Instr} (hi : ∀ c, i ≠ .hcum c) {t : State} (ht : exec i s = .next t) : s.CompletesOrRaises t := by
  cases i with
  | enc8 | encw | dec8 | decw | todisp | decd =>
    cases ht
    exact complete s _
  | load =>
    cases ht
    exact loadCore s _ _ _ _
  | loadx =>
    cases ht
    split
    · exact raise s _ _
    · exact loadCore s _ _ _ _
  | getpix =>
    cases ht
    refine require ?_
    dsimp only
    split
    · exact raise s _ _
    · split
      · exact raise s _ _
      · exact complete s _
  | dims | exportDisp | gray | inv | thr | hbuild | hlow | hhigh =>
    cases ht
    exact require (complete s _)
  | hcount =>
    cases ht
    refine require ?_
    dsimp only
    split
    · exact raise s _ _
    · exact complete s _
  | hcum c => exact absurd rfl (hi c)

end State.CompletesOrRaises

/-! ### HCUM's report (R179, R203) -/

/-- `t` is how HCUM of channel `c` leaves `s` when it reports COUNT_OVERFLOW; BUSY falls as after every command. -/
def State.ReportsOverflow (s t : State) (c : Channel) : Prop :=
  t.err = .countOverflow ∧ t.histValid = s.histValid ∧ s.OnlyHist t ∧ s.Cumulated t c ∧
    (t.cumCnt.get c).toNat = min 3 ((s.cumCnt.get c).toNat + 1) ∧
    ∀ d, d ≠ c → t.hist.get d = s.hist.get d ∧ t.cumCnt.get d = s.cumCnt.get d

/-- What HCUM has written is the same in both endings: only the result tells the report from the completion. -/
theorem exec_hcum_ends (c : Channel) {s t : State} (ht : exec (.hcum c) s = .next t) :
    s.CompletesOrRaises t ∨ s.ReportsOverflow t c := by
  cases hv : s.histValid with
  | false =>
    cases ((hcumFormsThePrefixSums c s).2.1 hv).symm.trans ht
    exact .inl (.raise s .noHistogram 0#32)
  | true =>
    obtain ⟨u, hu, hbins, hother, hcount, hvu, hframe, -⟩ := (hcumFormsThePrefixSums c s).2.2 hv
    cases hu.symm.trans ht
    obtain ⟨e, info, hexec, hend⟩ := exec_hcum_histogram c hv
    cases hexec.symm.trans ht
    obtain ⟨-, rfl, rfl⟩ | ⟨-, -, -, -, -, rfl, -⟩ := hend
    · exact .inl (.complete s _)
    · exact .inr ⟨rfl, hvu.trans hv.symm, hframe, hbins, hcount, hother⟩

/-! ### Every command word (R85, R203) -/

theorem perform_ends {w : Word} {s t : State} (ht : perform w s = .next t) :
    s.CompletesOrRaises t ∨ ∃ c, decode w = .ok (.hcum c) ∧ s.ReportsOverflow t c := by
  cases hd : decode w with
  | error e =>
    cases ((illegalWordsAreReported w).2 s ⟨e, hd⟩).symm.trans ht
    exact .inl (.raise s .illegalCommand w)
  | ok i =>
    have hexec : exec i s = .next t := (perform_of_decode hd s).symm.trans ht
    by_cases hi : ∃ c, i = .hcum c
    · obtain ⟨c, rfl⟩ := hi
      exact (exec_hcum_ends c hexec).imp_right fun h => ⟨c, rfl, h⟩
    · exact .inl (.exec (not_exists.1 hi) hexec)

/-- Settles O24: `perform_ends` separates HCUM's report from the other endings, which either completed or raised. -/
theorem everyCommandEndsInOneOfThreeWays : Obligations.EveryCommandEndsInOneOfThreeWays := by
  intro w s
  obtain ⟨t, ht, hidle⟩ := perform_next w s
  refine ⟨t, ht, hidle, ?_⟩
  obtain (⟨hok, hinfo, -⟩ | ⟨e, info, he, he', rfl⟩) | ⟨c, hd, herr, hv, hframe, hbins, hcount, hother⟩ := perform_ends ht
  · exact .inl ⟨hok, hinfo⟩
  · exact .inr (.inl ⟨he, he', rfl⟩)
  · exact .inr (.inr ⟨herr, hv, hframe, c, hd, hbins, hcount, hother⟩)

end Sys2Proof.Machine
end

section
/-! Reset and hazards (70_reset_and_hazards.md R230, R241): accesses made in reset get the bus-error response, and accesses made
while BUSY = 1 leave the command in flight and everything it works on as they were. -/

namespace Sys2Proof.Machine

/-! ### Accesses in reset (R230) -/

/-- Settles O20: reset refuses an access as R63 does, by `serve_refused`. -/
theorem accessesInResetAreRefused : Obligations.AccessesInResetAreRefused :=
  fun _ _ _ hr he => step_access he (State.serve_refused (.inl hr))

/-! ### Accesses while BUSY = 1 (R241) -/

/-- The accesses keep the command in flight, so every one of them is made while BUSY = 1 (`serve_busy_frame`). -/
theorem stepN_busyAccesses {s : State} {w : Word} (accs : List Access) (m : Nat) (es : List Event)
    (hb : s.inflight = some w) :
    ∃ l r d, stepN (accs.length + m) { s with events := accs.map .access ++ es } = stepN m (s.withHost l es r d) := by
  induction accs generalizing s with
  | nil => exact ⟨s.lost, s.responses, s.draws, congrArg (stepN · _) (Nat.zero_add m)⟩
  | cons a accs ih =>
    obtain ⟨l, r, d, ha⟩ := State.serve_busy_frame (s := { s with events := accs.map .access ++ es }) a hb
    obtain ⟨l', r', d', h⟩ := ih (s := { s with lost := l, responses := r, draws := d }) hb
    refine ⟨l', r', d', ?_⟩
    calc stepN ((a :: accs).length + m) { s with events := (a :: accs).map .access ++ es }
      _ = stepN (accs.length + m + 1) _ := congrArg (stepN · _) (Nat.add_right_comm accs.length 1 m)
      _ = stepN (accs.length + m) _ := (stepN_access rfl).trans (congrArg (stepN (accs.length + m)) ha)
      _ = stepN m _ := h

theorem engineTurn_busy {s : State} {w : Word} (hw : s.inflight = some w) : engineTurn s = perform w s := by
  rw [engineTurn, hw]

/-- The engine's turn performs the word in flight whatever LOST, the answers and the free values are by then. -/
theorem stepN_engine_withHost {w : Word} {s u : State} (hb : s.inflight = some w) (h : perform w s = .next u) (l : Bool)
    (r : List Response) (d : Nat) : stepN 1 (s.withHost l [.engine] r d) = .next (u.withHost l [] r d) := by
  have hturn : engineTurn (s.withHost l [] r d) = perform w (s.withHost l [] r d) := engineTurn_busy hb
  exact stepN_one ((step_engine rfl).trans (hturn.trans (perform_withHost w s u l [] r d h)))

/-- Settles O26: both runs end in the engine's turn on one state, but for what the accesses may have changed of it. -/
theorem busyAccessesDoNotDisturbTheCommand : Obligations.BusyAccessesDoNotDisturbTheCommand := by
  intro s w accs _ hb
  obtain ⟨v, hv, -⟩ := perform_next w s
  obtain ⟨l, r, d, haccs⟩ := stepN_busyAccesses accs 1 [.engine] hb
  exact ⟨_, _, haccs.trans (stepN_engine_withHost hb hv l r d), stepN_engine_withHost hb hv s.lost s.responses s.draws, rfl⟩

end Sys2Proof.Machine
end
